-- ==== Sys2Proof/Word.lean ====
section
/-! DEFINITION. The word types of the block and their plainest notation (00_scope R8, R9). -/

namespace Sys2Proof

/-- A 32-bit word of the register port, of the transmit queue and of a Frame (PIX32). -/
abbrev Word := BitVec 32

/-- A microsecond time: `TIME`, `last_ts`, `now` (`TS_W` = 64, 00_scope R6, decision D2). -/
abbrev Stamp := BitVec 64

end Sys2Proof
end

