-- ==== Sys2Proof/Syntax.lean ====
section
/-! DEFINITION. The operations of spec/opcode_table.json, the words that encode them, and the
abstract syntax of traces (30_encoding R60 to R64, R68, R72, R74). -/

namespace Sys2Proof

/-- The two button channels (00_scope R12, `N_CH` = 2): channel 0 is increment, channel 1 decrement. -/
inductive Ch
  | inc
  | dec
  deriving DecidableEq, Repr

/-- The nine operations (30_encoding R68), one constructor per row of spec/opcode_table.json. -/
inductive Instr
  /-- TAKE_INC, read of offset 0x00 (R89). -/
  | takeInc
  /-- TAKE_DEC, read of offset 0x04 (R90). -/
  | takeDec
  /-- TX_PUSH, write of offset 0x08; `word = wdata[31:0]` (R100). -/
  | txPush (word : Word)
  /-- TX_STAT, read of offset 0x0C (R104). -/
  | txStat
  /-- BLINK_START, write of offset 0x10 with bit 0 = 1 (R131). -/
  | blinkStart
  /-- BLINK_NOP, write of offset 0x10 with bit 0 = 0 (R132). -/
  | blinkNop
  /-- BLINK_STAT, read of offset 0x10 (R133). -/
  | blinkStat
  /-- EDGE_INC, falling edge on the increment line; `lvl` is the re-sampled level (R87). -/
  | edgeInc (lvl : Bool)
  /-- EDGE_DEC, falling edge on the decrement line; `lvl` is the re-sampled level (R88). -/
  | edgeDec (lvl : Bool)
  deriving DecidableEq, Repr

/-- A word of a trace.  Which of the two encodings it is, is known from where it occurs, not from
its bits (30_encoding R75). -/
inductive TraceWord
  /-- XACT40, one host transaction (R61): `{we, rsv[1:0], addr[4:0], wdata[31:0]}`. -/
  | xact (v : BitVec 40)
  /-- EVT4, one button-edge event (R63): `{lvl, line, rise, fall}`. -/
  | evt (e : BitVec 4)
  deriving DecidableEq, Repr

/-- The causes of a BusError (60_exceptions R171), in the order of the checks. -/
inductive BusCause
  /-- 1, `addr[1:0] != 0`. -/
  | misaligned
  /-- 2, offset 0x14, 0x18 or 0x1C. -/
  | unmapped
  /-- 3, write of a read-only register. -/
  | writeRo
  /-- 4, read of the write-only `TX_DATA`. -/
  | readWo
  deriving DecidableEq, Repr

/-- The number of a cause (R171). -/
def BusCause.number : BusCause → Nat
  | .misaligned => 1
  | .unmapped => 2
  | .writeRo => 3
  | .readWo => 4

/-- Why a trace word is no operation: a BusError of a transaction, or a reserved word that is no
input of the block at all. -/
inductive DecodeError
  /-- The transaction is refused with BusError (20_memory R44, 30_encoding R69). -/
  | busError (cause : BusCause)
  /-- XACT40 with `rsv != 00` (R62, R70). -/
  | reservedXact
  /-- EVT4 with `fall = 0` or `rise = 1` (R64, R70). -/
  | reservedEvt
  deriving DecidableEq, Repr

/-- One line of a trace without its annotation (30_encoding R72, first column). -/
inductive TraceLine
  | take (c : Ch)
  | push (w : Word)
  | txstat
  | blinkStart
  | blinkNop
  | blinkStat
  | rd (addr : BitVec 5)
  | wr (addr : BitVec 5) (data : Word)
  | edge (c : Ch) (lvl : Bool)
  deriving DecidableEq, Repr

/-- A time annotation (30_encoding R74): `@k:` or `@T us:`. -/
inductive When
  | edge (k : Nat)
  | us (t : Nat)
  deriving DecidableEq, Repr

/-- A line of a trace with its annotation, if it has one (30_encoding R74). -/
structure TimedLine where
  whenAt : Option When
  line   : TraceLine
  deriving DecidableEq, Repr

end Sys2Proof
end

