-- ==== Sys2Proof/Config.lean ====
section
/-! DEFINITION. The parameters of 00_scope R5 (constants), R6 and R7 (`Params`), and the free values. -/

namespace Sys2Proof

namespace Config

/-- Two button channels (R5, `N_CH`). -/
def nCh : Nat := 2
/-- Debounce interval in microseconds (R5, `DEBOUNCE_US`). -/
def debounceUs : Stamp := 200000#64
/-- Bits in a packed colour word (R5, `WORD_W`); `Word` has this width (`Laws/State.lean`, `word_width`). -/
def wordW : Nat := 32
/-- Bits per colour channel (R5, `CH_W`); `Color` has this width (`Laws/State.lean`, `color_width`). -/
def chW : Nat := 8
/-- Words per Frame, LEDs in the chain (R5, `N_LEDS`). -/
def nLeds : Nat := 25
/-- Serial bit rate (R5, `BIT_RATE_HZ`). -/
def bitRateHz : Nat := 800000
/-- On/off cycles per invocation (R5, `BLINK_CYCLES`). -/
def blinkCycles : Nat := 5
/-- Level changes per invocation (R5, `BLINK_TOGGLES`). -/
def blinkToggles : BitVec 4 := 10#4
/-- Microseconds each level is held (R5, `BLINK_HOLD_US`). -/
def blinkHoldUs : BitVec 17 := 100000#17
/-- Glyphs, digits 0 to 9 (R5, `N_DIGITS`). -/
def nDigits : Nat := 10
/-- Booleans per glyph (R5, `GLYPH_BITS`). -/
def glyphBits : Nat := 25
/-- Bits of each word that reach the wire (R6, `WIRE_BITS`, decision D11). -/
def wireBits : BitVec 5 := 24#5

/-- The draw of `HANDOFF = racy` (40_button_input R86, "a free draw").
A FREE VALUE, log entry 6: applied to the channel and to the counter `State.draws` before the edge. -/
opaque freeHandoff : Ch → Nat → Bool

end Config

/-- `HANDOFF` (R6, R86): how a take and an accepted edge on one channel at one clock edge resolve. -/
inductive Handoff
  | atomic
  | racy
  deriving DecidableEq, Repr

/-- A colour: three 8-bit channel intensities (10_state R28, `CH_W` = 8). -/
structure Color where
  r : BitVec 8
  g : BitVec 8
  b : BitVec 8
  deriving DecidableEq, Repr

/-- One glyph: bit `i` is the boolean of raster position `i`, row-major, top-left first
(10_state R28, 43_render_and_host R152). -/
abbrev Glyph := BitVec 25

/-- The parameters a model takes as an argument: those 00_scope R6 fixes by decision but gives
other admissible values for, and those R7 leaves OPEN.  No step changes them. -/
structure Params where
  /-- `F_CLK` in Hz (R6; a multiple of 4000000). -/
  fClk          : Nat
  /-- `TH0_CYC` (R6): cycles high in the cell of a 0 bit. -/
  th0Cyc        : Nat
  /-- `TH1_CYC` (R6): cycles high in the cell of a 1 bit. -/
  th1Cyc        : Nat
  /-- `HANDOFF` (R6, R86). -/
  handoff       : Handoff
  /-- `TXQ_DEPTH` (R7), 1 to 255. -/
  txqDepth      : Nat
  /-- `RESAMPLE_DELAY` (R7), 0 to 65535 cycles. -/
  resampleDelay : Nat
  /-- `LATCH_US` (R7), any positive number; no rule of the block reads it. -/
  latchUs       : Nat
  /-- `GLYPH` (R7): the ten glyphs, digit 0 first. -/
  glyphs        : List Glyph
  /-- `FG_COLOR` (R7). -/
  fgColor       : Color
  deriving DecidableEq, Repr

namespace Params

/-- `TICKS_PER_US = F_CLK / 1000000` (R6). -/
def ticksPerUs (p : Params) : Nat := p.fClk / 1000000

/-- `CPB = F_CLK / BIT_RATE_HZ` (R6). -/
def cpb (p : Params) : Nat := p.fClk / Config.bitRateHz

/-- The parameters a write's `rdata` may follow: not `HANDOFF`, which makes one difference only
(40_button_input R86), nor `LATCH_US`, which no rule of the block reads (00_scope R7), nor the host's
glyphs and colour (10_state R28).  Log entry 5. -/
def ofPort (p : Params) : Params :=
  { p with handoff := .atomic, latchUs := 1, glyphs := [], fgColor := { r := 0#8, g := 0#8, b := 0#8 } }

end Params

namespace Config

/-- `rdata` in a cycle that presents a write: no rule states it (20_memory R43, R44, R49).
A FREE VALUE, log entry 5: applied to the parameters, to the status word of the unit addressed, which is
all that the host sees of its state (10_state R27), and to the operation. -/
opaque freeRdata (p : Params) (status : Word) (i : Instr) : Word

/-- The glyph whose set raster positions are listed. -/
def glyphOf (positions : List Nat) : Glyph :=
  positions.foldl (fun acc i => acc ||| (1#25 <<< i)) 0#25

/-- The illustrative GlyphTable of 95_test_vectors section 2.5, by its "set indices" column.
It is labelled there as not the repository's; DESIGN CHOICE, log entry 1. -/
def illustrativeGlyphs : List Glyph :=
  [ glyphOf [1, 2, 3, 6, 8, 11, 13, 16, 18, 21, 22, 23]
  , glyphOf [2, 6, 7, 12, 17, 21, 22, 23]
  , glyphOf [1, 2, 3, 8, 11, 12, 13, 16, 21, 22, 23]
  , glyphOf [1, 2, 3, 8, 11, 12, 13, 18, 21, 22, 23]
  , glyphOf [1, 3, 6, 8, 11, 12, 13, 18, 23]
  , glyphOf [1, 2, 3, 6, 11, 12, 13, 18, 21, 22, 23]
  , glyphOf [1, 2, 3, 6, 11, 12, 13, 16, 18, 21, 22, 23]
  , glyphOf [1, 2, 3, 8, 13, 18, 23]
  , glyphOf [1, 2, 3, 6, 8, 11, 12, 13, 16, 18, 21, 22, 23]
  , glyphOf [1, 2, 3, 6, 8, 11, 12, 13, 18, 21, 22, 23] ]

/-- The defaults of R6 and the test values of R7: the parameters of `State.reset`.
DESIGN CHOICE, log entry 1: the spec leaves R7's parameters open. -/
def testParams : Params where
  fClk := 8000000
  th0Cyc := 3
  th1Cyc := 6
  handoff := .atomic
  txqDepth := 4
  resampleDelay := 8
  latchUs := 280
  glyphs := illustrativeGlyphs
  fgColor := { r := 0#8, g := 0#8, b := 32#8 }

end Config

end Sys2Proof
end

