-- ==== Sys2Proof/WellFormed.lean ====
section
/-! DEFINITION. What is well formed: an instruction, a trace word, a choice of the parameters. -/

namespace Sys2Proof

/-- Every term of `Instr` is an operation: the operands' types are the widths the encoding gives
them (30_encoding R67), so no check is left to make. -/
def Instr.wellFormed : Instr → Bool
  | .takeInc => true
  | .takeDec => true
  | .txPush _ => true
  | .txStat => true
  | .blinkStart => true
  | .blinkNop => true
  | .blinkStat => true
  | .edgeInc _ => true
  | .edgeDec _ => true

/-- A trace word that is an input of the block: `rsv` = 00 (30_encoding R62), and `rise` = 0 with
`fall` = 1 (R64). -/
def TraceWord.wellFormed : TraceWord → Bool
  | .xact v => v.extractLsb' 37 2 == 0#2
  | .evt e => !e.getLsbD 1 && e.getLsbD 0

namespace Params

/-- `F_CLK` is a positive multiple of 4 MHz (00_scope R6). -/
def clockOk (p : Params) : Bool := decide (0 < p.fClk) && p.fClk % 4000000 == 0

/-- `0 < TH0_CYC < TH1_CYC < CPB` (00_scope R6). -/
def pulseOk (p : Params) : Bool :=
  decide (0 < p.th0Cyc) && decide (p.th0Cyc < p.th1Cyc) && decide (p.th1Cyc < p.cpb)

/-- `TXQ_DEPTH` is 1 to 255 (00_scope R7). -/
def depthOk (p : Params) : Bool := decide (1 ≤ p.txqDepth) && decide (p.txqDepth ≤ 255)

/-- `RESAMPLE_DELAY` is 0 to 65535 (00_scope R7). -/
def delayOk (p : Params) : Bool := decide (p.resampleDelay ≤ 65535)

/-- `LATCH_US` is positive (00_scope R7). -/
def latchOk (p : Params) : Bool := decide (0 < p.latchUs)

/-- The GlyphTable has exactly 10 entries (00_scope R5, `N_DIGITS`). -/
def glyphsOk (p : Params) : Bool := p.glyphs.length == Config.nDigits

/-- The parameters are admissible (00_scope R6, R7). -/
def wellFormed (p : Params) : Bool :=
  p.clockOk && p.pulseOk && p.depthOk && p.delayOk && p.latchOk && p.glyphsOk

end Params

end Sys2Proof
end

