-- ==== Sys2Proof/Decode.lean ====
section
/-! DEFINITION. The decoder of the two encodings, then the encoder, then the opcode table as rows
(30_encoding R61 to R76, 20_memory R44). -/

namespace Sys2Proof

/-! ## Field extraction (30_encoding R76) -/

/-- `we = v[39]`. -/
def xactWe (v : BitVec 40) : Bool := v.getLsbD 39
/-- `rsv = v[38:37]`. -/
def xactRsv (v : BitVec 40) : BitVec 2 := v.extractLsb' 37 2
/-- `addr = v[36:32]`. -/
def xactAddr (v : BitVec 40) : BitVec 5 := v.extractLsb' 32 5
/-- `wdata = v[31:0]`. -/
def xactWdata (v : BitVec 40) : Word := v.extractLsb' 0 32

/-- `lvl = e[3]`. -/
def evtLvl (e : BitVec 4) : Bool := e.getLsbD 3
/-- `ch = e[2]`. -/
def evtLine (e : BitVec 4) : Ch := if e.getLsbD 2 then .dec else .inc
/-- `rise = e[1]`. -/
def evtRise (e : BitVec 4) : Bool := e.getLsbD 1
/-- `fall = e[0]`. -/
def evtFall (e : BitVec 4) : Bool := e.getLsbD 0

/-! ## Decoding -/

/-- The operation of `(we, addr, wdata)`, or the BusError, in the order of checks of 20_memory R44;
the operation is that of 30_encoding R68. -/
def decodeAccess (we : Bool) (addr : BitVec 5) (wdata : Word) : Except DecodeError Instr :=
  if addr.extractLsb' 0 2 ≠ 0#2 then .error (.busError .misaligned)
  else if addr = 0x14#5 ∨ addr = 0x18#5 ∨ addr = 0x1C#5 then .error (.busError .unmapped)
  else if we = true ∧ (addr = 0x00#5 ∨ addr = 0x04#5 ∨ addr = 0x0C#5) then
    .error (.busError .writeRo)
  else if we = false ∧ addr = 0x08#5 then .error (.busError .readWo)
  else if addr = 0x00#5 then .ok .takeInc
  else if addr = 0x04#5 then .ok .takeDec
  else if addr = 0x08#5 then .ok (.txPush wdata)
  else if addr = 0x0C#5 then .ok .txStat
  else if we = false then .ok .blinkStat
  else if wdata.getLsbD 0 = true then .ok .blinkStart
  else .ok .blinkNop

/-- A 40-bit transaction word; `rsv != 00` is no transaction (30_encoding R62, R70). -/
def decodeXact (v : BitVec 40) : Except DecodeError Instr :=
  if xactRsv v ≠ 0#2 then .error .reservedXact
  else decodeAccess (xactWe v) (xactAddr v) (xactWdata v)

/-- A 4-bit event word; only the mask `rise = 0, fall = 1` occurs (30_encoding R63, R64). -/
def decodeEvt (e : BitVec 4) : Except DecodeError Instr :=
  if evtRise e = true ∨ evtFall e = false then .error .reservedEvt
  else match evtLine e with
    | .inc => .ok (.edgeInc (evtLvl e))
    | .dec => .ok (.edgeDec (evtLvl e))

/-- Decoding, total on every trace word. -/
def decode : TraceWord → Except DecodeError Instr
  | .xact v => decodeXact v
  | .evt e => decodeEvt e

/-! ## Encoding, in the canonical form (30_encoding R61, R63, R68, R72) -/

/-- XACT40 from its fields: `{we, 00, addr, wdata}` (R61, R62). -/
def packXact (we : Bool) (addr : BitVec 5) (wdata : Word) : BitVec 40 :=
  BitVec.ofBool we ++ 0#2 ++ addr ++ wdata

/-- EVT4 from its fields: `{lvl, line, rise = 0, fall = 1}` (R63). -/
def packEvt (line : Ch) (lvl : Bool) : BitVec 4 :=
  BitVec.ofBool lvl ++ BitVec.ofBool (line == Ch.dec) ++ 0#1 ++ 1#1

/-- The canonical word of an instruction: don't-care bits are 0. -/
def encode : Instr → TraceWord
  | .takeInc => .xact (packXact false 0x00#5 0#32)
  | .takeDec => .xact (packXact false 0x04#5 0#32)
  | .txPush w => .xact (packXact true 0x08#5 w)
  | .txStat => .xact (packXact false 0x0C#5 0#32)
  | .blinkStart => .xact (packXact true 0x10#5 1#32)
  | .blinkNop => .xact (packXact true 0x10#5 0#32)
  | .blinkStat => .xact (packXact false 0x10#5 0#32)
  | .edgeInc lvl => .evt (packEvt .inc lvl)
  | .edgeDec lvl => .evt (packEvt .dec lvl)

/-- The word of a trace line (30_encoding R72, third column). -/
def TraceLine.word : TraceLine → TraceWord
  | .take .inc => .xact 0x0000000000#40
  | .take .dec => .xact 0x0400000000#40
  | .push w => .xact (0x88#8 ++ w)
  | .txstat => .xact 0x0C00000000#40
  | .blinkStart => .xact 0x9000000001#40
  | .blinkNop => .xact 0x9000000000#40
  | .blinkStat => .xact 0x1000000000#40
  | .rd a => .xact (packXact false a 0#32)
  | .wr a d => .xact (packXact true a d)
  | .edge c lvl => .evt (packEvt c lvl)

/-! ## The opcode table (30_encoding R68) -/

/-- One XACT40 row: `(v &&& mask) == value` selects the operation. -/
structure OpcodeRow where
  value  : BitVec 40
  mask   : BitVec 40
  instr  : Word → Instr

/-- The seven XACT40 rows of R68, match and mask letter for letter. -/
def opcodeRows : List OpcodeRow :=
  [ { value := 0x0000000000#40, mask := 0xFF00000000#40, instr := fun _ => .takeInc }
  , { value := 0x0400000000#40, mask := 0xFF00000000#40, instr := fun _ => .takeDec }
  , { value := 0x8800000000#40, mask := 0xFF00000000#40, instr := fun w => .txPush w }
  , { value := 0x0C00000000#40, mask := 0xFF00000000#40, instr := fun _ => .txStat }
  , { value := 0x9000000001#40, mask := 0xFF00000001#40, instr := fun _ => .blinkStart }
  , { value := 0x9000000000#40, mask := 0xFF00000001#40, instr := fun _ => .blinkNop }
  , { value := 0x1000000000#40, mask := 0xFF00000000#40, instr := fun _ => .blinkStat } ]

/-- `v` selects the row (R68). -/
def OpcodeRow.selects (r : OpcodeRow) (v : BitVec 40) : Bool := v &&& r.mask == r.value

/-! ## The host's way in -/

/-- The trace word of an instruction whose bits are `w`: EVT4 is 4 bits in one byte, XACT40 is 40
bits in five; anything that does not fit is no word of either. -/
def tableWord (nbits w : Nat) : Option TraceWord :=
  if nbits ≤ 8 then
    if w < 16 then some (.evt (BitVec.ofNat 4 w)) else none
  else
    if w < 2 ^ 40 then some (.xact (BitVec.ofNat 40 w)) else none

/-- The instruction the decoder reads from the bits `w` of a row of spec/opcode_table.json. -/
def decodeTableWord (nbits w : Nat) : Option Instr :=
  match tableWord nbits w with
  | none => none
  | some t => match decode t with
    | .ok i => some i
    | .error _ => none

end Sys2Proof
end

