-- ==== Sys2Proof/Machine/State.lean ====
section
/-! DEFINITION. The state of the machine, the reasons a step can stop, and the state after reset. -/

namespace Sys2Proof.Machine

/-- The state of one button channel (10_state R19 to R22). -/
structure Channel where
  /-- `pend[ch]`: an accepted, not yet consumed event (R19). -/
  pend    : Bool
  /-- `last_ts[ch]`: `TIME` at the last accepted edge (R20). -/
  lastTs  : Stamp
  /-- `btn_prev[ch]`: the level sampled at the previous clock edge, true = high = released (R21). -/
  btnPrev : Bool
  /-- `fall_q[ch]`: element `i` is bit `i`; bit 0 is the newest detected edge (R22). -/
  fallQ   : List Bool
  deriving DecidableEq, Repr

/-- The outputs of the register port in one cycle (10_state R37, 20_memory R43). -/
structure Reply where
  ready : Bool
  err   : Bool
  rdata : Word
  deriving DecidableEq, Repr

/-- `ready = 1`, `err = 0`, `rdata = 0`: the port with no transaction (20_memory R43). -/
def Reply.idle : Reply := { ready := true, err := false, rdata := 0#32 }

/-- The inputs of the block at one clock edge (10_state R37, R38). -/
structure PinIn where
  rst   : Bool
  /-- The increment line, true = high = released. -/
  btn0  : Bool
  /-- The decrement line, true = high = released. -/
  btn1  : Bool
  sel   : Bool
  we    : Bool
  addr  : BitVec 5
  wdata : Word
  deriving DecidableEq, Repr

/-- The pins when nothing is connected: no reset, no transaction, both lines pulled up
(60_exceptions R175, 20_memory R43). -/
def PinIn.quiet : PinIn :=
  { rst := false, btn0 := true, btn1 := true, sel := false, we := false, addr := 0#5,
    wdata := 0#32 }

/-- What one step is given: a clock edge, alone (the pin level of 70_reset_and_hazards R211) or with the
lines of a trace that are due at it (30_encoding R74), or one step of R211's operation level (log
entry 7). -/
inductive Stimulus
  /-- A clock edge with its pins. -/
  | edge (p : PinIn)
  /-- A clock edge with its pins at which the lines of `State.trace` that are due happen. -/
  | traced (p : PinIn)
  /-- One of the nine operations alone; `now` of an edge event is `TIME`. -/
  | op (w : TraceWord)
  /-- The environment lets `us` microseconds pass, and so chooses `now` of the events to come. -/
  | elapse (us : Nat)
  /-- "The serialiser completes a word", or begins the word that waits for it. -/
  | wordDone
  /-- "A blink hold expires". -/
  | holdExpires
  deriving DecidableEq, Repr

/-- What a host program does next: the operations of 30_encoding R72, R73 and the steps of the
reference loop (43_render_and_host R158, R159). -/
inductive HostOp
  /-- `RD addr`: present the read until it completes. -/
  | rd (addr : BitVec 5)
  /-- `WR addr, data`: present the write until it completes. -/
  | wr (addr : BitVec 5) (data : Word)
  /-- `BLINK.STAT` repeatedly until bit 0 is 0. -/
  | pollBlink
  /-- `TXSTAT` repeatedly until bit 1 is 1 and bit 2 is 0. -/
  | pollTx
  /-- Present nothing for `n` cycles. -/
  | wait (n : Nat)
  /-- `SEND_FRAME RENDER(d, FG_COLOR)`. -/
  | sendGlyph (d : Int)
  /-- `a = TAKE INC` of the loop. -/
  | drainInc
  /-- `b = TAKE DEC` of the loop, then the update, the re-render and the next iteration. -/
  | drainDec
  deriving DecidableEq, Repr

/-- The host side (10_state R28): outside the block. -/
structure HostState where
  /-- `CurrentDigit` (43_render_and_host R155). -/
  digit   : Fin 10
  /-- `a` of the loop (43_render_and_host R159): the result of its last `TAKE INC`. -/
  tookInc : Bool
  /-- What the host still has to do; empty: the pins or the trace drive the port. -/
  program : List HostOp
  /-- The host is the one of 43_render_and_host R158 and R159: a reset of the block sets it back to its
  startup.  The model's own, log entry 4. -/
  reference : Bool
  deriving DecidableEq, Repr

/-- No host: the pins or the trace drive the port. -/
def HostState.none : HostState := { digit := 0, tookInc := false, program := [], reference := false }

/-- The whole state: the block (10_state R16 to R27), its parameters (00_scope R6, R7), the host
side (R28) and the model's own fields `reply`, `trace`, `stim`, `draws`. -/
structure State where
  /-- The parameters (00_scope R6, R7); no step changes them. -/
  params    : Params
  /-- `TIME` (10_state R17). -/
  time      : Stamp
  /-- `us_div` (10_state R18). -/
  usDiv     : Nat
  /-- Channel 0, the increment button. -/
  inc       : Channel
  /-- Channel 1, the decrement button. -/
  dec       : Channel
  /-- `txq` (10_state R23), head first. -/
  txq       : List Word
  /-- `sh_busy` (10_state R23). -/
  shBusy    : Bool
  /-- `sh_reg` (10_state R24). -/
  shReg     : Word
  /-- `sh_left` (10_state R24). -/
  shLeft    : BitVec 5
  /-- `sh_phase` (10_state R24). -/
  shPhase   : Nat
  /-- `blink_busy` (10_state R25). -/
  blinkBusy : Bool
  /-- `status_out` (10_state R25), also the output pin. -/
  statusOut : Bool
  /-- `blink_cnt` (10_state R26). -/
  blinkCnt  : BitVec 4
  /-- `blink_rem` (10_state R26). -/
  blinkRem  : BitVec 17
  /-- The port outputs of the cycle that the last clock edge ended (R38); the model's own, log entry 3. -/
  reply     : Reply
  /-- The host side (10_state R28). -/
  host      : HostState
  /-- The lines of a trace still to happen (30_encoding R72, R74); the model's own, log entry 16. -/
  trace     : List TimedLine
  /-- The inputs of the coming steps (R38); the model's own, log entry 2. -/
  stim      : List Stimulus
  /-- How many times a racy hand-off has drawn a free value; the model's own, log entry 6. -/
  draws     : Nat
  deriving DecidableEq, Repr

/-- Why the machine stops with a fault. -/
inductive Fault
  /-- InvalidDigit (43_render_and_host R153): raised by `hostPrepare` when the host program asks to
  render a digit outside 0 to 9.  Safe: the spec says the call produces no Frame and pushes nothing,
  and no behaviour after it is given. -/
  | invalidDigit (d : Int)
  deriving DecidableEq, Repr

/-- Why the machine refuses a trace word. -/
inductive Refusal
  /-- Raised by `exec` for an instruction without a meaning; no instruction is.  Safe. -/
  | notModelled (mnemonic : String)
  /-- Raised by `rejectWord` for an XACT40 word with `rsv != 00`: "a trace whose rsv is not 00 is
  not a transaction and a decoder refuses it" (30_encoding R62).  Safe. -/
  | reservedXact
  /-- Raised by `rejectWord` for an EVT4 word with `fall = 0` or `rise = 1`: "a model refuses a
  trace that contains one" (30_encoding R64).  Safe. -/
  | reservedEvt
  deriving DecidableEq, Repr

/-- A channel after reset (70_reset_and_hazards R191). -/
def Channel.reset (p : Params) : Channel :=
  { pend := false, lastTs := 0#64, btnPrev := true,
    fallQ := List.replicate p.resampleDelay false }

/-- The machine right after reset with the parameters `p` (10_state R39, 70_reset_and_hazards R191). -/
def State.resetWith (p : Params) : State where
  params := p
  time := 0#64
  usDiv := 0
  inc := Channel.reset p
  dec := Channel.reset p
  txq := []
  shBusy := false
  shReg := 0#32
  shLeft := 0#5
  shPhase := 0
  blinkBusy := false
  statusOut := false
  blinkCnt := 0#4
  blinkRem := 0#17
  reply := Reply.idle
  host := HostState.none
  trace := []
  stim := []
  draws := 0

/-- The machine right after reset, with R6's defaults and R7's test values (log entry 1). -/
def State.reset : State := State.resetWith Config.testParams

end Sys2Proof.Machine
end

