-- ==== Sys2Proof/Machine/Ops.lean ====
section
/-! DEFINITION. The named operations over the state that every meaning shares: the channels, the
port's answer, the BusError (the block's exception) and the edge handling (its "trap entry"). -/

namespace Sys2Proof.Machine

/-- Run `f` on the next state; a fault or a refusal goes through. -/
def andThen (o : Host.Outcome State Fault Refusal)
    (f : State → Host.Outcome State Fault Refusal) : Host.Outcome State Fault Refusal :=
  match o with
  | .next s => f s
  | .fault r => .fault r
  | .refused r => .refused r

/-! ## Channels (40_button_input R84: independent, no shared mutable fields) -/

/-- The record of a channel. -/
def State.ch (s : State) : Ch → Channel
  | .inc => s.inc
  | .dec => s.dec

/-- Write the record of a channel. -/
def State.setCh (s : State) (c : Ch) (k : Channel) : State :=
  match c with
  | .inc => { s with inc := k }
  | .dec => { s with dec := k }

/-- The level of a channel's line at this clock edge. -/
def PinIn.btn (p : PinIn) : Ch → Bool
  | .inc => p.btn0
  | .dec => p.btn1

/-! ## The port's answer (20_memory R43, R44) -/

/-- The outputs of the cycle. -/
def State.answer (s : State) (r : Reply) : State := { s with reply := r }

/-- The answer of a completed read: its result is `rdata` (R44). -/
def State.answerRead (s : State) (v : Word) : State :=
  s.answer { ready := true, err := false, rdata := v }

/-- The state of the block alone: the host side, the trace, the stimuli and the model's own fields are
put aside (10_state R16 to R27, R38). -/
def State.block (s : State) : State :=
  { s with
    reply := Reply.idle, host := HostState.none, trace := [], stim := [], draws := 0 }

/-- The answer in a cycle that presents a write: completed (`ready`) or stalled, with the free `rdata`
of that cycle. -/
def State.answerWrite (s : State) (ready : Bool) (rdata : Word) : State :=
  s.answer { ready := ready, err := false, rdata := rdata }

/-! ## Taking an exception -/

/-- `raise BusError(cause)` (60_exceptions R170): the transaction completes with `ready = 1`,
`err = 1`, `rdata = 0`, and no state of the block changes.  The port records no cause (R171), and
nothing is entered, so there is no return (R180). -/
def raiseBusError (_cause : BusCause) (s : State) : State :=
  s.answer { ready := true, err := true, rdata := 0#32 }

/-- A word that is no operation: a BusError completes, a reserved word is refused
(30_encoding R62, R64, R69, R70). -/
def rejectWord (e : DecodeError) (s : State) : Host.Outcome State Fault Refusal :=
  match e with
  | .busError c => .next (raiseBusError c s)
  | .reservedXact => .refused .reservedXact
  | .reservedEvt => .refused .reservedEvt

/-! ## Edge handling: the "trap entry" of this hardware (60_exceptions R179) -/

/-- The acceptance test of 40_button_input R81: the window has elapsed, strictly, and the line still
reads pressed. -/
def edgeAccepted (k : Channel) (now : Stamp) (lvl : Bool) : Bool :=
  decide (Config.debounceUs < now - k.lastTs) && !lvl

/-- `edge_handle(ch, now, lvl)` (40_button_input R81). -/
def edgeHandle (c : Ch) (now : Stamp) (lvl : Bool) (s : State) : State :=
  if edgeAccepted (s.ch c) now lvl then
    s.setCh c { s.ch c with pend := true, lastTs := now }
  else s

/-- The effect of `take(ch)` (40_button_input R82): the flag is cleared; the answer is its old value. -/
def take (c : Ch) (s : State) : State :=
  (s.setCh c { s.ch c with pend := false }).answerRead ((BitVec.ofBool (s.ch c).pend).setWidth 32)

/-! ## Reset (70_reset_and_hazards R190) -/

/-- An edge with `rst = 1`: every state element of the block takes its reset value and the port
answers as with no transaction.  The parameters, the host side, the trace, the stimuli and the count of
draws stay (log entry 10). -/
def applyReset (s : State) : State :=
  { State.resetWith s.params with host := s.host, trace := s.trace, stim := s.stim, draws := s.draws }

/-! ## The stimulus queue (log entry 2) -/

/-- The stimulus of the next step: the head of the queue, or a clock edge with quiet pins. -/
def State.nextStimulus (s : State) : Stimulus :=
  match s.stim with
  | [] => .edge PinIn.quiet
  | x :: _ => x

/-- The state with that stimulus consumed. -/
def State.popStim (s : State) : State := { s with stim := s.stim.tail }

end Sys2Proof.Machine
end

