-- ==== Sys2Proof/Machine/Flags.lean ====
section
/-! DEFINITION. The flags that are computed and not stored (10_state R16, R33), and the status
words that read them (R32, R34). -/

namespace Sys2Proof.Machine

/-- `FULL` = (`len(txq) == TXQ_DEPTH`) (10_state R16, R33). -/
def State.full (s : State) : Bool := s.txq.length == s.params.txqDepth

/-- `EMPTY` = (`len(txq) == 0`) (10_state R16, R33). -/
def State.empty (s : State) : Bool := s.txq.length == 0

/-- The value `TX_STAT` reads: `{0[15:0], zext_8(len), 0[4:0], BUSY, EMPTY, FULL}`
(10_state R32, 41_led_transport R104). -/
def State.txStatWord (s : State) : Word :=
  0#16 ++ BitVec.ofNat 8 s.txq.length ++ 0#5 ++ BitVec.ofBool s.shBusy ++
    BitVec.ofBool s.empty ++ BitVec.ofBool s.full

/-- The value `BLINK_CTRL` reads: `{0[23:0], CNT, 00, OUT, BUSY}` (10_state R34, 42_blink R133). -/
def State.blinkStatWord (s : State) : Word :=
  0#24 ++ s.blinkCnt ++ 0#2 ++ BitVec.ofBool s.statusOut ++ BitVec.ofBool s.blinkBusy

/-- `rdata` in the cycle that presents a TX_PUSH: a function of the transaction and the state (20_memory
R43) that no rule states, so a free value, log entry 5.  It follows what the host sees of LTX alone
(10_state R27, 41_led_transport R114), and not bits 7:0 of the word (R107). -/
def State.pushRdata (s : State) (word : Word) : Word :=
  Config.freeRdata s.params.ofPort s.txStatWord (.txPush (word >>> 8 <<< 8))

/-- `rdata` in the cycle that presents the write `i` of BLINK_CTRL: the same, of what the host sees of BLK. -/
def State.blinkRdata (s : State) (i : Instr) : Word :=
  Config.freeRdata s.params.ofPort s.blinkStatWord i

/-- Nothing is in flight (10_state R27): no edge delayed, no word queued or being sent, no invocation. -/
def State.quiescent (s : State) : Bool :=
  !s.inc.fallQ.any id && !s.dec.fallQ.any id && s.empty && !s.shBusy && !s.blinkBusy

end Sys2Proof.Machine
end

