-- ==== Sys2Proof/Machine/Timebase.lean ====
section
/-! DEFINITION. The timebase: the hardware event TICK (10_state R17, R18). -/

namespace Sys2Proof.Machine

/-- The coming clock edge is a microsecond tick (10_state R18). -/
def isTick (s : State) : Bool := s.usDiv == s.params.ticksPerUs - 1

/-- TICK (10_state R17, R18). -/
def tickStep (pre s : State) : State :=
  if isTick pre then { s with usDiv := 0, time := pre.time + 1#64 }
  else { s with usDiv := pre.usDiv + 1 }

end Sys2Proof.Machine
end

