-- ==== Sys2Proof/Machine/Blink.lean ====
section
/-! DEFINITION. BLK: the meanings of BLINK_START, BLINK_NOP, BLINK_STAT, and the hardware event
BLINK_STEP (42_blink). -/

namespace Sys2Proof.Machine

/-- BLINK_START (42_blink R131): starts an invocation when idle, is ignored when busy. -/
def execBlinkStart (s : State) : Host.Outcome State Fault Refusal :=
  if s.blinkBusy then .next (s.answerWrite true (s.blinkRdata .blinkStart))
  else
    .next ({ s with
      blinkBusy := true
      statusOut := true
      blinkCnt := 1#4
      blinkRem := Config.blinkHoldUs }.answerWrite true (s.blinkRdata .blinkStart))

/-- BLINK_NOP (42_blink R132): no state change. -/
def execBlinkNop (s : State) : Host.Outcome State Fault Refusal :=
  .next (s.answerWrite true (s.blinkRdata .blinkNop))

/-- BLINK_STAT (42_blink R133). -/
def execBlinkStat (s : State) : Host.Outcome State Fault Refusal :=
  .next (s.answerRead s.blinkStatWord)

/-- The body of BLINK_STEP (42_blink R134): one tick of a running hold; every test and read is of the
state `pre` before the edge (R135). -/
def blinkTick (pre s : State) : State :=
  if pre.blinkRem = 1#17 then
    if pre.blinkCnt = Config.blinkToggles then { s with blinkBusy := false, blinkRem := 0#17 }
    else
      { s with
        statusOut := !pre.statusOut
        blinkCnt := pre.blinkCnt + 1#4
        blinkRem := Config.blinkHoldUs }
  else { s with blinkRem := pre.blinkRem - 1#17 }

/-- BLINK_STEP (42_blink R134), at a microsecond tick with `blink_busy` = 1 before the edge. -/
def blinkStep (pre s : State) : State :=
  if isTick pre && pre.blinkBusy then blinkTick pre s else s

end Sys2Proof.Machine
end

