-- ==== Sys2Proof/Machine/Operands.lean ====
section
/-! DEFINITION. Operand forms: the word the port's wires form, and the fields of a PIX32 word
(30_encoding R62, R66, R67, R76). -/

namespace Sys2Proof.Machine

/-- The XACT40 word the wires of the port form in a cycle with a transaction (30_encoding R62);
nothing when `sel = 0`.  This is where a clock edge fetches its operation. -/
def PinIn.xact (p : PinIn) : Option TraceWord :=
  if p.sel then some (.xact (packXact p.we p.addr p.wdata)) else none

/-- The pins that present the transaction `v` to the port and otherwise agree with `p`. -/
def PinIn.present (p : PinIn) (v : BitVec 40) : PinIn :=
  { p with sel := true, we := xactWe v, addr := xactAddr v, wdata := xactWdata v }

/-- The channel whose flag the transaction on the port takes, if it is a TAKE (`ch = addr[2]`,
30_encoding R67). -/
def PinIn.takes (p : PinIn) (c : Ch) : Bool :=
  match p.xact with
  | none => false
  | some w => match decode w with
    | .ok .takeInc => c == .inc
    | .ok .takeDec => c == .dec
    | _ => false

/-- Green, `w[31:24]` (30_encoding R66, R76). -/
def pixG (w : Word) : BitVec 8 := w.extractLsb' 24 8
/-- Red, `w[23:16]`. -/
def pixR (w : Word) : BitVec 8 := w.extractLsb' 16 8
/-- Blue, `w[15:8]`. -/
def pixB (w : Word) : BitVec 8 := w.extractLsb' 8 8
/-- Unused, `w[7:0]`. -/
def pixU (w : Word) : BitVec 8 := w.extractLsb' 0 8

end Sys2Proof.Machine
end

