-- ==== Sys2Proof/Machine/Button.lean ====
section
/-! DEFINITION. BIC: the meanings of TAKE_INC, TAKE_DEC, EDGE_INC, EDGE_DEC, and the hardware event
SAMPLE (40_button_input). -/

namespace Sys2Proof.Machine

/-- TAKE_INC (40_button_input R89): `rdata <- zext_32(take(0))`. -/
def execTakeInc (s : State) : Host.Outcome State Fault Refusal := .next (take .inc s)

/-- TAKE_DEC (40_button_input R90): `rdata <- zext_32(take(1))`. -/
def execTakeDec (s : State) : Host.Outcome State Fault Refusal := .next (take .dec s)

/-- EDGE_INC (40_button_input R87): `edge_handle(0, now, lvl)`; `now` is the value of `TIME` in the
cycle before the handling edge (R80), that is `s.time`. -/
def execEdgeInc (lvl : Bool) (s : State) : Host.Outcome State Fault Refusal :=
  .next (edgeHandle .inc s.time lvl s)

/-- EDGE_DEC (40_button_input R88): `edge_handle(1, now, lvl)`. -/
def execEdgeDec (lvl : Bool) (s : State) : Host.Outcome State Fault Refusal :=
  .next (edgeHandle .dec s.time lvl s)

/-- `fall` of SAMPLE (40_button_input R85): the previous sample high, this one low. -/
def fallSeen (k : Channel) (lvl : Bool) : Bool := k.btnPrev && !lvl

/-- The delay line with this edge's `fall` shifted in at bit 0: bits 0 to `D`, where bit `D` is the
one that leaves.  With `D = 0` it is `fall` alone (40_button_input R85). -/
def fallLine (k : Channel) (lvl : Bool) : List Bool := fallSeen k lvl :: k.fallQ

/-- `fire` of SAMPLE: the bit that leaves the delay line, the edge detected `D` cycles ago
(40_button_input R85). -/
def edgeFires (k : Channel) (lvl : Bool) : Bool := (fallLine k lvl).getLast (by simp [fallLine])

/-- What SAMPLE writes of a channel whether or not an edge fires (40_button_input R85). -/
def shiftSample (c : Ch) (lvl : Bool) (pre s : State) : State :=
  s.setCh c { s.ch c with btnPrev := lvl, fallQ := (fallLine (pre.ch c) lvl).dropLast }

/-- An edge fires on the channel at this clock edge and is accepted. -/
def edgeTaken (c : Ch) (lvl : Bool) (pre : State) : Bool :=
  edgeFires (pre.ch c) lvl && edgeAccepted (pre.ch c) pre.time lvl

/-- The one case in which `HANDOFF = racy` differs (40_button_input R86): a take and an accepted edge
on one channel at one clock edge, with the flag set before it. -/
def racing (c : Ch) (taken accepted : Bool) (pre : State) : Bool :=
  pre.params.handoff == .racy && taken && accepted && (pre.ch c).pend

/-- In that case the flag ends as a free draw (log entry 6); in every other, and always with
`HANDOFF = atomic`, it stays as the edge left it: set wins (40_button_input R83). -/
def handoff (c : Ch) (taken accepted : Bool) (pre s : State) : State :=
  if racing c taken accepted pre then
    { s.setCh c { s.ch c with pend := Config.freeHandoff c pre.draws } with draws := s.draws + 1 }
  else s

/-- SAMPLE on one channel at one clock edge (40_button_input R85), after the transaction of the
edge: the take is ordered before the edge (R83).  `pre` is the state before the edge, which every
read sees (00_scope R10). -/
def sampleStep (c : Ch) (p : PinIn) (pre s : State) : State :=
  let s := shiftSample c (p.btn c) pre s
  let s := if edgeFires (pre.ch c) (p.btn c) then edgeHandle c pre.time (p.btn c) s else s
  handoff c (p.takes c) (edgeTaken c (p.btn c) pre) pre s

/-! ## Edge events of a trace at a clock edge (30_encoding R74) -/

/-- The edge events of a trace that are handled at one clock edge: their levels, by channel. -/
structure Events where
  inc : Option Bool
  dec : Option Bool
  deriving DecidableEq, Repr

/-- No event on either channel. -/
def Events.empty : Events := { inc := none, dec := none }

/-- The event on a channel. -/
def Events.ch (e : Events) : Ch → Option Bool
  | .inc => e.inc
  | .dec => e.dec

/-- The event on a channel replaced. -/
def Events.set (e : Events) (c : Ch) (lvl : Bool) : Events :=
  match c with
  | .inc => { e with inc := some lvl }
  | .dec => { e with dec := some lvl }

/-- An event on one channel at a clock edge: `edge_handle(ch, now, lvl)` with `now` = `TIME` before the
edge (40_button_input R80, R81), after a take of the same edge (R83, R86). -/
def handleEvent (c : Ch) (taken : Bool) (event : Option Bool) (pre s : State) : State :=
  match event with
  | none => s
  | some lvl =>
    handoff c taken (edgeAccepted (s.ch c) pre.time lvl) pre (edgeHandle c pre.time lvl s)

/-- The events of both channels at a clock edge whose port has the pins `p`. -/
def handleEvents (p : PinIn) (e : Events) (pre s : State) : State :=
  handleEvent .dec (p.takes .dec) e.dec pre (handleEvent .inc (p.takes .inc) e.inc pre s)

end Sys2Proof.Machine
end

