-- ==== Sys2Proof/Machine/Transport.lean ====
section
/-! DEFINITION. LTX: the meanings of TX_PUSH and TX_STAT, the hardware event SER_STEP, and the
serial output (41_led_transport). -/

namespace Sys2Proof.Machine

/-- TX_PUSH (41_led_transport R100): a full queue stalls the transaction, with no effect; otherwise
the word becomes the tail. -/
def execTxPush (word : Word) (s : State) : Host.Outcome State Fault Refusal :=
  if s.full then .next (s.answerWrite false (s.pushRdata word))
  else
    .next ({ s with txq := s.txq ++ [word] }.answerWrite true (s.pushRdata word))

/-- TX_STAT (41_led_transport R104). -/
def execTxStat (s : State) : Host.Outcome State Fault Refusal :=
  .next (s.answerRead s.txStatWord)

/-- The serialiser loads the head `w` of the queue; the pop takes the old head, whatever the
transaction of the same edge appended (41_led_transport R102, R105). -/
def serLoad (w : Word) (s : State) : State :=
  { s with txq := s.txq.tail, shBusy := true, shReg := w, shLeft := Config.wireBits, shPhase := 0 }

/-- SER_STEP (41_led_transport R105): every test and read is of the state `pre` before the edge. -/
def serStep (pre s : State) : State :=
  if pre.shBusy then
    if pre.shPhase = pre.params.cpb - 1 then
      if pre.shLeft = 1#5 then
        match pre.txq with
        | w :: _ => serLoad w s
        | [] => { s with shBusy := false, shLeft := 0#5, shPhase := 0 }
      else { s with shReg := pre.shReg <<< 1, shLeft := pre.shLeft - 1#5, shPhase := 0 }
    else { s with shPhase := pre.shPhase + 1 }
  else match pre.txq with
    | w :: _ => serLoad w s
    | [] => s

/-- Cycles the line is high in the cell of a bit (41_led_transport R106). -/
def highCyc (p : Params) (bit : Bool) : Nat := if bit then p.th1Cyc else p.th0Cyc

/-- The serial output `dout` (41_led_transport R106). -/
def dout (s : State) : Bool :=
  s.shBusy && decide (s.shPhase < highCyc s.params (s.shReg.getLsbD 31))

end Sys2Proof.Machine
end

