-- ==== Sys2Proof/Machine/Clock.lean ====
section
/-! DEFINITION. The hardware's own events of one clock edge, together (20_memory R52,
30_encoding R65). -/

namespace Sys2Proof.Machine

/-- SAMPLE on both channels, SER_STEP, BLINK_STEP and TICK at one clock edge with `rst = 0`.
`pre` is the state before the edge, which every event reads; `s` is `pre` with the effect of the
edge's transaction, onto which the events write. -/
def hardwareEvents (p : PinIn) (pre s : State) : State :=
  tickStep pre (blinkStep pre (serStep pre (sampleStep .dec p pre (sampleStep .inc p pre s))))

end Sys2Proof.Machine
end

