-- ==== Sys2Proof/Machine/Dispatch.lean ====
section
/-! DEFINITION. One arm per operation. -/

namespace Sys2Proof.Machine

def exec (i : Instr) (s : State) : Host.Outcome State Fault Refusal :=
  match i with
  | .takeInc => Sys2Proof.Machine.execTakeInc s
  | .takeDec => Sys2Proof.Machine.execTakeDec s
  | .txPush word => Sys2Proof.Machine.execTxPush word s
  | .txStat => Sys2Proof.Machine.execTxStat s
  | .blinkStart => Sys2Proof.Machine.execBlinkStart s
  | .blinkNop => Sys2Proof.Machine.execBlinkNop s
  | .blinkStat => Sys2Proof.Machine.execBlinkStat s
  | .edgeInc lvl => Sys2Proof.Machine.execEdgeInc lvl s
  | .edgeDec lvl => Sys2Proof.Machine.execEdgeDec lvl s

end Sys2Proof.Machine
end

