-- ==== Sys2Proof/Machine/HostRef.lean ====
section
/-! DEFINITION. The host-side reference: PACK, RENDER, the digit counter, the pseudo-operations, the
startup and the main loop (43_render_and_host, 30_encoding R73).  Outside the block. -/

namespace Sys2Proof.Machine

/-- `PACK(r, g, b)` = `{g, r, b, 8'h00}` (43_render_and_host R150). -/
def pack (c : Color) : Word := c.g ++ c.r ++ c.b ++ 0#8

/-- The off word (43_render_and_host R151). -/
def offWord : Word := 0#32

/-- The Frame of a glyph in raster order (43_render_and_host R152). -/
def frameOf (g : Glyph) (color : Color) : List Word :=
  (List.range Config.glyphBits).map fun i => if g.getLsbD i then pack color else offWord

/-- `RENDER(d, color)` (43_render_and_host R152), or InvalidDigit for a digit outside 0 to 9 (R153). -/
def render (p : Params) (d : Int) (color : Color) : Except Int (List Word) :=
  if 0 ≤ d ∧ d ≤ 9 then .ok (frameOf (p.glyphs.getD d.toNat 0#25) color) else .error d

/-- DIGIT_INC (43_render_and_host R156). -/
def digitInc (d : Fin 10) : Fin 10 := ⟨(d.val + 1) % 10, Nat.mod_lt _ (by decide)⟩

/-- DIGIT_DEC (43_render_and_host R157). -/
def digitDec (d : Fin 10) : Fin 10 := ⟨(d.val + 9) % 10, Nat.mod_lt _ (by decide)⟩

/-! ## Pseudo-operations (30_encoding R73) -/

/-- `SEND_FRAME f`: its pushes, in order, each presented until it completes. -/
def sendFrame (f : List Word) : List HostOp := f.map (HostOp.wr 0x08#5)

/-- `BLINK`: start, then poll until not busy. -/
def blinkOps : List HostOp := [.wr 0x10#5 1#32, .pollBlink]

/-- `DRAIN`: take both channels. -/
def drainOps : List HostOp := [.rd 0x00#5, .rd 0x04#5]

/-- `WAIT_TX_IDLE`. -/
def waitTxIdle : List HostOp := [.pollTx]

/-- `WAIT n`: `n` cycles without a transaction. -/
def waitCycles (n : Nat) : List HostOp := if n = 0 then [] else [.wait n]

/-- `WAIT n us`. -/
def waitUs (p : Params) (n : Nat) : List HostOp := waitCycles (n * p.ticksPerUs)

/-- One iteration of the main loop (43_render_and_host R159); its update, its render and the next
iteration follow from the results of the two takes (`hostAdvance`). -/
def mainIteration : List HostOp := blinkOps ++ [.drainInc, .drainDec]

/-- Startup, then the main loop (43_render_and_host R158, R159). -/
def referenceProgram : List HostOp := .sendGlyph 0 :: mainIteration

/-- The host of R158 and R159 at its startup: digit 0 (70_reset_and_hazards R191) and nothing done yet. -/
def HostState.startup : HostState :=
  { digit := 0, tookInc := false, program := referenceProgram, reference := true }

/-- The state with the reference host about to start. -/
def State.withReferenceHost (s : State) : State := { s with host := HostState.startup }

/-! ## The host's part of a cycle -/

/-- Before the cycle: `SEND_FRAME RENDER(d, FG_COLOR)` at the head becomes its pushes, or raises
InvalidDigit (43_render_and_host R152, R153). -/
def hostPrepare (s : State) : Except Int State :=
  match s.host.program with
  | .sendGlyph d :: rest =>
    match render s.params d s.params.fgColor with
    | .error d => .error d
    | .ok f => .ok { s with host := { s.host with program := sendFrame f ++ rest } }
  | _ => .ok s

/-- The transaction a host operation presents (30_encoding R72, R73). -/
def HostOp.transaction : HostOp → Option (BitVec 40)
  | .rd a => some (packXact false a 0#32)
  | .wr a d => some (packXact true a d)
  | .pollBlink => some (packXact false 0x10#5 0#32)
  | .pollTx => some (packXact false 0x0C#5 0#32)
  | .wait _ => none
  | .sendGlyph _ => none
  | .drainInc => some (packXact false 0x00#5 0#32)
  | .drainDec => some (packXact false 0x04#5 0#32)

/-- The pins of the cycle: while the host has a program, its transaction is on the port. -/
def hostPins (h : HostState) (p : PinIn) : PinIn :=
  match h.program with
  | [] => p
  | op :: _ => match op.transaction with
    | none => { p with sel := false }
    | some v => p.present v

/-- The update of the loop (43_render_and_host R159): increment, then decrement. -/
def updateDigit (a b : Bool) (d : Fin 10) : Fin 10 :=
  let d := if a then digitInc d else d
  if b then digitDec d else d

/-- After the cycle: what is left of the program, by the answer `r` of the port
(30_encoding R73, 43_render_and_host R159).  An operation is over when it completes, with or without
`err`: 60_exceptions R170 leaves what the host does with `err` to the host, and this host ignores it and
goes on.  DESIGN CHOICE, log entry 15. -/
def hostAdvance (r : Reply) (h : HostState) : HostState :=
  match h.program with
  | [] => h
  | .rd _ :: rest => if r.ready then { h with program := rest } else h
  | .wr _ _ :: rest => if r.ready then { h with program := rest } else h
  | .pollBlink :: rest => if r.rdata.getLsbD 0 then h else { h with program := rest }
  | .pollTx :: rest =>
    if r.rdata.getLsbD 1 && !r.rdata.getLsbD 2 then { h with program := rest } else h
  | .wait n :: rest =>
    if n ≤ 1 then { h with program := rest } else { h with program := .wait (n - 1) :: rest }
  | .sendGlyph _ :: _ => h
  | .drainInc :: rest => { h with tookInc := r.rdata.getLsbD 0, program := rest }
  | .drainDec :: rest =>
    let b := r.rdata.getLsbD 0
    let d := updateDigit h.tookInc b h.digit
    { h with
      digit := d
      program :=
        (if h.tookInc || b then [HostOp.sendGlyph (Int.ofNat d.val)] else []) ++ mainIteration ++ rest }

/-- At a clock edge with reset: the reference host is back at its startup, since "after reset of the block
and before anything else the host does SEND_FRAME RENDER(0, FG_COLOR)" (43_render_and_host R158), and
the digit of any host is 0 (70_reset_and_hazards R191).  Another host program reads the answer of R190,
a take without a press, and goes on, log entry 10. -/
def hostReset (h : HostState) : HostState :=
  if h.reference then HostState.startup
  else hostAdvance Reply.idle { h with digit := 0, tookInc := false }

/-- After a cycle, with reset or without. -/
def hostNext (rst : Bool) (r : Reply) (h : HostState) : HostState :=
  if rst then hostReset h else hostAdvance r h

end Sys2Proof.Machine
end

