-- ==== Sys2Proof/Machine/OpLevel.lean ====
section
/-! DEFINITION. The steps of the operation level that are no operation of the table
(70_reset_and_hazards R211; log entry 7): time passes, a word ends, a blink hold expires. -/

namespace Sys2Proof.Machine

/-- The environment lets `us` microseconds pass: `TIME` moves, so `now` never decreases along a run, and
a running hold counts them down to its last, which only `holdExpires` takes (R211: "a hold expiring
only after its 100000 ticks"). -/
def elapse (us : Nat) (s : State) : State :=
  { s with
    time := s.time + BitVec.ofNat 64 us
    blinkRem :=
      if s.blinkBusy then
        if us < s.blinkRem.toNat then s.blinkRem - BitVec.ofNat 17 us else 1#17
      else s.blinkRem }

/-- The sending serialiser in the last cycle of the last cell of its word. -/
def lastCycle (s : State) : State :=
  if s.shBusy then
    { s with
      shReg := s.shReg <<< (s.shLeft.toNat - 1)
      shLeft := 1#5
      shPhase := s.params.cpb - 1 }
  else s

/-- "The serialiser completes a word" (R211), and takes the next or goes idle as SER_STEP does at the end
of a word; an idle serialiser begins the word that waits (41_led_transport R105). -/
def wordDone (s : State) : State := serStep (lastCycle s) (lastCycle s)

/-- "A blink hold expires" (R211): the tick that ends the hold, once all the others have passed
(42_blink R134).  Where no hold is at its last tick the step changes nothing. -/
def holdExpires (s : State) : State :=
  if s.blinkBusy = true ∧ s.blinkRem = 1#17 then { blinkTick s s with time := s.time + 1#64 } else s

end Sys2Proof.Machine
end

