-- ==== Sys2Proof/Machine/Trace.lean ====
section
/-! DEFINITION. Traces: the text of a line (30_encoding R72) and the lines of an annotated trace
that happen at a clock edge (R74). -/

namespace Sys2Proof

/-- `n` hexadecimal digits of `v`, in capitals, most significant first. -/
def hexText (n v : Nat) : String :=
  String.ofList (((List.range n).map fun i =>
    (['0', '1', '2', '3', '4', '5', '6', '7', '8', '9', 'A', 'B', 'C', 'D', 'E', 'F'].getD
      (v / 16 ^ i % 16) '0')).reverse)

/-- The name of a channel in a trace. -/
def Ch.text : Ch → String
  | .inc => "INC"
  | .dec => "DEC"

/-- The text of a trace line (30_encoding R72, first column). -/
def TraceLine.text : TraceLine → String
  | .take c => "TAKE " ++ c.text
  | .push w => "PUSH 0x" ++ hexText 8 w.toNat
  | .txstat => "TXSTAT"
  | .blinkStart => "BLINK.START"
  | .blinkNop => "BLINK.NOP"
  | .blinkStat => "BLINK.STAT"
  | .rd a => "RD 0x" ++ hexText 2 a.toNat
  | .wr a d => "WR 0x" ++ hexText 2 a.toNat ++ ", 0x" ++ hexText 8 d.toNat
  | .edge c lvl => "EDGE " ++ c.text ++ ", lvl=" ++ (if lvl then "1" else "0")

namespace Machine

/-! ## Which lines happen at a clock edge (30_encoding R74; log entry 16) -/

/-- The index of the coming clock edge since reset: `TIME` counts one for TICKS_PER_US of them and
`us_div` the rest (00_scope R11, 10_state R18). -/
def State.edgeIndex (s : State) : Nat := s.time.toNat * s.params.ticksPerUs + s.usDiv

/-- The coming clock edge has reached an annotation: `@k:` is edge `k`, `@T us:` the first edge with
`now == T` (30_encoding R74). -/
def reached (s : State) : When → Bool
  | .edge k => decide (k ≤ s.edgeIndex)
  | .us t => decide (t ≤ s.time.toNat)

/-- A line is due at the coming clock edge: an annotated one when its edge has come, any other when
every line before it has happened at an earlier edge (`first`). -/
def lineDue (s : State) (first : Bool) (l : TimedLine) : Bool :=
  match l.whenAt with
  | none => first
  | some w => reached s w

/-- What a trace does at a clock edge. -/
structure Due where
  /-- The line whose transaction is on the port. -/
  line   : Option TimedLine
  /-- No transaction line of the trace has been met yet, and the port is free for one. -/
  free   : Bool
  /-- The edge events handled at this clock edge. -/
  events : Events
  /-- The lines left of the trace, in order, if that transaction completes. -/
  rest   : List TimedLine
  /-- The lines left of it if that transaction stalls: it keeps its place among them. -/
  kept   : List TimedLine
  deriving DecidableEq, Repr

/-- A line that does not happen at this clock edge. -/
def Due.keep (d : Due) (l : TimedLine) : Due :=
  { d with rest := d.rest ++ [l], kept := d.kept ++ [l] }

/-- One line more: a button edge when it is due, one a channel; a transaction when it is due and is
the first of the trace's transactions. -/
def Due.add (s : State) (first : Bool) (d : Due) (l : TimedLine) : Due :=
  match l.line.word with
  | .xact _ =>
    if d.free && lineDue s first l then
      { d with line := some l, free := false, kept := d.kept ++ [l] }
    else { d.keep l with free := false }
  | .evt e =>
    if lineDue s first l && (d.events.ch (evtLine e)).isNone then
      { d with events := d.events.set (evtLine e) (evtLvl e) }
    else d.keep l

/-- The lines one by one. -/
def Due.walk (s : State) : Bool → Due → List TimedLine → Due
  | _, d, [] => d
  | first, d, l :: ls => Due.walk s false (d.add s first l) ls

/-- What the trace does at the coming clock edge; the port is the host's while it has a program. -/
def traceDue (s : State) : Due :=
  Due.walk s true
    { line := none, free := s.host.program.isEmpty, events := Events.empty, rest := [], kept := [] }
    s.trace

/-- The pins with the trace's transaction on the port, or none. -/
def Due.pins (d : Due) (p : PinIn) : PinIn :=
  match d.line with
  | none => { p with sel := false }
  | some l => match l.line.word with
    | .xact v => p.present v
    | .evt _ => { p with sel := false }

/-- The trace after the clock edge: a transaction that stalled is presented again (20_memory R49). -/
def Due.left (d : Due) (ready : Bool) : List TimedLine := if ready then d.rest else d.kept

/-- `s` about to run the trace `ls` for `n` clock edges with quiet pins. -/
def State.withTrace (s : State) (ls : List TimedLine) (n : Nat) : State :=
  { s with trace := ls, stim := List.replicate n (.traced PinIn.quiet) }

end Machine

end Sys2Proof
end

