-- ==== Sys2Proof/Machine/Step.lean ====
section
/-! DEFINITION. One step: a clock edge (pin level, 10_state R38), with or without a trace, or one step
of the operation level (70_reset_and_hazards R211). -/

namespace Sys2Proof.Machine

/-- Decode a trace word and run it (20_memory R44, 30_encoding R68 to R70). -/
def runWord (w : TraceWord) (s : State) : Host.Outcome State Fault Refusal :=
  match decode w with
  | .ok i => exec i s
  | .error e => rejectWord e s

/-- The transaction of the cycle: that of the port's wires, or none (20_memory R43). -/
def portStep (p : PinIn) (s : State) : Host.Outcome State Fault Refusal :=
  match p.xact with
  | none => .next (s.answer Reply.idle)
  | some w => runWord w s

/-- One clock edge of the block (10_state R38): reset wins over everything (70_reset_and_hazards R190);
otherwise the transaction and the hardware's events, all reading the state before the edge. -/
def clockEdge (p : PinIn) (pre : State) : Host.Outcome State Fault Refusal :=
  if p.rst then .next (applyReset pre)
  else andThen (portStep p pre) fun s => .next (hardwareEvents p pre s)

/-- One clock edge of the block and the host together: the host puts its transaction on the port,
the block makes its step, the host reads the answer or is reset with the block. -/
def edgeStep (p : PinIn) (s : State) : Host.Outcome State Fault Refusal :=
  match hostPrepare s with
  | .error d => .fault (.invalidDigit d)
  | .ok s =>
    andThen (clockEdge (hostPins s.host p) s) fun t =>
      .next { t with host := hostNext p.rst t.reply t.host }

/-- One clock edge at which the trace runs (30_encoding R74): the trace's transaction is on the port
unless the host has a program, and its edge events are handled at the edge (40_button_input R83).
At a reset edge no line happens (70_reset_and_hazards R190). -/
def tracedStep (p : PinIn) (s : State) : Host.Outcome State Fault Refusal :=
  match hostPrepare s with
  | .error d => .fault (.invalidDigit d)
  | .ok s =>
    let due := traceDue s
    let pins := hostPins s.host (due.pins p)
    andThen (clockEdge pins s) fun t =>
      let u := if p.rst then t
        else { handleEvents pins due.events s t with trace := due.left t.reply.ready }
      .next { u with host := hostNext p.rst t.reply t.host }

/-- One step of the machine. -/
def step (s : State) : Host.Outcome State Fault Refusal :=
  match s.nextStimulus with
  | .edge p => edgeStep p s.popStim
  | .traced p => tracedStep p s.popStim
  | .op w => runWord w s.popStim
  | .elapse us => .next (elapse us s.popStim)
  | .wordDone => .next (wordDone s.popStim)
  | .holdExpires => .next (holdExpires s.popStim)

/-- `s` with the instruction `w` where the next step fetches it: a transaction on the wires of the
port at the next clock edge, with no host program in its way and both button lines at their last
level; an event word as the next trace word.  A word that is neither is a word the decoder refuses. -/
def State.withFetchWord (s : State) (nbits w : Nat) : State :=
  match tableWord nbits w with
  | none => { s with stim := .op (.evt 0#4) :: s.stim }
  | some (.evt e) => { s with stim := .op (.evt e) :: s.stim }
  | some (.xact v) =>
    if xactRsv v ≠ 0#2 then { s with stim := .op (.xact v) :: s.stim }
    else
      { s with
        stim := .edge (PinIn.present
          { PinIn.quiet with btn0 := s.inc.btnPrev, btn1 := s.dec.btnPrev } v) :: s.stim
        host := { s.host with program := [] } }

end Sys2Proof.Machine
end

