-- ==== Sys2Proof/Safety.lean ====
section
/-! DEFINITION. What claims are stated in terms of: the invariant of the block, the kinds of
stimulus, and the reference receiver of 93_implementation_defined GK5. -/

namespace Sys2Proof.Machine

/-! ## The invariant -/

/-- The timebase: `us_div` stays in 0 to `TICKS_PER_US - 1` (10_state R18). -/
def TimebaseInv (s : State) : Prop := s.usDiv < s.params.ticksPerUs

/-- A channel's delay line has `RESAMPLE_DELAY` bits (10_state R22). -/
def ChannelInv (p : Params) (k : Channel) : Prop := k.fallQ.length = p.resampleDelay

/-- The transport: the queue holds at most `TXQ_DEPTH` words, `sh_left` is 0 to 24 and 0 exactly
when idle, `sh_phase` is 0 to `CPB - 1` and 0 when idle (10_state R23, R24). -/
structure TransportInv (s : State) : Prop where
  depth : s.txq.length ≤ s.params.txqDepth
  left  : s.shLeft ≤ Config.wireBits
  busy  : s.shBusy = true ↔ s.shLeft ≠ 0#5
  phase : s.shPhase < s.params.cpb
  idle  : s.shBusy = false → s.shPhase = 0

/-- The blink counter while busy: `1 <= blink_rem <= 100000`, `1 <= blink_cnt <= 10`,
`status_out == blink_cnt mod 2` (42_blink R134); while idle: `blink_rem` is 0, `status_out` is low,
`blink_cnt` is 0 or 10 (10_state R26, 42_blink R138). -/
structure BlinkInv (s : State) : Prop where
  remPos  : s.blinkBusy = true → 1#17 ≤ s.blinkRem
  remMax  : s.blinkRem ≤ Config.blinkHoldUs
  cntPos  : s.blinkBusy = true → 1#4 ≤ s.blinkCnt
  cntMax  : s.blinkCnt ≤ Config.blinkToggles
  level   : s.blinkBusy = true → s.statusOut = s.blinkCnt.getLsbD 0
  idleRem : s.blinkBusy = false → s.blinkRem = 0#17
  idleOut : s.blinkBusy = false → s.statusOut = false
  idleCnt : s.blinkBusy = false → s.blinkCnt = 0#4 ∨ s.blinkCnt = Config.blinkToggles

/-- The invariant of the block: admissible parameters and every element in the range its rule gives. -/
structure Inv (s : State) : Prop where
  params    : s.params.wellFormed = true
  timebase  : TimebaseInv s
  chInc     : ChannelInv s.params s.inc
  chDec     : ChannelInv s.params s.dec
  transport : TransportInv s
  blink     : BlinkInv s

/-! ## Stimuli -/

/-- The pins of a clock edge, with or without a trace; a step of the operation level has none. -/
def Stimulus.clockPins : Stimulus → Option PinIn
  | .edge p => some p
  | .traced p => some p
  | .op _ => none
  | .elapse _ => none
  | .wordDone => none
  | .holdExpires => none

/-- A clock edge with `rst = 0`. -/
def Stimulus.isRunEdge (x : Stimulus) : Bool :=
  match x.clockPins with
  | some p => !p.rst
  | none => false

/-- The next `n` steps are clock edges without reset. -/
def RunsFor (n : Nat) (s : State) : Prop := ∀ x ∈ s.stim.take n, Stimulus.isRunEdge x = true

/-- No stimulus is a reserved trace word. -/
def NoReserved (s : State) : Prop :=
  ∀ x ∈ s.stim, match x with
    | .op w => w.wellFormed = true
    | _ => True

/-- Every digit the host program renders is in 0 to 9. -/
def DigitsOk (s : State) : Prop :=
  ∀ op ∈ s.host.program, match op with
    | .sendGlyph d => 0 ≤ d ∧ d ≤ 9
    | _ => True

/-- `n` steps, stopping at the first fault or refusal (the same as `Host.Core.run` of the machine). -/
def runSteps : Nat → State → Host.Outcome State Fault Refusal
  | 0, s => .next s
  | n + 1, s => andThen (step s) (runSteps n)

/-- The level of a channel's line at the coming clock edge. -/
def levelAhead (s : State) (c : Ch) : Bool :=
  match s.nextStimulus.clockPins with
  | some p => p.btn c
  | none => (s.ch c).btnPrev

/-- The coming step is a clock edge with reset. -/
def resetAhead (s : State) : Bool :=
  match s.nextStimulus.clockPins with
  | some p => p.rst
  | none => false

/-- The state as the coming step's host leaves it before the cycle. -/
def prepared (s : State) : State :=
  match hostPrepare s.popStim with
  | .ok s' => s'
  | .error _ => s.popStim

/-- The pins the block sees at the coming step, if it is a clock edge: the port carries the host's
transaction, or the trace's, or the pins' own. -/
def pinsAhead (s : State) : Option PinIn :=
  match s.nextStimulus with
  | .edge p => some (hostPins (prepared s).host p)
  | .traced p => some (hostPins (prepared s).host ((traceDue (prepared s)).pins p))
  | .op _ => none
  | .elapse _ => none
  | .wordDone => none
  | .holdExpires => none

/-- The edge events of the trace at the coming step. -/
def eventsAhead (s : State) : Events :=
  match s.nextStimulus with
  | .traced _ => (traceDue (prepared s)).events
  | _ => Events.empty

/-- The word the coming step presents to the block: the trace word run alone, or the transaction on the
port at a clock edge without reset. -/
def wordAhead (s : State) : Option TraceWord :=
  match s.nextStimulus with
  | .op w => some w
  | _ => match pinsAhead s with
    | some p => if p.rst then none else p.xact
    | none => none

/-- The operation the coming step runs. -/
def instrAhead (s : State) : Option Instr :=
  match wordAhead s with
  | none => none
  | some w => match decode w with
    | .ok i => some i
    | .error _ => none

/-- The TAKE of a channel. -/
def takeOf : Ch → Instr
  | .inc => .takeInc
  | .dec => .takeDec

/-- The coming step takes the channel's flag. -/
def takesAhead (s : State) (c : Ch) : Bool := instrAhead s == some (takeOf c)

/-- A line of a trace is due at the coming clock edge (30_encoding R74), where `before` are the lines
still to happen before it: it is annotated and its edge has come, or it is not and it is the next. -/
def dueLine (s : State) (before : List TimedLine) (l : TimedLine) : Prop :=
  match l.whenAt with
  | none => before = []
  | some (.edge k) => k ≤ s.time.toNat * s.params.ticksPerUs + s.usDiv
  | some (.us t) => t ≤ s.time.toNat

/-- At a clock edge with the level `lvl` on the channel's line, and the trace's event `ev`, an edge of
the channel is accepted. -/
def acceptedAt (c : Ch) (lvl : Bool) (ev : Option Bool) (s : State) : Bool :=
  edgeTaken c lvl s ||
    match ev with
    | none => false
    | some l => edgeAccepted (s.ch c) s.time l

/-- At the coming step an edge of the channel is accepted (00_scope R12, "accepted edge"): at a clock
edge without reset by SAMPLE or the trace, or as the trace word run alone. -/
def acceptsAhead (s : State) (c : Ch) : Bool :=
  match s.nextStimulus.clockPins with
  | some p => !p.rst && acceptedAt c (p.btn c) ((eventsAhead s).ch c) s
  | none => match c, instrAhead s with
    | .inc, some (.edgeInc lvl) => edgeAccepted s.inc s.time lvl
    | .dec, some (.edgeDec lvl) => edgeAccepted s.dec s.time lvl
    | _, _ => false

/-- Two states that differ at most in bits that can no longer reach the wire: the low byte of queued
words, and the bits of `sh_reg` below the `sh_left` bits still to be sent (41_led_transport R107).
While the serialiser is idle nothing reads `sh_reg` (10_state R24). -/
structure SameOnWire (s t : State) : Prop where
  rest   : ∃ q r, t = { s with txq := q, shReg := r }
  queue  : t.txq.map (fun w : Word => w >>> 8) = s.txq.map (fun w : Word => w >>> 8)
  shReg  : s.shBusy = true → ∀ i, 32 - s.shLeft.toNat ≤ i → t.shReg.getLsbD i = s.shReg.getLsbD i

/-- Microsecond ticks left of the running blink invocation (42_blink R134): the rest of this hold and
the whole holds after it. -/
def blinkTicksLeft (s : State) : Nat :=
  if s.blinkBusy then
    (Config.blinkToggles.toNat - s.blinkCnt.toNat) * Config.blinkHoldUs.toNat + s.blinkRem.toNat
  else 0

/-! ## The reference receiver (93_implementation_defined GK5)

From general knowledge, not in the source (PRESUMED, log entry 12): an observer of `dout`, no part of
the machine.  Claims about what a frame shows are stated of it; the host obligations R203 to R205
are what such claims assume. -/

/-- State of the receiver: the bits received since the last latch, the last level seen with the
lengths of the present high and low times, and the colours shown. -/
structure Receiver where
  bits : List Bool
  high : Nat
  low  : Nat
  leds : List Color
  deriving DecidableEq, Repr

/-- Eight received bits as a byte, first bit most significant. -/
def byteOf (bs : List Bool) : BitVec 8 :=
  bs.foldl (fun acc b => (acc <<< 1) ||| (BitVec.ofBool b).setWidth 8) 0#8

/-- The colour of 24 received bits: green, red, blue. -/
def colorOf (bs : List Bool) : Color :=
  { g := byteOf (bs.take 8), r := byteOf ((bs.drop 8).take 8), b := byteOf ((bs.drop 16).take 8) }

/-- Latch: LED `i` takes bits `24*i` to `24*i + 23` if they all arrived, and keeps its colour if not. -/
def Receiver.latch (r : Receiver) : Receiver :=
  { r with
    bits := []
    leds := r.leds.mapIdx fun i c =>
      if 24 * (i + 1) ≤ r.bits.length then colorOf ((r.bits.drop (24 * i)).take 24) else c }

/-- The receiver sees one cycle of `dout`. -/
def Receiver.sample (p : Params) (level : Bool) (r : Receiver) : Receiver :=
  if level then { r with high := r.high + 1, low := 0 }
  else
    let r := if r.high = 0 then r else { r with bits := r.bits ++ [decide (5 ≤ r.high)], high := 0 }
    let r := { r with low := r.low + 1 }
    if r.low = p.latchUs * p.ticksPerUs ∧ r.bits ≠ [] then r.latch else r

/-- The receiver after a sequence of cycles. -/
def Receiver.run (p : Params) (levels : List Bool) (r : Receiver) : Receiver :=
  levels.foldl (fun r l => r.sample p l) r

end Sys2Proof.Machine
end

