-- ==== Sys2Proof/Certificates/Slice0/Obligations.lean ====
section
/-! DEFINITION. The statements of the model, for the provers. -/

open Sys2Proof Sys2Proof.Machine

/-! ## Reset -/

/-- 70_reset_and_hazards R191 and 10_state R39: every element after reset, whatever the parameters, the outputs,
the register reads and the host's digit. -/
def Obligations.ResetGivesEveryElementItsValue : Prop :=
  ∀ p : Params, p.wellFormed = true →
    let s := State.resetWith p
    s.time = 0#64 ∧ s.usDiv = 0 ∧
    (∀ c, (s.ch c).pend = false ∧ (s.ch c).lastTs = 0#64 ∧ (s.ch c).btnPrev = true ∧
      (s.ch c).fallQ = List.replicate p.resampleDelay false) ∧
    s.txq = [] ∧ s.shBusy = false ∧ s.shReg = 0#32 ∧ s.shLeft = 0#5 ∧ s.shPhase = 0 ∧
    s.blinkBusy = false ∧ s.blinkCnt = 0#4 ∧ s.blinkRem = 0#17 ∧ s.statusOut = false ∧
    dout s = false ∧ s.host.digit = 0 ∧
    (∃ t, exec .takeInc s = .next t ∧ t.reply.rdata = 0x00000000#32) ∧
    (∃ t, exec .takeDec s = .next t ∧ t.reply.rdata = 0x00000000#32) ∧
    (∃ t, exec .txStat s = .next t ∧ t.reply.rdata = 0x00000002#32) ∧
    (∃ t, exec .blinkStat s = .next t ∧ t.reply.rdata = 0x00000000#32)

/-- 70_reset_and_hazards R190: at an edge with `rst = 1`, with or without a trace, whatever else is on the
pins and in flight, every element takes its reset value, no edge is handled, the transaction has no effect
and the port answers `ready = 1, err = 0, rdata = 0`.  That the lines of a trace survive the edge and stay to
happen is the model's choice, log entries 10 and 16. -/
def Obligations.ResetWinsOverEverything : Prop :=
  ∀ (s : State) (p : PinIn), s.nextStimulus.clockPins = some p → p.rst = true → DigitsOk s →
    ∃ t, step s = .next t ∧
      t.time = 0#64 ∧ t.usDiv = 0 ∧ (∀ c, t.ch c = Channel.reset s.params) ∧
      t.txq = [] ∧ t.shBusy = false ∧ t.shReg = 0#32 ∧ t.shLeft = 0#5 ∧ t.shPhase = 0 ∧
      t.blinkBusy = false ∧ t.blinkCnt = 0#4 ∧ t.blinkRem = 0#17 ∧ t.statusOut = false ∧
      dout t = false ∧ t.reply = { ready := true, err := false, rdata := 0#32 } ∧
      t.params = s.params ∧ t.trace = s.trace ∧ t.stim = s.stim.tail

/-- 43_render_and_host R158, 70_reset_and_hazards R191 and R195: after a reset of the block and before
anything else the reference host (`reference`, log entry 4) does SEND_FRAME RENDER(0, FG_COLOR), and then
the main loop; and the digit of any host is 0.  That its RENDER takes no time, so that the first push is on
the port of the very next clock edge, is the model's choice, log entry 9. -/
def Obligations.ReferenceHostStartsAfterReset : Prop :=
  (∀ (s : State) (p : PinIn), s.nextStimulus.clockPins = some p → p.rst = true → DigitsOk s →
    ∃ t, step s = .next t ∧ t.host.digit = 0 ∧
      (s.host.reference = true → t.host.reference = true ∧
        t.host.program = .sendGlyph 0 :: mainIteration)) ∧
  (∀ (s : State) (f : List Word), s.host.program = .sendGlyph 0 :: mainIteration →
    render s.params 0 s.params.fgColor = .ok f →
    (prepared s).host.program = f.map (HostOp.wr 0x08#5) ++ mainIteration ∧
      ∀ (p : PinIn) (w : Word) (fs : List Word), s.nextStimulus.clockPins = some p → f = w :: fs →
        pinsAhead s = some { p with sel := true, we := true, addr := 0x08#5, wdata := w })

/-- The invariant holds after reset, for every admissible choice of the parameters. -/
def Obligations.InvariantHoldsAfterReset : Prop :=
  ∀ p : Params, p.wellFormed = true → Inv (State.resetWith p)

/-! ## Invariants of every step -/

/-- Every step, from every state with the invariant, gives a state with the invariant. -/
def Obligations.EveryStepKeepsTheInvariant : Prop :=
  ∀ s t : State, Inv s → step s = .next t → Inv t

/-- No step changes a parameter: 00_scope R6 and R7 make them arguments of the model, and 10_state R28
says so of the colour and the glyphs. -/
def Obligations.NoStepChangesTheParameters : Prop :=
  ∀ s t : State, step s = .next t → t.params = s.params

/-- No input hangs or stops the block (93_implementation_defined U12): with no reserved trace word
among the stimuli and no impossible digit in the host program, every step answers a next state, of
which the same holds. -/
def Obligations.NoInputStopsTheMachine : Prop :=
  ∀ s : State, NoReserved s → DigitsOk s → ∃ t, step s = .next t ∧ NoReserved t ∧ DigitsOk t

/-! ## What a step is -/

/-- A step runs the decoded operation.  At a clock edge (no host program) the word of the port's
wires (30_encoding R62) is decoded, the operation runs, and the hardware's events of the edge are
added; a cycle without a transaction has the events alone.  At a clock edge with a trace (log entry 16)
the word is the trace's, and its edge events follow.  At the operation level (log entry 7) the word is
run by itself.  In each case the stimulus is consumed. -/
def Obligations.StepRunsTheDecodedOperation : Prop :=
  (∀ (s t : State) (p : PinIn) (i : Instr), s.nextStimulus = .edge p → p.rst = false →
    s.host.program = [] → p.sel = true →
    decode (.xact (packXact p.we p.addr p.wdata)) = .ok i →
    exec i s.popStim = .next t → step s = .next (hardwareEvents p s.popStim t)) ∧
  (∀ (s : State) (p : PinIn), s.nextStimulus = .edge p → p.rst = false →
    s.host.program = [] → p.sel = false →
    step s = .next (hardwareEvents p s.popStim
      { s.popStim with reply := { ready := true, err := false, rdata := 0#32 } })) ∧
  (∀ (s t : State) (p : PinIn) (l : TimedLine) (v : BitVec 40) (i : Instr),
    s.nextStimulus = .traced p → p.rst = false → s.host.program = [] →
    let d := traceDue s.popStim
    d.line = some l → l.line.word = .xact v → decode (.xact v) = .ok i →
    exec i s.popStim = .next t →
    step s = .next
      { handleEvents (d.pins p) d.events s.popStim (hardwareEvents (d.pins p) s.popStim t) with
        trace := d.left t.reply.ready }) ∧
  (∀ (s : State) (w : TraceWord) (i : Instr), s.nextStimulus = .op w → decode w = .ok i →
    step s = exec i s.popStim)

/-- Reserved words are refused by name (30_encoding R62, R64, R70). -/
def Obligations.ReservedWordsAreRefused : Prop :=
  (∀ (s : State) (v : BitVec 40), s.nextStimulus = .op (.xact v) → v.extractLsb' 37 2 ≠ 0#2 →
    step s = .refused .reservedXact) ∧
  (∀ (s : State) (e : BitVec 4), s.nextStimulus = .op (.evt e) →
    (e.getLsbD 0 = false ∨ e.getLsbD 1 = true) → step s = .refused .reservedEvt)

/-- 10_state R38 with `HANDOFF = atomic`: given the block's state and the input at an edge, the block's next
state and the outputs are a function; the host side, the trace, the stimuli and the model's own fields
have no part in it.  That `rdata` in the cycle of a write, which no rule gives, is such a function too is
log entry 5. -/
def Obligations.BlockIsAFunctionOfStateAndInput : Prop :=
  ∀ (p : PinIn) (s t : State), s.block = t.block → s.params.handoff = .atomic →
    ∃ s' t', clockEdge p s = .next s' ∧ clockEdge p t = .next t' ∧ s'.block = t'.block ∧
      s'.reply = t'.reply ∧ dout s' = dout t' ∧ s'.statusOut = t'.statusOut

/-- 10_state R27: the hidden state is observed only indirectly.  Two blocks that show the host the same
flags, queue length, BUSY, CNT, OUT and blink BUSY answer any transaction alike, `rdata` of a write
included (log entry 5), whatever their hidden state, the button lines, the host side and the trace. -/
def Obligations.AnswersShowVisibleStateOnly : Prop :=
  ∀ (p q : PinIn) (s t : State), p.rst = q.rst → p.xact = q.xact → s.params = t.params →
    (∀ c, (s.ch c).pend = (t.ch c).pend) → s.txq.length = t.txq.length → s.shBusy = t.shBusy →
    s.blinkBusy = t.blinkBusy → s.statusOut = t.statusOut → s.blinkCnt = t.blinkCnt →
    ∃ s' t', clockEdge p s = .next s' ∧ clockEdge q t = .next t' ∧ s'.reply = t'.reply

/-- 41_led_transport R114: no operation of BIC or BLK reads or writes LTX state, and LTX reads no BIC or BLK
state.  The same transaction on two blocks that agree in LTX leaves them so and, to an LTX offset, is
answered alike, whatever BIC and BLK hold and the button lines do; and the same of BLK (with the
prescaler that makes its ticks, 42_blink R138), whatever BIC and LTX hold.  No rule gives `rdata` in the cycle
of a TX_PUSH or of a BLINK_CTRL write: that it is alike there too is the model's reading, log entry 5.
(BIC: ChannelsAreIndependent.) -/
def Obligations.TransportAndBlinkAreIndependent : Prop :=
  ∀ (p q : PinIn) (s t : State), p.rst = q.rst → p.xact = q.xact → s.params = t.params →
    ∃ s' t', clockEdge p s = .next s' ∧ clockEdge q t = .next t' ∧
      (s.txq = t.txq → s.shBusy = t.shBusy → s.shReg = t.shReg → s.shLeft = t.shLeft →
        s.shPhase = t.shPhase →
        s'.txq = t'.txq ∧ s'.shBusy = t'.shBusy ∧ s'.shReg = t'.shReg ∧ s'.shLeft = t'.shLeft ∧
          s'.shPhase = t'.shPhase ∧ dout s' = dout t' ∧
          (p.addr = 0x08#5 ∨ p.addr = 0x0C#5 → s'.reply = t'.reply)) ∧
      (s.usDiv = t.usDiv → s.blinkBusy = t.blinkBusy → s.statusOut = t.statusOut →
        s.blinkCnt = t.blinkCnt → s.blinkRem = t.blinkRem →
        s'.blinkBusy = t'.blinkBusy ∧ s'.statusOut = t'.statusOut ∧ s'.blinkCnt = t'.blinkCnt ∧
          s'.blinkRem = t'.blinkRem ∧ (p.addr = 0x10#5 → s'.reply = t'.reply))

/-- 30_encoding R74, line by line (which line waits for which is log entry 16).  At a clock edge with a trace:
the first transaction line is on the port exactly if it is due, and then leaves the trace unless it stalls,
when it keeps its place; the first due EDGE line of each channel is handled at this edge and leaves the
trace, and no other event is; every line that is not due, every later transaction and every later EDGE
line of a channel stays. -/
def Obligations.TraceLinesHappenAtTheirEdge : Prop :=
  ∀ (s : State) (p : PinIn), s.nextStimulus = .traced p → p.rst = false → s.host.program = [] →
    let isXact : TimedLine → Prop := fun m => ∃ v, m.line.word = .xact v
    let quiet : PinIn := { p with sel := false }
    ∃ t, step s = .next t ∧ t.trace.Sublist s.trace ∧
      ((∀ m ∈ s.trace, ¬ isXact m) → pinsAhead s = some quiet) ∧
      (∀ c lvl, (eventsAhead s).ch c = some lvl →
        ∃ before l after, s.trace = before ++ l :: after ∧ l.line = .edge c lvl ∧ dueLine s before l) ∧
      ∀ before l after, s.trace = before ++ l :: after →
        (¬ dueLine s before l → l ∈ t.trace) ∧
        (∀ v, l.line.word = .xact v →
          ((∃ m ∈ before, isXact m) → l ∈ t.trace) ∧
          ((∀ m ∈ before, ¬ isXact m) → ¬ dueLine s before l → pinsAhead s = some quiet) ∧
          ((∀ m ∈ before, ¬ isXact m) → dueLine s before l →
            pinsAhead s = some (p.present v) ∧
            (t.reply.ready = true → t.trace.Sublist (before ++ after)) ∧
            (t.reply.ready = false →
              ∃ b a, t.trace = b ++ l :: a ∧ b.Sublist before ∧ a.Sublist after))) ∧
        (∀ c lvl, l.line = .edge c lvl →
          let taken : Prop := ∃ b m a lv, before = b ++ m :: a ∧ m.line = .edge c lv ∧ dueLine s b m
          (taken → l ∈ t.trace) ∧
          (¬ taken → dueLine s before l →
            (eventsAhead s).ch c = some lvl ∧ t.trace.Sublist (before ++ after)))

/-- 70_reset_and_hazards R211, the steps of the operation level that are no operation of the table (how they
stand in this machine is log entry 7).  Time passes by the environment's choice and a running hold counts
it down to its last tick; the serialiser completes its word and takes the next, in order, or goes idle,
or begins a word that waits; a hold at its last tick expires with that tick, and no other does. -/
def Obligations.OperationLevelSteps : Prop :=
  (∀ (s : State) (us : Nat), s.nextStimulus = .elapse us →
    ∃ t, step s = .next t ∧ t = { s.popStim with time := t.time, blinkRem := t.blinkRem } ∧
      t.time = s.time + BitVec.ofNat 64 us ∧
      (s.blinkBusy = false → t.blinkRem = s.blinkRem) ∧
      (s.blinkBusy = true → t.blinkRem.toNat =
        if us < s.blinkRem.toNat then s.blinkRem.toNat - us else 1)) ∧
  (∀ s : State, s.nextStimulus = .wordDone →
    ∃ t, step s = .next t ∧
      t = { s.popStim with
        txq := s.txq.tail, shBusy := t.shBusy, shReg := t.shReg, shLeft := t.shLeft,
        shPhase := t.shPhase } ∧
      (∀ w q, s.txq = w :: q →
        t.shBusy = true ∧ t.shReg = w ∧ t.shLeft = 24#5 ∧ t.shPhase = 0) ∧
      (s.txq = [] → s.shBusy = true →
        t.shBusy = false ∧ t.shReg = s.shReg <<< (s.shLeft.toNat - 1) ∧ t.shLeft = 0#5 ∧ t.shPhase = 0) ∧
      (s.txq = [] → s.shBusy = false → t = s.popStim)) ∧
  (∀ s : State, s.nextStimulus = .holdExpires →
    ∃ t, step s = .next t ∧
      (s.blinkBusy = true → s.blinkRem = 1#17 → s.blinkCnt = 10#4 →
        t = { s.popStim with time := s.time + 1#64, blinkBusy := false, blinkRem := 0#17 }) ∧
      (s.blinkBusy = true → s.blinkRem = 1#17 → s.blinkCnt ≠ 10#4 →
        t = { s.popStim with
          time := s.time + 1#64, statusOut := !s.statusOut, blinkCnt := s.blinkCnt + 1#4,
          blinkRem := 100000#17 }) ∧
      (s.blinkBusy = false ∨ s.blinkRem ≠ 1#17 → t = s.popStim))

/-! ## Encodings -/

/-- Decoding the canonical word of an operation gives the operation back, with every operand at
every value, and the word is one the block accepts. -/
def Obligations.DecodeOfEncode : Prop :=
  ∀ i : Instr, i.wellFormed = true → (encode i).wellFormed = true ∧ decode (encode i) = .ok i

/-- 30_encoding R68: a value selects the row for which `(v & mask) == match`; the seven XACT40 rows
are disjoint; a value that matches no row is no operation; and the same for the two EVT4 rows. -/
def Obligations.DecoderFollowsTheOpcodeTable : Prop :=
  (∀ (v : BitVec 40) (i : Instr), decode (.xact v) = .ok i ↔
    ∃ r ∈ opcodeRows, v &&& r.mask = r.value ∧ r.instr (v.extractLsb' 0 32) = i) ∧
  opcodeRows.Pairwise (fun r q => ∀ v : BitVec 40, ¬ (v &&& r.mask = r.value ∧ v &&& q.mask = q.value)) ∧
  (∀ (e : BitVec 4) (i : Instr), decode (.evt e) = .ok i ↔
    (e &&& 0x7#4 = 0x1#4 ∧ i = .edgeInc (e.getLsbD 3)) ∨
    (e &&& 0x7#4 = 0x5#4 ∧ i = .edgeDec (e.getLsbD 3)))

/-- 60_exceptions R171: the four causes, their numbers, what raises each, and that of several the
lowest number is the one raised. -/
def Obligations.LowestNumberedBusErrorIsRaised : Prop :=
  let applies : BusCause → Bool → BitVec 5 → Prop := fun c we addr => match c with
    | .misaligned => addr.extractLsb' 0 2 ≠ 0#2
    | .unmapped => addr.extractLsb' 2 3 = 5#3 ∨ addr.extractLsb' 2 3 = 6#3 ∨ addr.extractLsb' 2 3 = 7#3
    | .writeRo => we = true ∧
        (addr.extractLsb' 2 3 = 0#3 ∨ addr.extractLsb' 2 3 = 1#3 ∨ addr.extractLsb' 2 3 = 3#3)
    | .readWo => we = false ∧ addr.extractLsb' 2 3 = 2#3
  BusCause.misaligned.number = 1 ∧ BusCause.unmapped.number = 2 ∧ BusCause.writeRo.number = 3 ∧
  BusCause.readWo.number = 4 ∧
  ∀ (we : Bool) (addr : BitVec 5) (wdata : Word) (c : BusCause),
    decode (.xact (packXact we addr wdata)) = .error (.busError c) ↔
      applies c we addr ∧ ∀ d : BusCause, d.number < c.number → ¬ applies d we addr

/-- "Legal top bytes are exactly 0x00, 0x04, 0x88, 0x0C, 0x90, 0x10" (30_encoding R69). -/
def Obligations.LegalTopBytesAreSix : Prop :=
  ∀ v : BitVec 40, (∃ i, decode (.xact v) = .ok i) ↔
    v.extractLsb' 32 8 ∈ [0x00#8, 0x04#8, 0x88#8, 0x0C#8, 0x90#8, 0x10#8]

/-- A few words written out from the spec's encodings decode to their operations (30_encoding R68,
95_test_vectors V-E1 to V-E17). -/
def Obligations.SpecWordsDecode : Prop :=
  decode (.xact 0x00000000FF#40) = .ok .takeInc ∧
  decode (.xact 0x0400000000#40) = .ok .takeDec ∧
  decode (.xact 0x88DEADBEEF#40) = .ok (.txPush 0xDEADBEEF#32) ∧
  decode (.xact 0x0C00000000#40) = .ok .txStat ∧
  decode (.xact 0x9000000003#40) = .ok .blinkStart ∧
  decode (.xact 0x90FFFFFFFE#40) = .ok .blinkNop ∧
  decode (.xact 0x1000000000#40) = .ok .blinkStat ∧
  decode (.evt 0x9#4) = .ok (.edgeInc true) ∧
  decode (.evt 0x5#4) = .ok (.edgeDec false) ∧
  decode (.xact 0x9500000000#40) = .error (.busError .misaligned) ∧
  decode (.xact 0x9800000001#40) = .error (.busError .unmapped)

/-! ## BusError -/

/-- 60_exceptions R170: a refused transaction completes with `ready = 1, err = 1, rdata = 0`, and the
step's result is otherwise that of the same edge without a transaction: no flag cleared, nothing
queued, no invocation started, nothing latched.  So on the pins, and so whoever drives the port (pins, host
program or trace line): the block ends as that of any state `s'` with the same block at the same edge, the
same trace events with it and nothing on the port.  Run alone (the operation level, log entry 7) it changes
nothing but the answer.  A transaction that is not refused has `err = 0`. -/
def Obligations.BusErrorChangesNothing : Prop :=
  (∀ (s : State) (p : PinIn) (rest : List Stimulus) (c : BusCause),
    s.stim = .edge p :: rest → p.rst = false → s.host.program = [] → p.sel = true →
    decode (.xact (packXact p.we p.addr p.wdata)) = .error (.busError c) →
    ∃ t u, step s = .next t ∧
      step { s with stim := .edge { p with sel := false } :: rest } = .next u ∧
      t.reply = { ready := true, err := true, rdata := 0#32 } ∧
      t = { u with reply := t.reply }) ∧
  (∀ (s s' : State) (p : PinIn) (c : BusCause), DigitsOk s → DigitsOk s' → s'.block = s.block →
    pinsAhead s = some p → pinsAhead s' = some { p with sel := false } → eventsAhead s' = eventsAhead s →
    p.rst = false → p.sel = true →
    decode (.xact (packXact p.we p.addr p.wdata)) = .error (.busError c) →
    ∃ t u, step s = .next t ∧ step s' = .next u ∧
      t.reply = { ready := true, err := true, rdata := 0#32 } ∧ t.block = u.block) ∧
  (∀ (s : State) (w : TraceWord) (c : BusCause), s.nextStimulus = .op w →
    decode w = .error (.busError c) →
    step s = .next { s.popStim with reply := { ready := true, err := true, rdata := 0#32 } }) ∧
  (∀ (s : State) (we : Bool) (addr : BitVec 5) (wdata : Word) (i : Instr),
    decode (.xact (packXact we addr wdata)) = .ok i →
    ∃ t, exec i s = .next t ∧ t.reply.err = false)

/-! ## The operations: results, completion and frame -/

/-- 40_button_input R82 (TAKE_INC, TAKE_DEC): the answer is the flag before the edge, the flag is
cleared, the timestamp and everything else stay. -/
def Obligations.TakeAnswersAndClearsTheFlag : Prop :=
  ∀ s : State,
    exec .takeInc s = .next { s with
      inc := { s.inc with pend := false }
      reply := { ready := true, err := false, rdata := if s.inc.pend then 1#32 else 0#32 } } ∧
    exec .takeDec s = .next { s with
      dec := { s.dec with pend := false }
      reply := { ready := true, err := false, rdata := if s.dec.pend then 1#32 else 0#32 } }

/-- 40_button_input R81, R87, R88 (EDGE_INC, EDGE_DEC): accepted when strictly more than 200000 us have
passed, modulo 2^64, since the last accepted edge and the line reads low; then the flag is set and
the timestamp is `now`; otherwise nothing changes.  `now` is `TIME` (R80); that it is so for an event run
alone is the model's reading, log entry 7. -/
def Obligations.EdgeIsAcceptedOrChangesNothing : Prop :=
  ∀ (s : State) (lvl : Bool),
    exec (.edgeInc lvl) s = .next
      (if 200000 < (s.time - s.inc.lastTs).toNat ∧ lvl = false then
        { s with inc := { s.inc with pend := true, lastTs := s.time } }
      else s) ∧
    exec (.edgeDec lvl) s = .next
      (if 200000 < (s.time - s.dec.lastTs).toNat ∧ lvl = false then
        { s with dec := { s.dec with pend := true, lastTs := s.time } }
      else s)

/-- 41_led_transport R100 (TX_PUSH): a full queue stalls the transaction with no effect, otherwise the
word becomes the tail; a read of the register raises READ_WO.  That `rdata` is some value, which no rule
states, is the model's choice, log entry 5. -/
def Obligations.PushAppendsOrStalls : Prop :=
  (∀ (s : State) (w : Word), s.txq.length = s.params.txqDepth →
    ∃ d, exec (.txPush w) s = .next { s with
      reply := { ready := false, err := false, rdata := d } }) ∧
  (∀ (s : State) (w : Word), s.txq.length ≠ s.params.txqDepth →
    ∃ d, exec (.txPush w) s = .next { s with
      txq := s.txq ++ [w]
      reply := { ready := true, err := false, rdata := d } }) ∧
  (∀ d : Word, decode (.xact (packXact false 0x08#5 d)) = .error (.busError .readWo))

/-- 41_led_transport R104, 10_state R32 (TX_STAT): the fields of the value read; nothing else changes. -/
def Obligations.TxStatReadsTheQueue : Prop :=
  (∀ s : State, Inv s → ∃ v : Word,
    exec .txStat s = .next { s with reply := { ready := true, err := false, rdata := v } } ∧
    (v.getLsbD 0 = true ↔ s.txq.length = s.params.txqDepth) ∧
    (v.getLsbD 1 = true ↔ s.txq = []) ∧
    v.getLsbD 2 = s.shBusy ∧
    v.extractLsb' 3 5 = 0#5 ∧
    (v.extractLsb' 8 8).toNat = s.txq.length ∧
    v.extractLsb' 16 16 = 0#16) ∧
  (∀ d : Word, decode (.xact (packXact true 0x0C#5 d)) = .error (.busError .writeRo))

/-- FULL and EMPTY are never both 1, since a queue has a depth of 1 at least, and at a depth of 1 each
is the opposite of the other (10_state R33). -/
def Obligations.FullAndEmptyExclude : Prop :=
  ∀ s : State, Inv s → ¬ (s.full = true ∧ s.empty = true) ∧
    (s.params.txqDepth = 1 → (s.full = true ↔ s.empty = false))

/-- 42_blink R131 and R132 (BLINK_START, BLINK_NOP): bit 0 of the written data chooses; a start when
idle begins an invocation, a start when busy and a NOP change nothing.  That `rdata` is some value, which
no rule states, is the model's choice, log entry 5. -/
def Obligations.BlinkCommands : Prop :=
  (∀ s : State, s.blinkBusy = false → ∃ d, exec .blinkStart s = .next { s with
      blinkBusy := true, statusOut := true, blinkCnt := 1#4, blinkRem := 100000#17
      reply := { ready := true, err := false, rdata := d } }) ∧
  (∀ s : State, s.blinkBusy = true → ∃ d, exec .blinkStart s = .next { s with
      reply := { ready := true, err := false, rdata := d } }) ∧
  (∀ s : State, ∃ d, exec .blinkNop s = .next { s with
      reply := { ready := true, err := false, rdata := d } }) ∧
  (∀ d : Word, decode (.xact (packXact true 0x10#5 d)) =
    .ok (if d.getLsbD 0 then .blinkStart else .blinkNop))

/-- 42_blink R133, 10_state R34 (BLINK_STAT): the fields of the value read; nothing else changes. -/
def Obligations.BlinkStatReadsTheCounter : Prop :=
  ∀ s : State, ∃ v : Word,
    exec .blinkStat s = .next { s with reply := { ready := true, err := false, rdata := v } } ∧
    v.getLsbD 0 = s.blinkBusy ∧ v.getLsbD 1 = s.statusOut ∧ v.extractLsb' 2 2 = 0#2 ∧
    v.extractLsb' 4 4 = s.blinkCnt ∧ v.extractLsb' 8 24 = 0#24

/-- The frame of every operation: no operation touches TIME or its prescaler, a sample or a delay
line, the serialiser, the parameters, the host side, the trace, the stimuli or the count of draws; only
TAKE and EDGE touch a channel, only TX_PUSH the queue, only BLINK_START the blink counter, and an EDGE
answers nothing: that an EDGE run alone leaves the last answer on the port is the model's choice, log
entry 3. -/
def Obligations.OperationsKeepTheRest : Prop :=
  ∀ (i : Instr) (s t : State), exec i s = .next t →
    t.params = s.params ∧ t.time = s.time ∧ t.usDiv = s.usDiv ∧ t.shBusy = s.shBusy ∧
    t.shReg = s.shReg ∧ t.shLeft = s.shLeft ∧ t.shPhase = s.shPhase ∧ t.host = s.host ∧
    t.stim = s.stim ∧ t.trace = s.trace ∧ t.draws = s.draws ∧
    (∀ c, (t.ch c).btnPrev = (s.ch c).btnPrev ∧ (t.ch c).fallQ = (s.ch c).fallQ) ∧
    (i ≠ .takeInc → (∀ l, i ≠ .edgeInc l) → t.inc = s.inc) ∧
    (i ≠ .takeDec → (∀ l, i ≠ .edgeDec l) → t.dec = s.dec) ∧
    ((∀ l, i ≠ .edgeInc l) → (∀ l, i ≠ .edgeDec l) →
      ∀ c, (t.ch c).lastTs = (s.ch c).lastTs) ∧
    ((∀ w, i ≠ .txPush w) → t.txq = s.txq) ∧
    (i ≠ .blinkStart → t.blinkBusy = s.blinkBusy ∧ t.statusOut = s.statusOut ∧
      t.blinkCnt = s.blinkCnt ∧ t.blinkRem = s.blinkRem) ∧
    ((∃ l, i = .edgeInc l ∨ i = .edgeDec l) → t.reply = s.reply)

/-! ## The timebase -/

/-- 10_state R18, R17: at every clock edge `us_div` counts to TICKS_PER_US - 1 and returns to 0, and
TIME counts the returns, modulo 2^64; reset sets both to 0.  At the operation level (log entry 7) no step
moves `us_div`, and TIME moves only as the environment lets time pass or a hold expires. -/
def Obligations.TimeCountsTicksOnly : Prop :=
  ∀ s t : State, step s = .next t →
    let clock (p : PinIn) : Prop :=
      if p.rst = true then t.usDiv = 0 ∧ t.time = 0#64
      else if s.usDiv = s.params.ticksPerUs - 1 then t.usDiv = 0 ∧ t.time = s.time + 1#64
      else t.usDiv = s.usDiv + 1 ∧ t.time = s.time
    match s.nextStimulus with
    | .edge p => clock p
    | .traced p => clock p
    | .op _ => t.usDiv = s.usDiv ∧ t.time = s.time
    | .elapse us => t.usDiv = s.usDiv ∧ t.time = s.time + BitVec.ofNat 64 us
    | .wordDone => t.usDiv = s.usDiv ∧ t.time = s.time
    | .holdExpires => t.usDiv = s.usDiv ∧
        t.time = if s.blinkBusy = true ∧ s.blinkRem = 1#17 then s.time + 1#64 else s.time

/-! ## The buttons -/

/-- 40_button_input R85 (SAMPLE) with R81 and R83, at every clock edge without reset, whoever drives the port
and whatever the other units do: the sample, the delay line of RESAMPLE_DELAY bits, and the handling of
the edge that leaves it, and of the trace's EDGE event at this clock edge if there is one (30_encoding
R74), with TIME before the edge and the level of this edge or of the event; without an accepted edge the
flag is what a take of the same edge leaves.  That an EDGE line of a trace is handled at its clock edge
beside SAMPLE, and after a take, is the model's reading, log entry 16.  (`HANDOFF = racy` with a take: RacyDiffersInOneOutcome.) -/
def Obligations.SampleDetectsDelaysAndHandles : Prop :=
  ∀ (s : State) (p : PinIn) (c : Ch), Inv s → DigitsOk s → pinsAhead s = some p →
    p.rst = false → (s.params.handoff = .atomic ∨ p.takes c = false) →
    let k := s.ch c
    let D := s.params.resampleDelay
    let lvl := p.btn c
    let fall := k.btnPrev && !lvl
    let fire := if D = 0 then fall else k.fallQ.getD (D - 1) false
    let accepted := 200000 < (s.time - k.lastTs).toNat ∧
      (fire = true ∧ lvl = false ∨ (eventsAhead s).ch c = some false)
    ∃ t, step s = .next t ∧ (t.ch c).btnPrev = lvl ∧
      (t.ch c).fallQ = (if D = 0 then [] else fall :: k.fallQ.take (D - 1)) ∧
      (accepted → (t.ch c).pend = true ∧ (t.ch c).lastTs = s.time) ∧
      (¬ accepted → (t.ch c).pend = (k.pend && !p.takes c) ∧ (t.ch c).lastTs = k.lastTs)

/-- 40_button_input R85: each falling edge seen at edge k is handled at edge k + RESAMPLE_DELAY, and
nothing else is: whether an edge fires RESAMPLE_DELAY clock edges on is whether a falling edge is
seen now. -/
def Obligations.EachFallFiresAfterTheDelay : Prop :=
  ∀ (s : State) (c : Ch), Inv s → DigitsOk s → RunsFor s.params.resampleDelay s →
    ∃ t, runSteps s.params.resampleDelay s = .next t ∧
      edgeFires (t.ch c) (levelAhead t c) = ((s.ch c).btnPrev && !levelAhead s c)

/-- 40_button_input R83 (`HANDOFF = atomic`): a take and SAMPLE on one channel at one clock edge.  The
take yields the flag before the edge, and the flag ends 1 exactly if an edge is accepted at it. -/
def Obligations.TakeIsBeforeTheEdgeAndSetWins : Prop :=
  ∀ (s : State) (p : PinIn) (c : Ch), s.nextStimulus = .edge p → p.rst = false →
    s.host.program = [] → s.params.handoff = .atomic →
    p.sel = true → p.we = false → p.addr = (match c with | .inc => 0x00#5 | .dec => 0x04#5) →
    ∃ t, step s = .next t ∧
      t.reply = { ready := true, err := false, rdata := if (s.ch c).pend then 1#32 else 0#32 } ∧
      (t.ch c).pend = acceptsAhead s c ∧
      (t.ch c).lastTs = if acceptsAhead s c then s.time else (s.ch c).lastTs

/-- 40_button_input R83 (`HANDOFF = atomic`) at every clock edge, whoever drives the port (pins, host or
trace) and wherever the edge comes from (SAMPLE, or an EDGE line of the trace at this clock edge): a take
yields the flag before the edge, and the flag ends 1 exactly if an edge of the channel is accepted.  That an
EDGE line of a trace is handled at its clock edge beside SAMPLE, and after the take, is the model's
reading, log entry 16. -/
def Obligations.SetWinsWhoeverTakes : Prop :=
  ∀ (s : State) (p : PinIn) (c : Ch), DigitsOk s → s.nextStimulus.clockPins = some p →
    p.rst = false → s.params.handoff = .atomic → takesAhead s c = true →
    ∃ t, step s = .next t ∧
      t.reply = { ready := true, err := false, rdata := if (s.ch c).pend then 1#32 else 0#32 } ∧
      (t.ch c).pend = acceptsAhead s c ∧
      (t.ch c).lastTs = if acceptsAhead s c then s.time else (s.ch c).lastTs

/-- 40_button_input R86: `HANDOFF = racy` differs from `atomic` in one outcome only.  The same step of any
kind from the same state under the two values, whoever takes (pins, host, trace, or a word run alone) and
wherever the edge comes from (SAMPLE or an EDGE line of the trace, log entry 16), gives states that agree
in everything but the parameter and the count of draws, save that the flag of a channel that was set, is
taken and has an accepted edge at this step may be anything; its take yields 1 and its timestamp is TIME
all the same. -/
def Obligations.RacyDiffersInOneOutcome : Prop :=
  ∀ s : State, NoReserved s → DigitsOk s →
    ∃ t u, step { s with params := { s.params with handoff := .atomic } } = .next t ∧
      step { s with params := { s.params with handoff := .racy } } = .next u ∧
      ((∀ c, (takesAhead s c && (s.ch c).pend && acceptsAhead s c) = false) →
        u = { t with params := u.params, draws := u.draws }) ∧
      (∀ c, (takesAhead s c && (s.ch c).pend && acceptsAhead s c) = true →
        u.reply = { ready := true, err := false, rdata := 1#32 } ∧ (u.ch c).lastTs = s.time ∧
        ∃ b n, u = { t.setCh c { t.ch c with pend := b } with params := u.params, draws := n })

/-- 40_button_input R84: a channel's next state depends on its own state, its own line, its own takes
and the shared read-only TIME, and on nothing else of the block or the port. -/
def Obligations.ChannelsAreIndependent : Prop :=
  ∀ (c : Ch) (p q : PinIn) (s t : State), s.params = t.params → s.time = t.time →
    s.ch c = t.ch c → p.rst = q.rst → p.btn c = q.btn c → p.takes c = q.takes c →
    (s.params.handoff = .racy → s.draws = t.draws) →
    ∃ s' t', clockEdge p s = .next s' ∧ clockEdge q t = .next t' ∧ s'.ch c = t'.ch c

/-- 10_state R19, R20: over all steps of every kind, the flag is set and the timestamp is moved only
by an accepted edge of the channel (at a clock edge by SAMPLE or the trace, or as the trace word run
alone), more than 200000 us after the last, and the flag is cleared only by the TAKE of the channel, on
the port or run alone, which answers 1, or by reset.  When an EDGE line of a trace is handled is the model's
reading, log entry 16, and so are the steps run alone, log entry 7. -/
def Obligations.OnlyAcceptedEdgesSetAndOnlyTakesClear : Prop :=
  ∀ (s t : State) (c : Ch), s.params.handoff = .atomic → step s = .next t →
    resetAhead s = false →
    ((t.ch c).lastTs ≠ (s.ch c).lastTs ∨ ((s.ch c).pend = false ∧ (t.ch c).pend = true) →
      acceptsAhead s c = true ∧ 200000 < (s.time - (s.ch c).lastTs).toNat ∧
        (t.ch c).lastTs = s.time ∧ (t.ch c).pend = true) ∧
    ((s.ch c).pend = true → (t.ch c).pend = false →
      takesAhead s c = true ∧ t.reply = { ready := true, err := false, rdata := 1#32 })

/-- 40_button_input R91 with `HANDOFF = atomic`: no accepted event is lost.  An accepted edge, at a clock
edge or run alone, leaves the flag set, and a set flag stays set until a TAKE of the same channel
delivers it as a 1, or reset.  When an EDGE line of a trace is handled is the model's reading, log entry
16, and so are the steps run alone, log entry 7. -/
def Obligations.NoAcceptedEventIsLost : Prop :=
  ∀ (s : State) (c : Ch), NoReserved s → DigitsOk s → s.params.handoff = .atomic →
    resetAhead s = false →
    ∃ t, step s = .next t ∧
      (acceptsAhead s c = true → (t.ch c).pend = true) ∧
      ((s.ch c).pend = true → (t.ch c).pend = true ∨
        (takesAhead s c = true ∧ t.reply = { ready := true, err := false, rdata := 1#32 }))

/-- 40_button_input R92: after an accepted edge at time `t`, as long as no other is accepted, every
edge of the channel with `now <= t + 200000` is discarded, whatever its level and however many clock
edges have passed. -/
def Obligations.EdgesInsideTheWindowAreDiscarded : Prop :=
  ∀ (n : Nat) (s : State) (c : Ch), DigitsOk s → RunsFor (n + 1) s → acceptsAhead s c = true →
    (∀ (k : Nat) (u : State), 1 ≤ k → k ≤ n → runSteps k s = .next u → acceptsAhead u c = false) →
    ∃ t, runSteps (n + 1) s = .next t ∧
      ∀ lvl : Bool, (t.time - s.time).toNat ≤ 200000 → edgeAccepted (t.ch c) t.time lvl = false

/-- 70_reset_and_hazards R199: while TIME is at most 200000 and no edge has been accepted since
reset, no step sets the flag or moves the timestamp; an edge event with `now` = 200001 is accepted. -/
def Obligations.StartupDeadWindow : Prop :=
  (∀ (s t : State) (c : Ch), (s.ch c).lastTs = 0#64 → (s.ch c).pend = false →
    s.time.toNat ≤ 200000 → step s = .next t → (t.ch c).lastTs = 0#64 ∧ (t.ch c).pend = false) ∧
  (∀ s : State, s.inc.lastTs = 0#64 → s.time = 200001#64 →
    exec (.edgeInc false) s = .next { s with inc := { s.inc with pend := true, lastTs := 200001#64 } }) ∧
  (∀ s : State, s.dec.lastTs = 0#64 → s.time = 200001#64 →
    exec (.edgeDec false) s = .next { s with dec := { s.dec with pend := true, lastTs := 200001#64 } })

/-! ## The transport -/

/-- 41_led_transport R105 (SER_STEP) and R102, at every clock edge without reset, whoever drives the port
(pins, host or trace): when the serialiser pops, the new queue is the old one without its head, with the word of a
push that found room before the edge as its new tail. -/
def Obligations.SerialiserStepAndQueue : Prop :=
  ∀ (s : State) (p : PinIn), DigitsOk s → pinsAhead s = some p → p.rst = false →
    let pushed : List Word :=
      if p.sel = true ∧ p.we = true ∧ p.addr = 0x08#5 ∧ s.txq.length ≠ s.params.txqDepth then [p.wdata]
      else []
    ∃ t, step s = .next t ∧
      (s.shBusy = true → s.shPhase ≠ s.params.cpb - 1 →
        t.shBusy = true ∧ t.shReg = s.shReg ∧ t.shLeft = s.shLeft ∧ t.shPhase = s.shPhase + 1 ∧
        t.txq = s.txq ++ pushed) ∧
      (s.shBusy = true → s.shPhase = s.params.cpb - 1 → s.shLeft ≠ 1#5 →
        t.shBusy = true ∧ t.shReg = s.shReg <<< 1 ∧ t.shLeft = s.shLeft - 1#5 ∧ t.shPhase = 0 ∧
        t.txq = s.txq ++ pushed) ∧
      (∀ w q, (s.shBusy = true → s.shPhase = s.params.cpb - 1 ∧ s.shLeft = 1#5) → s.txq = w :: q →
        t.shBusy = true ∧ t.shReg = w ∧ t.shLeft = 24#5 ∧ t.shPhase = 0 ∧ t.txq = q ++ pushed) ∧
      (s.shBusy = true → s.shPhase = s.params.cpb - 1 → s.shLeft = 1#5 → s.txq = [] →
        t.shBusy = false ∧ t.shReg = s.shReg ∧ t.shLeft = 0#5 ∧ t.shPhase = 0 ∧ t.txq = pushed) ∧
      (s.shBusy = false → s.txq = [] →
        t.shBusy = false ∧ t.shReg = s.shReg ∧ t.shLeft = s.shLeft ∧ t.shPhase = s.shPhase ∧
        t.txq = pushed)

/-- 41_led_transport R107 with R106: a word just loaded drives `dout` for WIRE_BITS * CPB cycles with
the cells of its bits 31 down to 8, each high for TH1_CYC or TH0_CYC cycles and then low, whatever
the port, the buttons and the other units do meanwhile. -/
def Obligations.WordImageOnTheWire : Prop :=
  ∀ (s : State), Inv s → DigitsOk s → s.shBusy = true → s.shLeft = 24#5 → s.shPhase = 0 →
    RunsFor (24 * s.params.cpb) s →
    ∀ n, n < 24 * s.params.cpb →
      ∃ t, runSteps n s = .next t ∧
        dout t = decide (n % s.params.cpb <
          if s.shReg.getLsbD (31 - n / s.params.cpb) then s.params.th1Cyc else s.params.th0Cyc)

/-- The serial line is low whenever the serialiser is idle, and every cell starts high and ends low
(41_led_transport R106). -/
def Obligations.EveryCellRisesAndEndsLow : Prop :=
  ∀ s : State, Inv s →
    (s.shBusy = false → dout s = false) ∧
    (s.shBusy = true → s.shPhase = 0 → dout s = true) ∧
    (s.shPhase = s.params.cpb - 1 → dout s = false)

/-- 41_led_transport R107: bits 7:0 of a word have no effect on `dout` or on any state the host can read.
States that differ only in bits that cannot reach the wire stay so at every step, with the same `dout`
and the same answers; and so do states after pushes of words that differ in the low byte.  No rule gives
`rdata` in the cycle of a push: that it too is alike is the model's reading, log entry 5. -/
def Obligations.LowByteIsNeverSeen : Prop :=
  (∀ s s' t : State, Inv s → SameOnWire s s' → step s = .next t →
    ∃ t', step s' = .next t' ∧ SameOnWire t t' ∧ dout t = dout t' ∧ t.reply = t'.reply) ∧
  (∀ (s t : State) (w v : Word), w >>> 8 = v >>> 8 → exec (.txPush w) s = .next t →
    ∃ t', exec (.txPush v) s = .next t' ∧ SameOnWire t t' ∧ t.reply = t'.reply)

/-- 41_led_transport R103: a full queue has its head popped within WIRE_BITS * CPB + 1 clock edges, so
no TX_PUSH stalls for ever. -/
def Obligations.FullQueueIsPoppedInTime : Prop :=
  ∀ s : State, Inv s → DigitsOk s → s.txq.length = s.params.txqDepth →
    RunsFor (24 * s.params.cpb + 1) s →
    ∃ n t, 1 ≤ n ∧ n ≤ 24 * s.params.cpb + 1 ∧ runSteps n s = .next t ∧
      t.txq.length = s.params.txqDepth - 1

/-- The reference receiver of 93_implementation_defined GK5 (PRESUMED, log entry 12; no part of the
machine), at the default cell timing, reads from a word's cells its bits 31 down to 8 in that order and
shows nothing new meanwhile. -/
def Obligations.ReferenceReceiverReadsAWord : Prop :=
  ∀ (w : Word) (r : Receiver), r.high = 0 →
    let cells : List Bool :=
      (List.range 240).map fun n => decide (n % 10 < if w.getLsbD (31 - n / 10) then 6 else 3)
    (r.run Config.testParams cells).bits = r.bits ++ (List.range 24).map (fun i => w.getLsbD (31 - i)) ∧
    (r.run Config.testParams cells).leds = r.leds ∧ (r.run Config.testParams cells).high = 0

/-! ## The blink counter -/

/-- 42_blink R135: BLINK_START and BLINK_STEP at one clock edge.  If BLK was idle the start takes
effect and a tick of that edge does not count; if it was busy the edge does to BLK what it does
without the start: what it does to any state `s'` with the same block and nothing on the port.  Whoever
presents the start (pins, host program or trace line). -/
def Obligations.StartAndStepNeverMix : Prop :=
  ∀ (s s' : State) (p : PinIn), DigitsOk s → DigitsOk s' → s'.block = s.block →
    pinsAhead s = some p → pinsAhead s' = some { p with sel := false } → p.rst = false →
    p.sel = true → p.we = true → p.addr = 0x10#5 → p.wdata.getLsbD 0 = true →
    ∃ t u, step s = .next t ∧ step s' = .next u ∧
      (s.blinkBusy = false → t.blinkBusy = true ∧ t.statusOut = true ∧ t.blinkCnt = 1#4 ∧
        t.blinkRem = 100000#17) ∧
      (s.blinkBusy = true → t.blinkBusy = u.blinkBusy ∧ t.statusOut = u.statusOut ∧
        t.blinkCnt = u.blinkCnt ∧ t.blinkRem = u.blinkRem)

/-- 42_blink R134: while an invocation runs, every microsecond tick takes one from the ticks it has
left and nothing else does; at the end of a hold that is not the tenth the level changes and the
count goes up by one; when no tick is left it is over, low, with ten level changes made. -/
def Obligations.BlinkStepCountsTicks : Prop :=
  ∀ s : State, Inv s → DigitsOk s → RunsFor 1 s → s.blinkBusy = true →
    ∃ t, step s = .next t ∧
      blinkTicksLeft t = blinkTicksLeft s - (if s.usDiv = s.params.ticksPerUs - 1 then 1 else 0) ∧
      (t.blinkBusy = false ↔ blinkTicksLeft t = 0) ∧
      (t.blinkBusy = false → t.statusOut = false ∧ t.blinkCnt = 10#4) ∧
      (t.statusOut ≠ s.statusOut → t.blinkCnt = s.blinkCnt + 1#4 ∧ t.blinkRem = 100000#17) ∧
      (t.statusOut = s.statusOut → t.blinkCnt = s.blinkCnt)

/-- 42_blink R136: an invocation is over exactly at the clock edge of the last of its ticks, and not
before; from BLINK_START on an idle block it has 10 * 100000 ticks left. -/
def Obligations.InvocationEndsAtItsLastTick : Prop :=
  (∀ s t : State, s.blinkBusy = false → exec .blinkStart s = .next t →
    blinkTicksLeft t = 1000000) ∧
  (∀ s : State, Inv s → DigitsOk s → s.blinkBusy = true →
    let n := (blinkTicksLeft s - 1) * s.params.ticksPerUs + (s.params.ticksPerUs - s.usDiv)
    RunsFor n s →
    (∀ m, m < n → ∃ u, runSteps m s = .next u ∧ u.blinkBusy = true) ∧
    ∃ t, runSteps n s = .next t ∧ t.blinkBusy = false ∧ t.blinkCnt = 10#4 ∧ t.statusOut = false)

/-- 42_blink R138: over all steps of every kind, `status_out` changes only by a BLINK_START (on the port or
run alone) that found BLK idle, by BLINK_STEP at the tick of a clock edge that ends a hold (or that hold
expiring at the operation level), or by reset. -/
def Obligations.StatusOutChangesOnlyByBlk : Prop :=
  ∀ s t : State, Inv s → step s = .next t → t.statusOut ≠ s.statusOut →
    (instrAhead s = some .blinkStart ∧ s.blinkBusy = false ∧ t.blinkBusy = true ∧
      t.statusOut = true ∧ t.blinkCnt = 1#4) ∨
    (s.blinkBusy = true ∧ s.blinkRem = 1#17 ∧ t.blinkCnt = s.blinkCnt + 1#4 ∧
      (s.nextStimulus.isRunEdge = true ∧ s.usDiv = s.params.ticksPerUs - 1 ∨
        s.nextStimulus = .holdExpires)) ∨
    resetAhead s = true

/-- 42_blink R134: "At a tick with `blink_busy` = 0, and at every edge that is not a tick, BLK changes
nothing", save by a BLINK_START that finds BLK idle (R131).  An idle BLK changes at no other step of any
kind either. -/
def Obligations.BlkRestsWithoutStartAndTick : Prop :=
  ∀ s t : State, step s = .next t → resetAhead s = false →
    (s.blinkBusy = false ∧ instrAhead s ≠ some .blinkStart) ∨
      (s.blinkBusy = true ∧ s.nextStimulus.isRunEdge = true ∧ s.usDiv ≠ s.params.ticksPerUs - 1) →
    t.blinkBusy = s.blinkBusy ∧ t.statusOut = s.statusOut ∧ t.blinkCnt = s.blinkCnt ∧
      t.blinkRem = s.blinkRem

/-! ## The host side -/

/-- 43_render_and_host R150: `PACK(r, g, b) = {g, r, b, 8'h00} = (g << 24) | (r << 16) | (b << 8)`. -/
def Obligations.PackLayout : Prop :=
  ∀ c : Color,
    pack c = (c.g.setWidth 32 <<< 24) ||| (c.r.setWidth 32 <<< 16) ||| (c.b.setWidth 32 <<< 8) ∧
    pixG (pack c) = c.g ∧ pixR (pack c) = c.r ∧ pixB (pack c) = c.b ∧ pixU (pack c) = 0#8

/-- 43_render_and_host R152 and R154: a Frame is 25 words, the foreground word where the glyph is set and
the off word elsewhere, and as many foreground words as set bits when the two words differ. -/
def Obligations.RenderFollowsTheGlyph : Prop :=
  ∀ (p : Params) (d : Int) (color : Color), 0 ≤ d → d ≤ 9 →
    ∃ f, render p d color = .ok f ∧ f.length = 25 ∧
      (∀ i, i < 25 → f[i]? =
        some (if (p.glyphs.getD d.toNat 0#25).getLsbD i then pack color else 0x00000000#32)) ∧
      (pack color ≠ 0x00000000#32 → f.count (pack color) =
        (List.range 25).countP fun i => (p.glyphs.getD d.toNat 0#25).getLsbD i)

/-- 43_render_and_host R153: a digit outside 0 to 9 raises InvalidDigit and yields no Frame.  That the step
that meets it in the host program stops the machine, whatever the pins, is the model's choice, log
entry 11. -/
def Obligations.InvalidDigitIsRaised : Prop :=
  ∀ d : Int, d < 0 ∨ 9 < d →
    (∀ (p : Params) (color : Color), render p d color = .error d) ∧
    (∀ (s : State) (p : PinIn) (rest : List HostOp), s.nextStimulus.clockPins = some p →
      s.host.program = .sendGlyph d :: rest → step s = .fault (.invalidDigit d))

/-- 43_render_and_host R155, R156, R157 and R159, the iteration operation by operation: BLINK is BLINK.START
and then BLINK.STAT until bit 0 reads 0; `a` is what TAKE INC answered and `b` what TAKE DEC answered; then
one increment if `a`, one decrement if `b`, one SEND_FRAME RENDER(CurrentDigit, FG_COLOR) if either, and
the next iteration.  A read or a write of the host is over when it completes (with `err` too, the model's
choice, log entry 15), the polls of BLK and LTX when they answer as awaited, a wait when its cycles are
over (30_encoding R73).  No other operation of the host changes the digit, and so the machine runs: at each
clock edge without reset the host goes on by the answer of the port to what it presented, and no other
step but reset moves it.  That a host operation is on the port at every clock edge, and that update and
RENDER take no cycle, is the model's choice, log entry 9; that the program and `a` are state, log entry 4. -/
def Obligations.LoopUpdatesAndRenders : Prop :=
  (∀ d : Fin 10, (digitInc d).val = (d.val + 1) % 10 ∧ (digitDec d).val = (d.val + 9) % 10) ∧
  mainIteration = [.wr 0x10#5 1#32, .pollBlink, .drainInc, .drainDec] ∧
  ((HostOp.wr 0x10#5 1#32).transaction = some 0x9000000001#40 ∧
    HostOp.pollBlink.transaction = some 0x1000000000#40 ∧
    HostOp.drainInc.transaction = some 0x0000000000#40 ∧
    HostOp.drainDec.transaction = some 0x0400000000#40) ∧
  (∀ (h : HostState) (r : Reply) (a : BitVec 5) (d : Word) (rest : List HostOp),
    h.program = .wr a d :: rest ∨ h.program = .rd a :: rest →
    hostAdvance r h = if r.ready = true then { h with program := rest } else h) ∧
  (∀ (h : HostState) (r : Reply) (rest : List HostOp), h.program = .pollBlink :: rest →
    hostAdvance r h = if r.rdata.getLsbD 0 = true then h else { h with program := rest }) ∧
  (∀ (h : HostState) (r : Reply) (rest : List HostOp), h.program = .pollTx :: rest →
    hostAdvance r h =
      if r.rdata.getLsbD 1 = true ∧ r.rdata.getLsbD 2 = false then { h with program := rest } else h) ∧
  (∀ (h : HostState) (r : Reply) (n : Nat) (rest : List HostOp), h.program = .wait n :: rest →
    hostAdvance r h =
      { h with program := if n ≤ 1 then rest else .wait (n - 1) :: rest }) ∧
  (∀ (h : HostState) (r : Reply) (rest : List HostOp), h.program = .drainInc :: rest →
    hostAdvance r h = { h with tookInc := r.rdata.getLsbD 0, program := rest }) ∧
  (∀ (h : HostState) (r : Reply) (rest : List HostOp), h.program = .drainDec :: rest →
    let a := h.tookInc
    let b := r.rdata.getLsbD 0
    let d₁ := if a then digitInc h.digit else h.digit
    let d₂ := if b then digitDec d₁ else d₁
    (hostAdvance r h).digit = d₂ ∧
    (hostAdvance r h).program =
      (if a = true ∨ b = true then [HostOp.sendGlyph (Int.ofNat d₂.val)] else []) ++
        mainIteration ++ rest) ∧
  (∀ (h : HostState) (r : Reply), (hostAdvance r h).digit ≠ h.digit →
    h.program.head? = some .drainDec) ∧
  (∀ (s : State) (d : Fin 10) (f : List Word) (rest : List HostOp),
    s.host.program = .sendGlyph (Int.ofNat d.val) :: rest →
    render s.params (Int.ofNat d.val) s.params.fgColor = .ok f →
    hostPrepare s = .ok { s with host := { s.host with program := f.map (HostOp.wr 0x08#5) ++ rest } }) ∧
  (∀ (s t : State) (p : PinIn), s.nextStimulus.clockPins = some p → p.rst = false → step s = .next t →
    t.host = hostAdvance t.reply (prepared s).host ∧
    ∀ op rest v, (prepared s).host.program = op :: rest → op.transaction = some v →
      pinsAhead s = some (p.present v)) ∧
  (∀ s t : State, s.nextStimulus.clockPins = none → step s = .next t → t.host = s.host)

/-- SEND_FRAME (30_encoding R73, 20_memory R49): at a clock edge, with or without a trace, with a push at
the head of the host's program, a queue with room takes the word and the program goes on; a full queue
takes nothing and the same push is presented again.  (No cycle between them: log entry 9.) -/
def Obligations.HostPresentsAPushUntilItCompletes : Prop :=
  ∀ (s : State) (p : PinIn) (w : Word) (rest : List HostOp), s.nextStimulus.clockPins = some p →
    p.rst = false → s.host.program = .wr 0x08#5 w :: rest →
    ∃ t, step s = .next t ∧ t.reply.err = false ∧
      (s.txq.length ≠ s.params.txqDepth → t.reply.ready = true ∧ t.host.program = rest ∧
        (t.txq = s.txq ++ [w] ∨ t.txq = s.txq.tail ++ [w])) ∧
      (s.txq.length = s.params.txqDepth → t.reply.ready = false ∧
        t.host.program = s.host.program ∧ (t.txq = s.txq ∨ t.txq = s.txq.tail))

/-- 30_encoding R73, the pseudo-operations as the machine runs them.  Their expansions; a read is over at the
first clock edge and so is a write but for a push, which waits while the queue is full; BLINK's poll goes
on exactly when BLK is not busy, WAIT_TX_IDLE exactly when the queue is empty and the serialiser idle;
WAIT n presents nothing for `n` clock edges and is then over.  That an operation follows the one before
without a cycle between is the model's choice, log entry 9, and so is that one refused with `err` is over,
log entry 15. -/
def Obligations.PseudoOperationsRunAsExpanded : Prop :=
  (∀ f : List Word, sendFrame f = f.map (HostOp.wr 0x08#5)) ∧
  blinkOps = [.wr 0x10#5 1#32, .pollBlink] ∧ drainOps = [.rd 0x00#5, .rd 0x04#5] ∧
  waitTxIdle = [.pollTx] ∧ (∀ (p : Params) (n : Nat), waitUs p n = waitCycles (n * p.ticksPerUs)) ∧
  (∀ (s : State) (p : PinIn) (op : HostOp) (rest : List HostOp), s.nextStimulus.clockPins = some p →
    p.rst = false → s.host.program = op :: rest → (∀ d, op ≠ .sendGlyph d) →
    ∃ t, step s = .next t ∧
      (∀ a, op = .rd a →
        pinsAhead s = some { p with sel := true, we := false, addr := a, wdata := 0#32 } ∧
        t.host.program = rest) ∧
      (∀ a d, op = .wr a d →
        pinsAhead s = some { p with sel := true, we := true, addr := a, wdata := d } ∧
        t.host.program = if a = 0x08#5 ∧ s.txq.length = s.params.txqDepth then op :: rest else rest) ∧
      (op = .pollBlink →
        pinsAhead s = some { p with sel := true, we := false, addr := 0x10#5, wdata := 0#32 } ∧
        t.host.program = if s.blinkBusy = true then op :: rest else rest) ∧
      (op = .pollTx →
        pinsAhead s = some { p with sel := true, we := false, addr := 0x0C#5, wdata := 0#32 } ∧
        t.host.program = if s.txq = [] ∧ s.shBusy = false then rest else op :: rest)) ∧
  (∀ (s : State) (n : Nat) (rest : List HostOp), DigitsOk s → RunsFor n s →
    s.host.program = waitCycles n ++ rest →
    (∀ k, k < n → ∃ t p, runSteps k s = .next t ∧ pinsAhead t = some p ∧ p.sel = false) ∧
    ∃ t, runSteps n s = .next t ∧ t.host.program = rest)
end

