-- ==== Sys2Proof/Laws/State.lean ====
section
/-! SUPPORT. One lemma per field for each update of the state in Machine/Ops.lean, true by rfl. -/

namespace Sys2Proof

/-- `WORD_W` (00_scope R5) is the width of a packed colour word. -/
theorem word_width : Word = BitVec Config.wordW := rfl

/-- `CH_W` (00_scope R5) is the width of each channel of a colour. -/
theorem color_width : Color.r = fun c : Color => (c.r : BitVec Config.chW) := rfl

end Sys2Proof

namespace Sys2Proof.Machine

variable (s : State) (c : Ch) (k : Channel) (r : Reply) (v : Word) (b : Bool)

/-! ## answer, answerRead, answerWrite, popStim -/

@[simp] theorem State.answer_params : (s.answer r).params = s.params := rfl
@[simp] theorem State.answer_time : (s.answer r).time = s.time := rfl
@[simp] theorem State.answer_usDiv : (s.answer r).usDiv = s.usDiv := rfl
@[simp] theorem State.answer_inc : (s.answer r).inc = s.inc := rfl
@[simp] theorem State.answer_dec : (s.answer r).dec = s.dec := rfl
@[simp] theorem State.answer_txq : (s.answer r).txq = s.txq := rfl
@[simp] theorem State.answer_shBusy : (s.answer r).shBusy = s.shBusy := rfl
@[simp] theorem State.answer_shReg : (s.answer r).shReg = s.shReg := rfl
@[simp] theorem State.answer_shLeft : (s.answer r).shLeft = s.shLeft := rfl
@[simp] theorem State.answer_shPhase : (s.answer r).shPhase = s.shPhase := rfl
@[simp] theorem State.answer_blinkBusy : (s.answer r).blinkBusy = s.blinkBusy := rfl
@[simp] theorem State.answer_statusOut : (s.answer r).statusOut = s.statusOut := rfl
@[simp] theorem State.answer_blinkCnt : (s.answer r).blinkCnt = s.blinkCnt := rfl
@[simp] theorem State.answer_blinkRem : (s.answer r).blinkRem = s.blinkRem := rfl
@[simp] theorem State.answer_reply : (s.answer r).reply = r := rfl
@[simp] theorem State.answer_host : (s.answer r).host = s.host := rfl
@[simp] theorem State.answer_stim : (s.answer r).stim = s.stim := rfl
@[simp] theorem State.answer_trace : (s.answer r).trace = s.trace := rfl
@[simp] theorem State.answer_draws : (s.answer r).draws = s.draws := rfl
@[simp] theorem State.answer_ch : (s.answer r).ch c = s.ch c := by cases c <;> rfl

@[simp] theorem State.answerRead_params : (s.answerRead v).params = s.params := rfl
@[simp] theorem State.answerRead_time : (s.answerRead v).time = s.time := rfl
@[simp] theorem State.answerRead_usDiv : (s.answerRead v).usDiv = s.usDiv := rfl
@[simp] theorem State.answerRead_inc : (s.answerRead v).inc = s.inc := rfl
@[simp] theorem State.answerRead_dec : (s.answerRead v).dec = s.dec := rfl
@[simp] theorem State.answerRead_txq : (s.answerRead v).txq = s.txq := rfl
@[simp] theorem State.answerRead_shBusy : (s.answerRead v).shBusy = s.shBusy := rfl
@[simp] theorem State.answerRead_shReg : (s.answerRead v).shReg = s.shReg := rfl
@[simp] theorem State.answerRead_shLeft : (s.answerRead v).shLeft = s.shLeft := rfl
@[simp] theorem State.answerRead_shPhase : (s.answerRead v).shPhase = s.shPhase := rfl
@[simp] theorem State.answerRead_blinkBusy : (s.answerRead v).blinkBusy = s.blinkBusy := rfl
@[simp] theorem State.answerRead_statusOut : (s.answerRead v).statusOut = s.statusOut := rfl
@[simp] theorem State.answerRead_blinkCnt : (s.answerRead v).blinkCnt = s.blinkCnt := rfl
@[simp] theorem State.answerRead_blinkRem : (s.answerRead v).blinkRem = s.blinkRem := rfl
@[simp] theorem State.answerRead_reply : (s.answerRead v).reply = { ready := true, err := false, rdata := v } := rfl
@[simp] theorem State.answerRead_host : (s.answerRead v).host = s.host := rfl
@[simp] theorem State.answerRead_stim : (s.answerRead v).stim = s.stim := rfl
@[simp] theorem State.answerRead_trace : (s.answerRead v).trace = s.trace := rfl
@[simp] theorem State.answerRead_draws : (s.answerRead v).draws = s.draws := rfl
@[simp] theorem State.answerRead_ch : (s.answerRead v).ch c = s.ch c := by cases c <;> rfl

@[simp] theorem State.answerWrite_params : (s.answerWrite b v).params = s.params := rfl
@[simp] theorem State.answerWrite_time : (s.answerWrite b v).time = s.time := rfl
@[simp] theorem State.answerWrite_usDiv : (s.answerWrite b v).usDiv = s.usDiv := rfl
@[simp] theorem State.answerWrite_inc : (s.answerWrite b v).inc = s.inc := rfl
@[simp] theorem State.answerWrite_dec : (s.answerWrite b v).dec = s.dec := rfl
@[simp] theorem State.answerWrite_txq : (s.answerWrite b v).txq = s.txq := rfl
@[simp] theorem State.answerWrite_shBusy : (s.answerWrite b v).shBusy = s.shBusy := rfl
@[simp] theorem State.answerWrite_shReg : (s.answerWrite b v).shReg = s.shReg := rfl
@[simp] theorem State.answerWrite_shLeft : (s.answerWrite b v).shLeft = s.shLeft := rfl
@[simp] theorem State.answerWrite_shPhase : (s.answerWrite b v).shPhase = s.shPhase := rfl
@[simp] theorem State.answerWrite_blinkBusy : (s.answerWrite b v).blinkBusy = s.blinkBusy := rfl
@[simp] theorem State.answerWrite_statusOut : (s.answerWrite b v).statusOut = s.statusOut := rfl
@[simp] theorem State.answerWrite_blinkCnt : (s.answerWrite b v).blinkCnt = s.blinkCnt := rfl
@[simp] theorem State.answerWrite_blinkRem : (s.answerWrite b v).blinkRem = s.blinkRem := rfl
@[simp] theorem State.answerWrite_reply : (s.answerWrite b v).reply = { ready := b, err := false, rdata := v } := rfl
@[simp] theorem State.answerWrite_host : (s.answerWrite b v).host = s.host := rfl
@[simp] theorem State.answerWrite_stim : (s.answerWrite b v).stim = s.stim := rfl
@[simp] theorem State.answerWrite_trace : (s.answerWrite b v).trace = s.trace := rfl
@[simp] theorem State.answerWrite_draws : (s.answerWrite b v).draws = s.draws := rfl
@[simp] theorem State.answerWrite_ch : (s.answerWrite b v).ch c = s.ch c := by cases c <;> rfl

@[simp] theorem State.popStim_params : s.popStim.params = s.params := rfl
@[simp] theorem State.popStim_time : s.popStim.time = s.time := rfl
@[simp] theorem State.popStim_usDiv : s.popStim.usDiv = s.usDiv := rfl
@[simp] theorem State.popStim_inc : s.popStim.inc = s.inc := rfl
@[simp] theorem State.popStim_dec : s.popStim.dec = s.dec := rfl
@[simp] theorem State.popStim_txq : s.popStim.txq = s.txq := rfl
@[simp] theorem State.popStim_shBusy : s.popStim.shBusy = s.shBusy := rfl
@[simp] theorem State.popStim_shReg : s.popStim.shReg = s.shReg := rfl
@[simp] theorem State.popStim_shLeft : s.popStim.shLeft = s.shLeft := rfl
@[simp] theorem State.popStim_shPhase : s.popStim.shPhase = s.shPhase := rfl
@[simp] theorem State.popStim_blinkBusy : s.popStim.blinkBusy = s.blinkBusy := rfl
@[simp] theorem State.popStim_statusOut : s.popStim.statusOut = s.statusOut := rfl
@[simp] theorem State.popStim_blinkCnt : s.popStim.blinkCnt = s.blinkCnt := rfl
@[simp] theorem State.popStim_blinkRem : s.popStim.blinkRem = s.blinkRem := rfl
@[simp] theorem State.popStim_reply : s.popStim.reply = s.reply := rfl
@[simp] theorem State.popStim_host : s.popStim.host = s.host := rfl
@[simp] theorem State.popStim_stim : s.popStim.stim = s.stim.tail := rfl
@[simp] theorem State.popStim_trace : s.popStim.trace = s.trace := rfl
@[simp] theorem State.popStim_draws : s.popStim.draws = s.draws := rfl
@[simp] theorem State.popStim_ch : s.popStim.ch c = s.ch c := by cases c <;> rfl

/-! ## setCh -/

@[simp] theorem State.setCh_params : (s.setCh c k).params = s.params := by cases c <;> rfl
@[simp] theorem State.setCh_time : (s.setCh c k).time = s.time := by cases c <;> rfl
@[simp] theorem State.setCh_usDiv : (s.setCh c k).usDiv = s.usDiv := by cases c <;> rfl
@[simp] theorem State.setCh_txq : (s.setCh c k).txq = s.txq := by cases c <;> rfl
@[simp] theorem State.setCh_shBusy : (s.setCh c k).shBusy = s.shBusy := by cases c <;> rfl
@[simp] theorem State.setCh_shReg : (s.setCh c k).shReg = s.shReg := by cases c <;> rfl
@[simp] theorem State.setCh_shLeft : (s.setCh c k).shLeft = s.shLeft := by cases c <;> rfl
@[simp] theorem State.setCh_shPhase : (s.setCh c k).shPhase = s.shPhase := by cases c <;> rfl
@[simp] theorem State.setCh_blinkBusy : (s.setCh c k).blinkBusy = s.blinkBusy := by cases c <;> rfl
@[simp] theorem State.setCh_statusOut : (s.setCh c k).statusOut = s.statusOut := by cases c <;> rfl
@[simp] theorem State.setCh_blinkCnt : (s.setCh c k).blinkCnt = s.blinkCnt := by cases c <;> rfl
@[simp] theorem State.setCh_blinkRem : (s.setCh c k).blinkRem = s.blinkRem := by cases c <;> rfl
@[simp] theorem State.setCh_reply : (s.setCh c k).reply = s.reply := by cases c <;> rfl
@[simp] theorem State.setCh_host : (s.setCh c k).host = s.host := by cases c <;> rfl
@[simp] theorem State.setCh_stim : (s.setCh c k).stim = s.stim := by cases c <;> rfl
@[simp] theorem State.setCh_trace : (s.setCh c k).trace = s.trace := by cases c <;> rfl
@[simp] theorem State.setCh_draws : (s.setCh c k).draws = s.draws := by cases c <;> rfl
@[simp] theorem State.setCh_ch_self : (s.setCh c k).ch c = k := by cases c <;> rfl

theorem State.setCh_ch_other {c d : Ch} (h : d ≠ c) : (s.setCh c k).ch d = s.ch d := by
  cases c <;> cases d <;> first | rfl | exact absurd rfl h

theorem State.setCh_ch (d : Ch) : (s.setCh c k).ch d = if d = c then k else s.ch d := by
  cases c <;> cases d <;> rfl

@[simp] theorem State.setCh_self : s.setCh c (s.ch c) = s := by cases c <;> rfl

@[simp] theorem State.ch_inc : s.ch .inc = s.inc := rfl
@[simp] theorem State.ch_dec : s.ch .dec = s.dec := rfl
@[simp] theorem PinIn.btn_inc (p : PinIn) : p.btn .inc = p.btn0 := rfl
@[simp] theorem PinIn.btn_dec (p : PinIn) : p.btn .dec = p.btn1 := rfl

end Sys2Proof.Machine
end

