-- ==== Sys2Proof/Laws/Ops.lean ====
section
/-! SUPPORT. For each shared operation, everything it can do: taking a BusError, taking a flag,
handling an edge, reset, `andThen`. -/

namespace Sys2Proof.Machine

/-! ## andThen -/

section
variable (s : State) (f : State → Host.Outcome State Fault Refusal)

@[simp] theorem andThen_next : andThen (.next s) f = f s := rfl
@[simp] theorem andThen_fault (r : Fault) : andThen (.fault r) f = .fault r := rfl
@[simp] theorem andThen_refused (r : Refusal) : andThen (.refused r) f = .refused r := rfl

theorem andThen_eq_next {f : State → Host.Outcome State Fault Refusal}
    {o : Host.Outcome State Fault Refusal} {t : State} :
    andThen o f = .next t ↔ ∃ s, o = .next s ∧ f s = .next t := by
  cases o <;> simp

end

/-! ## edgeHandle (40_button_input R81): only the channel's flag and timestamp can change -/

section
variable (c d : Ch) (now : Stamp) (lvl : Bool) (s : State)

@[simp] theorem edgeHandle_params : (edgeHandle c now lvl s).params = s.params := by
  unfold edgeHandle; split <;> simp
@[simp] theorem edgeHandle_time : (edgeHandle c now lvl s).time = s.time := by
  unfold edgeHandle; split <;> simp
@[simp] theorem edgeHandle_usDiv : (edgeHandle c now lvl s).usDiv = s.usDiv := by
  unfold edgeHandle; split <;> simp
@[simp] theorem edgeHandle_txq : (edgeHandle c now lvl s).txq = s.txq := by
  unfold edgeHandle; split <;> simp
@[simp] theorem edgeHandle_shBusy : (edgeHandle c now lvl s).shBusy = s.shBusy := by
  unfold edgeHandle; split <;> simp
@[simp] theorem edgeHandle_shReg : (edgeHandle c now lvl s).shReg = s.shReg := by
  unfold edgeHandle; split <;> simp
@[simp] theorem edgeHandle_shLeft : (edgeHandle c now lvl s).shLeft = s.shLeft := by
  unfold edgeHandle; split <;> simp
@[simp] theorem edgeHandle_shPhase : (edgeHandle c now lvl s).shPhase = s.shPhase := by
  unfold edgeHandle; split <;> simp
@[simp] theorem edgeHandle_blinkBusy : (edgeHandle c now lvl s).blinkBusy = s.blinkBusy := by
  unfold edgeHandle; split <;> simp
@[simp] theorem edgeHandle_statusOut : (edgeHandle c now lvl s).statusOut = s.statusOut := by
  unfold edgeHandle; split <;> simp
@[simp] theorem edgeHandle_blinkCnt : (edgeHandle c now lvl s).blinkCnt = s.blinkCnt := by
  unfold edgeHandle; split <;> simp
@[simp] theorem edgeHandle_blinkRem : (edgeHandle c now lvl s).blinkRem = s.blinkRem := by
  unfold edgeHandle; split <;> simp
@[simp] theorem edgeHandle_reply : (edgeHandle c now lvl s).reply = s.reply := by
  unfold edgeHandle; split <;> simp
@[simp] theorem edgeHandle_host : (edgeHandle c now lvl s).host = s.host := by
  unfold edgeHandle; split <;> simp
@[simp] theorem edgeHandle_stim : (edgeHandle c now lvl s).stim = s.stim := by
  unfold edgeHandle; split <;> simp
@[simp] theorem edgeHandle_trace : (edgeHandle c now lvl s).trace = s.trace := by
  unfold edgeHandle; split <;> simp
@[simp] theorem edgeHandle_draws : (edgeHandle c now lvl s).draws = s.draws := by
  unfold edgeHandle; split <;> simp

theorem edgeHandle_ch_self : (edgeHandle c now lvl s).ch c =
    if edgeAccepted (s.ch c) now lvl then { s.ch c with pend := true, lastTs := now }
    else s.ch c := by
  unfold edgeHandle; split <;> simp

theorem edgeHandle_ch_other {c d : Ch} (h : d ≠ c) :
    (edgeHandle c now lvl s).ch d = s.ch d := by
  unfold edgeHandle; split
  · exact State.setCh_ch_other _ _ h
  · rfl

theorem edgeAccepted_iff (k : Channel) : edgeAccepted k now lvl = true ↔
    200000 < (now - k.lastTs).toNat ∧ lvl = false := by
  simp [edgeAccepted, Config.debounceUs, BitVec.lt_def]

end

/-! ## take (40_button_input R82): only the channel's flag and the answer change -/

section
variable (c d : Ch) (s : State)

@[simp] theorem take_params : (take c s).params = s.params := by simp [take]
@[simp] theorem take_time : (take c s).time = s.time := by simp [take]
@[simp] theorem take_usDiv : (take c s).usDiv = s.usDiv := by simp [take]
@[simp] theorem take_txq : (take c s).txq = s.txq := by simp [take]
@[simp] theorem take_shBusy : (take c s).shBusy = s.shBusy := by simp [take]
@[simp] theorem take_shReg : (take c s).shReg = s.shReg := by simp [take]
@[simp] theorem take_shLeft : (take c s).shLeft = s.shLeft := by simp [take]
@[simp] theorem take_shPhase : (take c s).shPhase = s.shPhase := by simp [take]
@[simp] theorem take_blinkBusy : (take c s).blinkBusy = s.blinkBusy := by simp [take]
@[simp] theorem take_statusOut : (take c s).statusOut = s.statusOut := by simp [take]
@[simp] theorem take_blinkCnt : (take c s).blinkCnt = s.blinkCnt := by simp [take]
@[simp] theorem take_blinkRem : (take c s).blinkRem = s.blinkRem := by simp [take]
@[simp] theorem take_host : (take c s).host = s.host := by simp [take]
@[simp] theorem take_stim : (take c s).stim = s.stim := by simp [take]
@[simp] theorem take_trace : (take c s).trace = s.trace := by simp [take]
@[simp] theorem take_draws : (take c s).draws = s.draws := by simp [take]

theorem take_ch_self : (take c s).ch c = { s.ch c with pend := false } := by simp [take]

theorem take_ch_other {c d : Ch} (h : d ≠ c) : (take c s).ch d = s.ch d := by
  simp [take, State.setCh_ch_other, h]

theorem take_reply : (take c s).reply =
    { ready := true, err := false, rdata := if (s.ch c).pend then 1#32 else 0#32 } := by
  cases h : (s.ch c).pend <;> simp [take, h]

end

/-! ## applyReset (70_reset_and_hazards R190): the block is as after reset, the rest stays -/

section
variable (c : Ch) (s : State)

@[simp] theorem applyReset_params : (applyReset s).params = s.params := rfl
@[simp] theorem applyReset_host : (applyReset s).host = s.host := rfl
@[simp] theorem applyReset_stim : (applyReset s).stim = s.stim := rfl
@[simp] theorem applyReset_trace : (applyReset s).trace = s.trace := rfl
@[simp] theorem applyReset_draws : (applyReset s).draws = s.draws := rfl
@[simp] theorem applyReset_reply : (applyReset s).reply = Reply.idle := rfl
@[simp] theorem applyReset_ch : (applyReset s).ch c = Channel.reset s.params := by cases c <;> rfl

end

/-! ## Words that are no operation -/

theorem rejectWord_eq_next {e : DecodeError} {s t : State} :
    rejectWord e s = .next t ↔ ∃ c, e = .busError c ∧ t = raiseBusError c s := by
  cases e <;> simp [rejectWord, eq_comm]

end Sys2Proof.Machine
end

