-- ==== Sys2Proof/Laws/Exec.lean ====
section
/-! SUPPORT. What an operation can do: every operation answers a next state (`exec_answers`), and
each element of the state has one lemma that says which operations can change it. -/

namespace Sys2Proof.Machine

variable {i : Instr} {s t : State}

/-- No operation faults or is refused. -/
theorem exec_answers (i : Instr) (s : State) : ∃ t, exec i s = .next t := by
  cases i <;> simp only [exec, execTakeInc, execTakeDec, execTxPush, execTxStat, execBlinkStart,
    execBlinkNop, execBlinkStat, execEdgeInc, execEdgeDec] <;> (try split) <;> exact ⟨_, rfl⟩

/-- The whole effect of an operation, case by case. -/
theorem exec_cases (h : exec i s = .next t) :
    (∃ c, (i = .takeInc ∧ c = .inc ∨ i = .takeDec ∧ c = .dec) ∧ t = take c s) ∨
    (∃ w, i = .txPush w ∧ s.full = true ∧ t = s.answerWrite false (s.pushRdata w)) ∨
    (∃ w, i = .txPush w ∧ s.full = false ∧
      t = { s with txq := s.txq ++ [w] }.answerWrite true (s.pushRdata w)) ∨
    (i = .txStat ∧ t = s.answerRead s.txStatWord) ∨
    (i = .blinkStart ∧ s.blinkBusy = false ∧
      t = { s with blinkBusy := true, statusOut := true, blinkCnt := 1#4,
                   blinkRem := Config.blinkHoldUs }.answerWrite true (s.blinkRdata i)) ∨
    ((i = .blinkStart ∧ s.blinkBusy = true ∨ i = .blinkNop) ∧ t = s.answerWrite true (s.blinkRdata i)) ∨
    (i = .blinkStat ∧ t = s.answerRead s.blinkStatWord) ∨
    (∃ c lvl, (i = .edgeInc lvl ∧ c = .inc ∨ i = .edgeDec lvl ∧ c = .dec) ∧
      t = edgeHandle c s.time lvl s) := by
  cases i with
  | takeInc => cases h; exact .inl ⟨.inc, .inl ⟨rfl, rfl⟩, rfl⟩
  | takeDec => cases h; exact .inl ⟨.dec, .inr ⟨rfl, rfl⟩, rfl⟩
  | txPush w =>
    simp only [exec, execTxPush] at h
    split at h
    · cases h; exact .inr (.inl ⟨w, rfl, ‹_›, rfl⟩)
    · cases h; exact .inr (.inr (.inl ⟨w, rfl, by simpa using ‹¬ s.full = true›, rfl⟩))
  | txStat => cases h; exact .inr (.inr (.inr (.inl ⟨rfl, rfl⟩)))
  | blinkStart =>
    simp only [exec, execBlinkStart] at h
    split at h
    · cases h; exact .inr (.inr (.inr (.inr (.inr (.inl ⟨.inl ⟨rfl, ‹_›⟩, rfl⟩)))))
    · cases h
      exact .inr (.inr (.inr (.inr (.inl ⟨rfl, by simpa using ‹¬ s.blinkBusy = true›, rfl⟩))))
  | blinkNop => cases h; exact .inr (.inr (.inr (.inr (.inr (.inl ⟨.inr rfl, rfl⟩)))))
  | blinkStat => cases h; exact .inr (.inr (.inr (.inr (.inr (.inr (.inl ⟨rfl, rfl⟩))))))
  | edgeInc lvl =>
    cases h; exact .inr (.inr (.inr (.inr (.inr (.inr (.inr ⟨.inc, lvl, .inl ⟨rfl, rfl⟩, rfl⟩))))))
  | edgeDec lvl =>
    cases h; exact .inr (.inr (.inr (.inr (.inr (.inr (.inr ⟨.dec, lvl, .inr ⟨rfl, rfl⟩, rfl⟩))))))

/-- The elements no operation changes. -/
theorem exec_frame (h : exec i s = .next t) :
    t.params = s.params ∧ t.time = s.time ∧ t.usDiv = s.usDiv ∧ t.shBusy = s.shBusy ∧
    t.shReg = s.shReg ∧ t.shLeft = s.shLeft ∧ t.shPhase = s.shPhase ∧ t.host = s.host ∧
    t.stim = s.stim ∧ ∀ c, (t.ch c).btnPrev = (s.ch c).btnPrev ∧ (t.ch c).fallQ = (s.ch c).fallQ := by
  obtain ⟨c, -, rfl⟩ | ⟨w, -, -, rfl⟩ | ⟨w, -, -, rfl⟩ | ⟨-, rfl⟩ | ⟨-, -, rfl⟩ | ⟨-, rfl⟩ | ⟨-, rfl⟩ |
    ⟨c, lvl, -, rfl⟩ := exec_cases h
  · refine ⟨by simp, by simp, by simp, by simp, by simp, by simp, by simp, by simp, by simp, ?_⟩
    intro d
    by_cases hd : d = c
    · subst hd; simp [take_ch_self]
    · simp [take_ch_other _ hd]
  · simp
  · simp; intro c; cases c <;> simp
  · simp
  · simp; intro c; cases c <;> simp
  · simp
  · simp
  · refine ⟨by simp, by simp, by simp, by simp, by simp, by simp, by simp, by simp, by simp, ?_⟩
    intro d
    by_cases hd : d = c
    · subst hd; rw [edgeHandle_ch_self]; split <;> simp
    · simp [edgeHandle_ch_other _ _ _ hd]

/-- Nor does one touch the trace or the count of draws. -/
theorem exec_keeps (h : exec i s = .next t) : t.trace = s.trace ∧ t.draws = s.draws := by
  obtain ⟨c, -, rfl⟩ | ⟨w, -, -, rfl⟩ | ⟨w, -, -, rfl⟩ | ⟨-, rfl⟩ | ⟨-, -, rfl⟩ | ⟨-, rfl⟩ | ⟨-, rfl⟩ |
    ⟨c, lvl, -, rfl⟩ := exec_cases h <;> simp

end Sys2Proof.Machine
end

