-- ==== Sys2Proof/Laws/Clock.lean ====
section
/-! SUPPORT. What the hardware's own events of a clock edge do, element by element: provers cite
these and do not unfold `hardwareEvents`. -/

namespace Sys2Proof.Machine

variable (c d : Ch) (p : PinIn) (lvl taken : Bool) (pre s : State)

/-! ## SAMPLE: only its own channel and, for a racy draw, `draws` -/

@[simp] theorem shiftSample_params : (shiftSample c lvl pre s).params = s.params := by simp [shiftSample]
@[simp] theorem shiftSample_time : (shiftSample c lvl pre s).time = s.time := by simp [shiftSample]
@[simp] theorem shiftSample_usDiv : (shiftSample c lvl pre s).usDiv = s.usDiv := by simp [shiftSample]
@[simp] theorem shiftSample_txq : (shiftSample c lvl pre s).txq = s.txq := by simp [shiftSample]
@[simp] theorem shiftSample_shBusy : (shiftSample c lvl pre s).shBusy = s.shBusy := by simp [shiftSample]
@[simp] theorem shiftSample_shReg : (shiftSample c lvl pre s).shReg = s.shReg := by simp [shiftSample]
@[simp] theorem shiftSample_shLeft : (shiftSample c lvl pre s).shLeft = s.shLeft := by simp [shiftSample]
@[simp] theorem shiftSample_shPhase : (shiftSample c lvl pre s).shPhase = s.shPhase := by simp [shiftSample]
@[simp] theorem shiftSample_blinkBusy : (shiftSample c lvl pre s).blinkBusy = s.blinkBusy := by simp [shiftSample]
@[simp] theorem shiftSample_statusOut : (shiftSample c lvl pre s).statusOut = s.statusOut := by simp [shiftSample]
@[simp] theorem shiftSample_blinkCnt : (shiftSample c lvl pre s).blinkCnt = s.blinkCnt := by simp [shiftSample]
@[simp] theorem shiftSample_blinkRem : (shiftSample c lvl pre s).blinkRem = s.blinkRem := by simp [shiftSample]
@[simp] theorem shiftSample_reply : (shiftSample c lvl pre s).reply = s.reply := by simp [shiftSample]
@[simp] theorem shiftSample_host : (shiftSample c lvl pre s).host = s.host := by simp [shiftSample]
@[simp] theorem shiftSample_stim : (shiftSample c lvl pre s).stim = s.stim := by simp [shiftSample]
@[simp] theorem shiftSample_trace : (shiftSample c lvl pre s).trace = s.trace := by simp [shiftSample]
@[simp] theorem shiftSample_draws : (shiftSample c lvl pre s).draws = s.draws := by simp [shiftSample]

@[simp] theorem shiftSample_ch_self : (shiftSample c lvl pre s).ch c =
    { s.ch c with btnPrev := lvl, fallQ := (fallLine (pre.ch c) lvl).dropLast } := by
  simp [shiftSample]

theorem shiftSample_ch_other {c d : Ch} (h : d ≠ c) :
    (shiftSample c lvl pre s).ch d = s.ch d := State.setCh_ch_other _ _ h

@[simp] theorem handoff_params : (handoff c taken lvl pre s).params = s.params := by
  unfold handoff; split <;> simp
@[simp] theorem handoff_time : (handoff c taken lvl pre s).time = s.time := by
  unfold handoff; split <;> simp
@[simp] theorem handoff_usDiv : (handoff c taken lvl pre s).usDiv = s.usDiv := by
  unfold handoff; split <;> simp
@[simp] theorem handoff_txq : (handoff c taken lvl pre s).txq = s.txq := by
  unfold handoff; split <;> simp
@[simp] theorem handoff_shBusy : (handoff c taken lvl pre s).shBusy = s.shBusy := by
  unfold handoff; split <;> simp
@[simp] theorem handoff_shReg : (handoff c taken lvl pre s).shReg = s.shReg := by
  unfold handoff; split <;> simp
@[simp] theorem handoff_shLeft : (handoff c taken lvl pre s).shLeft = s.shLeft := by
  unfold handoff; split <;> simp
@[simp] theorem handoff_shPhase : (handoff c taken lvl pre s).shPhase = s.shPhase := by
  unfold handoff; split <;> simp
@[simp] theorem handoff_blinkBusy : (handoff c taken lvl pre s).blinkBusy = s.blinkBusy := by
  unfold handoff; split <;> simp
@[simp] theorem handoff_statusOut : (handoff c taken lvl pre s).statusOut = s.statusOut := by
  unfold handoff; split <;> simp
@[simp] theorem handoff_blinkCnt : (handoff c taken lvl pre s).blinkCnt = s.blinkCnt := by
  unfold handoff; split <;> simp
@[simp] theorem handoff_blinkRem : (handoff c taken lvl pre s).blinkRem = s.blinkRem := by
  unfold handoff; split <;> simp
@[simp] theorem handoff_reply : (handoff c taken lvl pre s).reply = s.reply := by
  unfold handoff; split <;> simp
@[simp] theorem handoff_host : (handoff c taken lvl pre s).host = s.host := by
  unfold handoff; split <;> simp
@[simp] theorem handoff_stim : (handoff c taken lvl pre s).stim = s.stim := by
  unfold handoff; split <;> simp
@[simp] theorem handoff_trace : (handoff c taken lvl pre s).trace = s.trace := by
  unfold handoff; split <;> simp

theorem handoff_ch_self : (handoff c taken lvl pre s).ch c =
    { s.ch c with
      pend := if racing c taken lvl pre then Config.freeHandoff c pre.draws else (s.ch c).pend } := by
  unfold handoff; split <;> cases c <;> rfl

theorem handoff_ch_other {c d : Ch} (h : d ≠ c) :
    (handoff c taken lvl pre s).ch d = s.ch d := by
  unfold handoff; split
  · cases c <;> cases d <;> first | rfl | exact absurd rfl h
  · rfl

@[simp] theorem sampleStep_params : (sampleStep c p pre s).params = s.params := by
  unfold sampleStep; dsimp only; split <;> simp
@[simp] theorem sampleStep_time : (sampleStep c p pre s).time = s.time := by
  unfold sampleStep; dsimp only; split <;> simp
@[simp] theorem sampleStep_usDiv : (sampleStep c p pre s).usDiv = s.usDiv := by
  unfold sampleStep; dsimp only; split <;> simp
@[simp] theorem sampleStep_txq : (sampleStep c p pre s).txq = s.txq := by
  unfold sampleStep; dsimp only; split <;> simp
@[simp] theorem sampleStep_shBusy : (sampleStep c p pre s).shBusy = s.shBusy := by
  unfold sampleStep; dsimp only; split <;> simp
@[simp] theorem sampleStep_shReg : (sampleStep c p pre s).shReg = s.shReg := by
  unfold sampleStep; dsimp only; split <;> simp
@[simp] theorem sampleStep_shLeft : (sampleStep c p pre s).shLeft = s.shLeft := by
  unfold sampleStep; dsimp only; split <;> simp
@[simp] theorem sampleStep_shPhase : (sampleStep c p pre s).shPhase = s.shPhase := by
  unfold sampleStep; dsimp only; split <;> simp
@[simp] theorem sampleStep_blinkBusy : (sampleStep c p pre s).blinkBusy = s.blinkBusy := by
  unfold sampleStep; dsimp only; split <;> simp
@[simp] theorem sampleStep_statusOut : (sampleStep c p pre s).statusOut = s.statusOut := by
  unfold sampleStep; dsimp only; split <;> simp
@[simp] theorem sampleStep_blinkCnt : (sampleStep c p pre s).blinkCnt = s.blinkCnt := by
  unfold sampleStep; dsimp only; split <;> simp
@[simp] theorem sampleStep_blinkRem : (sampleStep c p pre s).blinkRem = s.blinkRem := by
  unfold sampleStep; dsimp only; split <;> simp
@[simp] theorem sampleStep_reply : (sampleStep c p pre s).reply = s.reply := by
  unfold sampleStep; dsimp only; split <;> simp
@[simp] theorem sampleStep_host : (sampleStep c p pre s).host = s.host := by
  unfold sampleStep; dsimp only; split <;> simp
@[simp] theorem sampleStep_stim : (sampleStep c p pre s).stim = s.stim := by
  unfold sampleStep; dsimp only; split <;> simp
@[simp] theorem sampleStep_trace : (sampleStep c p pre s).trace = s.trace := by
  unfold sampleStep; dsimp only; split <;> simp

theorem sampleStep_ch_other {c d : Ch} (h : d ≠ c) : (sampleStep c p pre s).ch d = s.ch d := by
  unfold sampleStep; dsimp only
  rw [handoff_ch_other _ _ _ _ h]
  split
  · rw [edgeHandle_ch_other _ _ _ h, shiftSample_ch_other _ _ _ h]
  · rw [shiftSample_ch_other _ _ _ h]

/-- The channel between SAMPLE's edge handling and the hand-off. -/
theorem sampled_ch (h : (s.ch c).lastTs = (pre.ch c).lastTs) :
    (if edgeFires (pre.ch c) lvl then
        edgeHandle c pre.time lvl (shiftSample c lvl pre s)
      else shiftSample c lvl pre s).ch c =
      { pend := edgeTaken c lvl pre || (s.ch c).pend
        lastTs := if edgeTaken c lvl pre then pre.time else (pre.ch c).lastTs
        btnPrev := lvl
        fallQ := (fallLine (pre.ch c) lvl).dropLast } := by
  have hk : edgeAccepted ((shiftSample c lvl pre s).ch c) pre.time lvl =
      edgeAccepted (pre.ch c) pre.time lvl := by simp [edgeAccepted, h]
  unfold edgeTaken
  cases edgeFires (pre.ch c) lvl with
  | false => simp [h]
  | true =>
    simp only [if_true, edgeHandle_ch_self, hk]
    cases edgeAccepted (pre.ch c) pre.time lvl <;> simp [h]

/-- The channel after SAMPLE: the sample and the delay line always, the flag and the timestamp by
an accepted edge, and the racy draw. -/
theorem sampleStep_ch_self (h : (s.ch c).lastTs = (pre.ch c).lastTs) :
    (sampleStep c p pre s).ch c =
      { pend := if racing c (p.takes c) (edgeTaken c (p.btn c) pre) pre then
                  Config.freeHandoff c pre.draws
                else edgeTaken c (p.btn c) pre || (s.ch c).pend
        lastTs := if edgeTaken c (p.btn c) pre then pre.time else (pre.ch c).lastTs
        btnPrev := p.btn c
        fallQ := (fallLine (pre.ch c) (p.btn c)).dropLast } := by
  have hk := sampled_ch c (p.btn c) pre s h
  unfold sampleStep; dsimp only
  rw [handoff_ch_self, hk]

/-! ## SER_STEP, BLINK_STEP, TICK: frames -/

@[simp] theorem serStep_params : (serStep pre s).params = s.params := by
  unfold serStep serLoad; repeat' (first | rfl | split)
@[simp] theorem serStep_time : (serStep pre s).time = s.time := by
  unfold serStep serLoad; repeat' (first | rfl | split)
@[simp] theorem serStep_usDiv : (serStep pre s).usDiv = s.usDiv := by
  unfold serStep serLoad; repeat' (first | rfl | split)
@[simp] theorem serStep_inc : (serStep pre s).inc = s.inc := by
  unfold serStep serLoad; repeat' (first | rfl | split)
@[simp] theorem serStep_dec : (serStep pre s).dec = s.dec := by
  unfold serStep serLoad; repeat' (first | rfl | split)
@[simp] theorem serStep_blinkBusy : (serStep pre s).blinkBusy = s.blinkBusy := by
  unfold serStep serLoad; repeat' (first | rfl | split)
@[simp] theorem serStep_statusOut : (serStep pre s).statusOut = s.statusOut := by
  unfold serStep serLoad; repeat' (first | rfl | split)
@[simp] theorem serStep_blinkCnt : (serStep pre s).blinkCnt = s.blinkCnt := by
  unfold serStep serLoad; repeat' (first | rfl | split)
@[simp] theorem serStep_blinkRem : (serStep pre s).blinkRem = s.blinkRem := by
  unfold serStep serLoad; repeat' (first | rfl | split)
@[simp] theorem serStep_reply : (serStep pre s).reply = s.reply := by
  unfold serStep serLoad; repeat' (first | rfl | split)
@[simp] theorem serStep_host : (serStep pre s).host = s.host := by
  unfold serStep serLoad; repeat' (first | rfl | split)
@[simp] theorem serStep_stim : (serStep pre s).stim = s.stim := by
  unfold serStep serLoad; repeat' (first | rfl | split)
@[simp] theorem serStep_trace : (serStep pre s).trace = s.trace := by
  unfold serStep serLoad; repeat' (first | rfl | split)
@[simp] theorem serStep_draws : (serStep pre s).draws = s.draws := by
  unfold serStep serLoad; repeat' (first | rfl | split)
@[simp] theorem serStep_ch : (serStep pre s).ch c = s.ch c := by cases c <;> simp

@[simp] theorem blinkStep_params : (blinkStep pre s).params = s.params := by
  unfold blinkStep blinkTick; repeat' (first | rfl | split)
@[simp] theorem blinkStep_time : (blinkStep pre s).time = s.time := by
  unfold blinkStep blinkTick; repeat' (first | rfl | split)
@[simp] theorem blinkStep_usDiv : (blinkStep pre s).usDiv = s.usDiv := by
  unfold blinkStep blinkTick; repeat' (first | rfl | split)
@[simp] theorem blinkStep_inc : (blinkStep pre s).inc = s.inc := by
  unfold blinkStep blinkTick; repeat' (first | rfl | split)
@[simp] theorem blinkStep_dec : (blinkStep pre s).dec = s.dec := by
  unfold blinkStep blinkTick; repeat' (first | rfl | split)
@[simp] theorem blinkStep_txq : (blinkStep pre s).txq = s.txq := by
  unfold blinkStep blinkTick; repeat' (first | rfl | split)
@[simp] theorem blinkStep_shBusy : (blinkStep pre s).shBusy = s.shBusy := by
  unfold blinkStep blinkTick; repeat' (first | rfl | split)
@[simp] theorem blinkStep_shReg : (blinkStep pre s).shReg = s.shReg := by
  unfold blinkStep blinkTick; repeat' (first | rfl | split)
@[simp] theorem blinkStep_shLeft : (blinkStep pre s).shLeft = s.shLeft := by
  unfold blinkStep blinkTick; repeat' (first | rfl | split)
@[simp] theorem blinkStep_shPhase : (blinkStep pre s).shPhase = s.shPhase := by
  unfold blinkStep blinkTick; repeat' (first | rfl | split)
@[simp] theorem blinkStep_reply : (blinkStep pre s).reply = s.reply := by
  unfold blinkStep blinkTick; repeat' (first | rfl | split)
@[simp] theorem blinkStep_host : (blinkStep pre s).host = s.host := by
  unfold blinkStep blinkTick; repeat' (first | rfl | split)
@[simp] theorem blinkStep_stim : (blinkStep pre s).stim = s.stim := by
  unfold blinkStep blinkTick; repeat' (first | rfl | split)
@[simp] theorem blinkStep_trace : (blinkStep pre s).trace = s.trace := by
  unfold blinkStep blinkTick; repeat' (first | rfl | split)
@[simp] theorem blinkStep_draws : (blinkStep pre s).draws = s.draws := by
  unfold blinkStep blinkTick; repeat' (first | rfl | split)
@[simp] theorem blinkStep_ch : (blinkStep pre s).ch c = s.ch c := by cases c <;> simp

@[simp] theorem tickStep_params : (tickStep pre s).params = s.params := by
  unfold tickStep; split <;> rfl
@[simp] theorem tickStep_inc : (tickStep pre s).inc = s.inc := by
  unfold tickStep; split <;> rfl
@[simp] theorem tickStep_dec : (tickStep pre s).dec = s.dec := by
  unfold tickStep; split <;> rfl
@[simp] theorem tickStep_txq : (tickStep pre s).txq = s.txq := by
  unfold tickStep; split <;> rfl
@[simp] theorem tickStep_shBusy : (tickStep pre s).shBusy = s.shBusy := by
  unfold tickStep; split <;> rfl
@[simp] theorem tickStep_shReg : (tickStep pre s).shReg = s.shReg := by
  unfold tickStep; split <;> rfl
@[simp] theorem tickStep_shLeft : (tickStep pre s).shLeft = s.shLeft := by
  unfold tickStep; split <;> rfl
@[simp] theorem tickStep_shPhase : (tickStep pre s).shPhase = s.shPhase := by
  unfold tickStep; split <;> rfl
@[simp] theorem tickStep_blinkBusy : (tickStep pre s).blinkBusy = s.blinkBusy := by
  unfold tickStep; split <;> rfl
@[simp] theorem tickStep_statusOut : (tickStep pre s).statusOut = s.statusOut := by
  unfold tickStep; split <;> rfl
@[simp] theorem tickStep_blinkCnt : (tickStep pre s).blinkCnt = s.blinkCnt := by
  unfold tickStep; split <;> rfl
@[simp] theorem tickStep_blinkRem : (tickStep pre s).blinkRem = s.blinkRem := by
  unfold tickStep; split <;> rfl
@[simp] theorem tickStep_reply : (tickStep pre s).reply = s.reply := by
  unfold tickStep; split <;> rfl
@[simp] theorem tickStep_host : (tickStep pre s).host = s.host := by
  unfold tickStep; split <;> rfl
@[simp] theorem tickStep_stim : (tickStep pre s).stim = s.stim := by
  unfold tickStep; split <;> rfl
@[simp] theorem tickStep_trace : (tickStep pre s).trace = s.trace := by
  unfold tickStep; split <;> rfl
@[simp] theorem tickStep_draws : (tickStep pre s).draws = s.draws := by
  unfold tickStep; split <;> rfl
@[simp] theorem tickStep_ch : (tickStep pre s).ch c = s.ch c := by cases c <;> simp

/-! ## SER_STEP, BLINK_STEP and TICK each read one unit and write it -/

/-- SER_STEP on a state whose transport registers are those before the edge. -/
theorem serStep_congr {pre s s' : State} (hb : s.shBusy = s'.shBusy) (hr : s.shReg = s'.shReg)
    (hl : s.shLeft = s'.shLeft) (hp : s.shPhase = s'.shPhase) :
    (serStep pre s).shBusy = (serStep pre s').shBusy ∧
    (serStep pre s).shReg = (serStep pre s').shReg ∧
    (serStep pre s).shLeft = (serStep pre s').shLeft ∧
    (serStep pre s).shPhase = (serStep pre s').shPhase := by
  unfold serStep serLoad
  split
  · split
    · split
      · split <;> simp [hr]
      · simp [hb]
    · simp [hb, hr, hl]
  · split <;> simp [hb, hr, hl, hp]

/-- The serialiser takes the head of the queue at this edge (41_led_transport R105). -/
def serPops (s : State) : Bool :=
  !s.txq.isEmpty && (!s.shBusy || (s.shPhase == s.params.cpb - 1 && s.shLeft == 1#5))

theorem serStep_txq : (serStep pre s).txq = if serPops pre then s.txq.tail else s.txq := by
  unfold serStep serLoad serPops
  split
  · split
    · split
      · split <;> simp_all
      · simp_all
    · simp_all
  · split <;> simp_all

/-! ## All events of one clock edge -/

@[simp] theorem hardwareEvents_params : (hardwareEvents p pre s).params = s.params := by
  simp [hardwareEvents]
@[simp] theorem hardwareEvents_reply : (hardwareEvents p pre s).reply = s.reply := by
  simp [hardwareEvents]
@[simp] theorem hardwareEvents_host : (hardwareEvents p pre s).host = s.host := by
  simp [hardwareEvents]
@[simp] theorem hardwareEvents_stim : (hardwareEvents p pre s).stim = s.stim := by
  simp [hardwareEvents]
@[simp] theorem hardwareEvents_trace : (hardwareEvents p pre s).trace = s.trace := by
  simp [hardwareEvents]

theorem hardwareEvents_ch_inc : (hardwareEvents p pre s).ch .inc =
    (sampleStep .inc p pre s).ch .inc := by
  simp only [hardwareEvents, tickStep_ch, blinkStep_ch, serStep_ch]
  rw [sampleStep_ch_other]; decide

theorem hardwareEvents_ch_dec : (hardwareEvents p pre s).ch .dec =
    (sampleStep .dec p pre (sampleStep .inc p pre s)).ch .dec := by
  simp only [hardwareEvents, tickStep_ch, blinkStep_ch, serStep_ch]

/-- TIME and its prescaler after a clock edge (10_state R17, R18). -/
theorem hardwareEvents_time (h : s.time = pre.time) : (hardwareEvents p pre s).time =
    if isTick pre then pre.time + 1#64 else pre.time := by
  simp only [hardwareEvents, tickStep]; split <;> simp [h]

theorem hardwareEvents_usDiv : (hardwareEvents p pre s).usDiv =
    if isTick pre then 0 else pre.usDiv + 1 := by
  simp only [hardwareEvents, tickStep]; split <;> rfl

theorem hardwareEvents_txq : (hardwareEvents p pre s).txq =
    if serPops pre then s.txq.tail else s.txq := by
  simp [hardwareEvents, serStep_txq]

theorem hardwareEvents_shBusy : (hardwareEvents p pre s).shBusy = (serStep pre s).shBusy := by
  simp only [hardwareEvents, tickStep_shBusy, blinkStep_shBusy]
  exact (serStep_congr (by simp) (by simp) (by simp) (by simp)).1
theorem hardwareEvents_shReg : (hardwareEvents p pre s).shReg = (serStep pre s).shReg := by
  simp only [hardwareEvents, tickStep_shReg, blinkStep_shReg]
  exact (serStep_congr (by simp) (by simp) (by simp) (by simp)).2.1
theorem hardwareEvents_shLeft : (hardwareEvents p pre s).shLeft = (serStep pre s).shLeft := by
  simp only [hardwareEvents, tickStep_shLeft, blinkStep_shLeft]
  exact (serStep_congr (by simp) (by simp) (by simp) (by simp)).2.2.1
theorem hardwareEvents_shPhase : (hardwareEvents p pre s).shPhase = (serStep pre s).shPhase := by
  simp only [hardwareEvents, tickStep_shPhase, blinkStep_shPhase]
  exact (serStep_congr (by simp) (by simp) (by simp) (by simp)).2.2.2

theorem hardwareEvents_blinkBusy : (hardwareEvents p pre s).blinkBusy = (blinkStep pre s).blinkBusy := by
  simp only [hardwareEvents, tickStep_blinkBusy, blinkStep, blinkTick]
  split
  · split
    · split <;> simp
    · simp
  · simp
theorem hardwareEvents_statusOut : (hardwareEvents p pre s).statusOut = (blinkStep pre s).statusOut := by
  simp only [hardwareEvents, tickStep_statusOut, blinkStep, blinkTick]
  split
  · split
    · split <;> simp
    · simp
  · simp
theorem hardwareEvents_blinkCnt : (hardwareEvents p pre s).blinkCnt = (blinkStep pre s).blinkCnt := by
  simp only [hardwareEvents, tickStep_blinkCnt, blinkStep, blinkTick]
  split
  · split
    · split <;> simp
    · simp
  · simp
theorem hardwareEvents_blinkRem : (hardwareEvents p pre s).blinkRem = (blinkStep pre s).blinkRem := by
  simp only [hardwareEvents, tickStep_blinkRem, blinkStep, blinkTick]
  split
  · split
    · split <;> simp
    · simp
  · simp

/-! ## A channel after a clock edge, whichever channel it is -/

theorem hardwareEvents_ch (h : (s.ch c).lastTs = (pre.ch c).lastTs) :
    (hardwareEvents p pre s).ch c =
      { pend := if racing c (p.takes c) (edgeTaken c (p.btn c) pre) pre then
                  Config.freeHandoff c pre.draws
                else edgeTaken c (p.btn c) pre || (s.ch c).pend
        lastTs := if edgeTaken c (p.btn c) pre then pre.time else (pre.ch c).lastTs
        btnPrev := p.btn c
        fallQ := (fallLine (pre.ch c) (p.btn c)).dropLast } := by
  cases c with
  | inc => rw [hardwareEvents_ch_inc, sampleStep_ch_self _ _ _ _ h]
  | dec =>
    have ho : ∀ q, (sampleStep .inc p q s).ch .dec = s.ch .dec :=
      fun q => sampleStep_ch_other p q s (by decide)
    rw [hardwareEvents_ch_dec, sampleStep_ch_self _ _ _ _ (by rw [ho]; exact h), ho]

/-! ## Edge events of a trace: only the channel, and `draws` by a racy hand-off -/

section
variable (ev : Option Bool) (e : Events)

@[simp] theorem handleEvent_params : (handleEvent c taken ev pre s).params = s.params := by
  unfold handleEvent; split <;> simp
@[simp] theorem handleEvent_time : (handleEvent c taken ev pre s).time = s.time := by
  unfold handleEvent; split <;> simp
@[simp] theorem handleEvent_usDiv : (handleEvent c taken ev pre s).usDiv = s.usDiv := by
  unfold handleEvent; split <;> simp
@[simp] theorem handleEvent_txq : (handleEvent c taken ev pre s).txq = s.txq := by
  unfold handleEvent; split <;> simp
@[simp] theorem handleEvent_shBusy : (handleEvent c taken ev pre s).shBusy = s.shBusy := by
  unfold handleEvent; split <;> simp
@[simp] theorem handleEvent_shReg : (handleEvent c taken ev pre s).shReg = s.shReg := by
  unfold handleEvent; split <;> simp
@[simp] theorem handleEvent_shLeft : (handleEvent c taken ev pre s).shLeft = s.shLeft := by
  unfold handleEvent; split <;> simp
@[simp] theorem handleEvent_shPhase : (handleEvent c taken ev pre s).shPhase = s.shPhase := by
  unfold handleEvent; split <;> simp
@[simp] theorem handleEvent_blinkBusy : (handleEvent c taken ev pre s).blinkBusy = s.blinkBusy := by
  unfold handleEvent; split <;> simp
@[simp] theorem handleEvent_statusOut : (handleEvent c taken ev pre s).statusOut = s.statusOut := by
  unfold handleEvent; split <;> simp
@[simp] theorem handleEvent_blinkCnt : (handleEvent c taken ev pre s).blinkCnt = s.blinkCnt := by
  unfold handleEvent; split <;> simp
@[simp] theorem handleEvent_blinkRem : (handleEvent c taken ev pre s).blinkRem = s.blinkRem := by
  unfold handleEvent; split <;> simp
@[simp] theorem handleEvent_reply : (handleEvent c taken ev pre s).reply = s.reply := by
  unfold handleEvent; split <;> simp
@[simp] theorem handleEvent_host : (handleEvent c taken ev pre s).host = s.host := by
  unfold handleEvent; split <;> simp
@[simp] theorem handleEvent_trace : (handleEvent c taken ev pre s).trace = s.trace := by
  unfold handleEvent; split <;> simp
@[simp] theorem handleEvent_stim : (handleEvent c taken ev pre s).stim = s.stim := by
  unfold handleEvent; split <;> simp
@[simp] theorem handleEvents_params : (handleEvents p e pre s).params = s.params := by simp [handleEvents]
@[simp] theorem handleEvents_time : (handleEvents p e pre s).time = s.time := by simp [handleEvents]
@[simp] theorem handleEvents_usDiv : (handleEvents p e pre s).usDiv = s.usDiv := by simp [handleEvents]
@[simp] theorem handleEvents_txq : (handleEvents p e pre s).txq = s.txq := by simp [handleEvents]
@[simp] theorem handleEvents_shBusy : (handleEvents p e pre s).shBusy = s.shBusy := by simp [handleEvents]
@[simp] theorem handleEvents_shReg : (handleEvents p e pre s).shReg = s.shReg := by simp [handleEvents]
@[simp] theorem handleEvents_shLeft : (handleEvents p e pre s).shLeft = s.shLeft := by simp [handleEvents]
@[simp] theorem handleEvents_shPhase : (handleEvents p e pre s).shPhase = s.shPhase := by simp [handleEvents]
@[simp] theorem handleEvents_blinkBusy : (handleEvents p e pre s).blinkBusy = s.blinkBusy := by simp [handleEvents]
@[simp] theorem handleEvents_statusOut : (handleEvents p e pre s).statusOut = s.statusOut := by simp [handleEvents]
@[simp] theorem handleEvents_blinkCnt : (handleEvents p e pre s).blinkCnt = s.blinkCnt := by simp [handleEvents]
@[simp] theorem handleEvents_blinkRem : (handleEvents p e pre s).blinkRem = s.blinkRem := by simp [handleEvents]
@[simp] theorem handleEvents_reply : (handleEvents p e pre s).reply = s.reply := by simp [handleEvents]
@[simp] theorem handleEvents_host : (handleEvents p e pre s).host = s.host := by simp [handleEvents]
@[simp] theorem handleEvents_trace : (handleEvents p e pre s).trace = s.trace := by simp [handleEvents]
@[simp] theorem handleEvents_stim : (handleEvents p e pre s).stim = s.stim := by simp [handleEvents]

theorem handleEvent_ch_other {c d : Ch} (h : d ≠ c) :
    (handleEvent c taken ev pre s).ch d = s.ch d := by
  unfold handleEvent; split
  · rfl
  · rw [handoff_ch_other _ _ _ _ h, edgeHandle_ch_other _ _ _ h]

end

end Sys2Proof.Machine
end

