-- ==== Sys2Proof/Laws/Decode.lean ====
section
/-! SUPPORT. What the decoder can answer, and the fields of packed words. -/

namespace Sys2Proof

section
variable (we : Bool) (a : BitVec 5) (d : Word)

@[simp] theorem xactWe_pack : xactWe (packXact we a d) = we := by
  simp only [xactWe, packXact, BitVec.getLsbD_append]
  cases we <;> simp

@[simp] theorem xactRsv_pack : xactRsv (packXact we a d) = 0#2 := by
  ext i hi
  simp only [xactRsv, packXact, BitVec.getElem_extractLsb', BitVec.getLsbD_append]
  have : i = 0 ∨ i = 1 := by omega
  obtain rfl | rfl := this <;> simp

@[simp] theorem xactAddr_pack : xactAddr (packXact we a d) = a := by
  ext i hi
  simp only [xactAddr, packXact, BitVec.getElem_extractLsb', BitVec.getLsbD_append]
  rw [if_neg (by omega), if_pos (by omega)]
  simp [BitVec.getLsbD_eq_getElem hi]

@[simp] theorem xactWdata_pack : xactWdata (packXact we a d) = d := by
  ext i hi
  simp only [xactWdata, packXact, BitVec.getElem_extractLsb', BitVec.getLsbD_append]
  rw [if_pos (by omega)]
  simp [BitVec.getLsbD_eq_getElem hi]

@[simp] theorem decode_pack : decode (.xact (packXact we a d)) = decodeAccess we a d := by
  simp [decode, decodeXact]

/-- The words whose `rsv` is 00 are the packed ones. -/
theorem pack_of_rsv {v : BitVec 40} (h : xactRsv v = 0#2) :
    packXact (xactWe v) (xactAddr v) (xactWdata v) = v := by
  have h37 : v.getLsbD 37 = false := by
    have := congrArg (fun x => x.getLsbD 0) h
    simpa [xactRsv, BitVec.getLsbD_extractLsb'] using this
  have h38 : v.getLsbD 38 = false := by
    have := congrArg (fun x => x.getLsbD 1) h
    simpa [xactRsv, BitVec.getLsbD_extractLsb'] using this
  apply BitVec.eq_of_getLsbD_eq
  intro i hi
  simp only [packXact, xactWe, xactAddr, xactWdata, BitVec.getLsbD_append,
    BitVec.getLsbD_extractLsb', BitVec.getLsbD_ofBool]
  by_cases h1 : i < 32
  · simp [h1]
  · by_cases h2 : i - 32 < 5
    · have : 32 + (i - 32) = i := by omega
      simp [h1, h2, this]
    · have h3 : i = 37 ∨ i = 38 ∨ i = 39 := by omega
      obtain rfl | rfl | rfl := h3
      · simpa using h37
      · simpa using h38
      · simp

/-- A host transaction never decodes to an edge event and never to a reserved word. -/
theorem decodeAccess_cases : (∃ c, decodeAccess we a d = .error (.busError c)) ∨
    (we = false ∧ a = 0x00#5 ∧ decodeAccess we a d = .ok .takeInc) ∨
    (we = false ∧ a = 0x04#5 ∧ decodeAccess we a d = .ok .takeDec) ∨
    (we = true ∧ a = 0x08#5 ∧ decodeAccess we a d = .ok (.txPush d)) ∨
    (we = false ∧ a = 0x0C#5 ∧ decodeAccess we a d = .ok .txStat) ∨
    (we = true ∧ a = 0x10#5 ∧ d.getLsbD 0 = true ∧ decodeAccess we a d = .ok .blinkStart) ∨
    (we = true ∧ a = 0x10#5 ∧ d.getLsbD 0 = false ∧ decodeAccess we a d = .ok .blinkNop) ∨
    (we = false ∧ a = 0x10#5 ∧ decodeAccess we a d = .ok .blinkStat) := by
  obtain ⟨n, hn, rfl⟩ : ∃ n, n < 32 ∧ a = BitVec.ofNat 5 n := ⟨a.toNat, a.isLt, by simp⟩
  interval_cases n <;> cases we <;> simp [decodeAccess]

/-- An access the block refuses is none of the legal ones. -/
theorem decodeAccess_busError {c : BusCause} (h : decodeAccess we a d = .error (.busError c)) :
    ¬ (we = false ∧ (a = 0x00#5 ∨ a = 0x04#5 ∨ a = 0x0C#5 ∨ a = 0x10#5)) ∧ ¬ (we = true ∧ (a = 0x08#5 ∨ a = 0x10#5)) := by
  constructor
  · rintro ⟨rfl, rfl | rfl | rfl | rfl⟩ <;> simp [decodeAccess] at h
  · rintro ⟨rfl, rfl | rfl⟩
    · simp [decodeAccess] at h
    · cases hd : d.getLsbD 0 <;> simp [decodeAccess] at h <;> split at h <;> simp at h

end

end Sys2Proof
end

