-- ==== Sys2Proof/Laws/OpLevel.lean ====
section
/-! SUPPORT. What the steps of the operation level that are no operation can do
(70_reset_and_hazards R211). -/

namespace Sys2Proof.Machine

variable (s : State) (us : Nat) (c : Ch)

@[simp] theorem elapse_ch : (elapse us s).ch c = s.ch c := by cases c <;> rfl

@[simp] theorem lastCycle_ch : (lastCycle s).ch c = s.ch c := by
  unfold lastCycle; split <;> cases c <;> rfl

/-- Only the queue and the serialiser. -/
theorem wordDone_frame : ∃ q b r l n,
    wordDone s = { s with txq := q, shBusy := b, shReg := r, shLeft := l, shPhase := n } := by
  unfold wordDone serStep serLoad lastCycle
  repeat' (first | exact ⟨_, _, _, _, _, rfl⟩ | split)

@[simp] theorem wordDone_ch : (wordDone s).ch c = s.ch c := by
  obtain ⟨q, b, r, l, n, h⟩ := wordDone_frame s
  rw [h]; cases c <;> rfl

/-- The three things a hold expiring can do: end the invocation, begin the next hold, or nothing. -/
theorem holdExpires_cases :
    (s.blinkBusy = true ∧ s.blinkRem = 1#17 ∧ s.blinkCnt = Config.blinkToggles ∧
      holdExpires s = { s with time := s.time + 1#64, blinkBusy := false, blinkRem := 0#17 }) ∨
    (s.blinkBusy = true ∧ s.blinkRem = 1#17 ∧ s.blinkCnt ≠ Config.blinkToggles ∧
      holdExpires s = { s with
        time := s.time + 1#64, statusOut := !s.statusOut, blinkCnt := s.blinkCnt + 1#4,
        blinkRem := Config.blinkHoldUs }) ∨
    (¬ (s.blinkBusy = true ∧ s.blinkRem = 1#17) ∧ holdExpires s = s) := by
  unfold holdExpires blinkTick
  split
  · rename_i h
    rw [if_pos h.2]
    split
    · exact .inl ⟨h.1, h.2, by assumption, rfl⟩
    · exact .inr (.inl ⟨h.1, h.2, by assumption, rfl⟩)
  · exact .inr (.inr ⟨by assumption, rfl⟩)

@[simp] theorem holdExpires_ch : (holdExpires s).ch c = s.ch c := by
  obtain ⟨-, -, -, h⟩ | ⟨-, -, -, h⟩ | ⟨-, h⟩ := holdExpires_cases s <;> rw [h] <;> cases c <;> rfl

end Sys2Proof.Machine
end

