-- ==== Sys2Proof/Laws/PerInstr.lean ====
section
/-! SUPPORT. Statements made of every instruction, one lemma per constructor (LAWS.json). -/

namespace Sys2Proof.Laws.EncodedWellFormed

/-- The canonical word of an instruction is an input of the block: `rsv` = 00 (30_encoding R62),
`rise` = 0 and `fall` = 1 (R64). -/
def Statement (i : Instr) : Prop := (encode i).wellFormed = true

/-- Every packed transaction has `rsv` = 00. -/
theorem xact_wellFormed (we : Bool) (a : BitVec 5) (d : Word) :
    (TraceWord.xact (packXact we a d)).wellFormed = true := by
  have h := xactRsv_pack we a d
  simp only [xactRsv] at h
  simp [TraceWord.wellFormed, h]

/-- Every packed event has `rise` = 0 and `fall` = 1. -/
theorem evt_wellFormed (c : Ch) (lvl : Bool) : (TraceWord.evt (packEvt c lvl)).wellFormed = true := by
  cases c <;> cases lvl <;> decide

theorem takeInc : Statement .takeInc := xact_wellFormed _ _ _
theorem takeDec : Statement .takeDec := xact_wellFormed _ _ _
theorem txPush (word : Word) : Statement (.txPush word) := xact_wellFormed _ _ _
theorem txStat : Statement .txStat := xact_wellFormed _ _ _
theorem blinkStart : Statement .blinkStart := xact_wellFormed _ _ _
theorem blinkNop : Statement .blinkNop := xact_wellFormed _ _ _
theorem blinkStat : Statement .blinkStat := xact_wellFormed _ _ _
theorem edgeInc (lvl : Bool) : Statement (.edgeInc lvl) := evt_wellFormed _ _
theorem edgeDec (lvl : Bool) : Statement (.edgeDec lvl) := evt_wellFormed _ _

end Sys2Proof.Laws.EncodedWellFormed
end

