-- ==== Sys2Proof/Laws/Trace.lean ====
section
/-! SUPPORT. What the lines of a trace do at a clock edge (30_encoding R74). -/

namespace Sys2Proof.Machine

@[simp] theorem Events.set_ch_self (e : Events) (c : Ch) (l : Bool) : (e.set c l).ch c = some l := by
  cases c <;> rfl

theorem Events.set_ch_other {c d : Ch} (e : Events) (l : Bool) (h : d ≠ c) :
    (e.set c l).ch d = e.ch d := by cases c <;> cases d <;> first | rfl | exact absurd rfl h

@[simp] theorem Due.left_ready (d : Due) : d.left true = d.rest := rfl
@[simp] theorem Due.left_stalled (d : Due) : d.left false = d.kept := rfl

/-- One line: it happens, or it is kept in its place; what has been settled stays. -/
theorem Due.add_cases (s : State) (first : Bool) (d : Due) (l : TimedLine) :
    ∃ r k, (d.add s first l).rest = d.rest ++ r ∧ (d.add s first l).kept = d.kept ++ k ∧
      r.Sublist [l] ∧ k.Sublist [l] ∧
      (d.free = false → (d.add s first l).line = d.line ∧ (d.add s first l).free = false) ∧
      (∀ c lvl, d.events.ch c = some lvl → (d.add s first l).events.ch c = some lvl) ∧
      (lineDue s first l = false → r = [l] ∧ k = [l]) := by
  unfold Due.add
  split
  · split
    · rename_i h
      rw [Bool.and_eq_true] at h
      exact ⟨[], [l], by simp, rfl, by simp, by simp, by simp [h.1], fun _ _ h => h, by simp [h.2]⟩
    · exact ⟨[l], [l], rfl, rfl, by simp, by simp, fun _ => ⟨rfl, rfl⟩, fun _ _ h => h, by simp⟩
  · rename_i e _
    split
    · rename_i h
      rw [Bool.and_eq_true] at h
      refine ⟨[], [], by simp, by simp, by simp, by simp, fun h => ⟨rfl, h⟩, ?_, by simp [h.1]⟩
      intro c lvl hc
      by_cases hce : c = evtLine e
      · subst hce; simp [hc] at h
      · exact (Events.set_ch_other _ _ hce).trans hc
    · exact ⟨[l], [l], rfl, rfl, by simp, by simp, fun h => ⟨rfl, h⟩, fun _ _ h => h, by simp⟩

/-- The lines behind the first: those that happen are taken out, the others keep their order; none
without an annotation and none whose edge has not come is among those that happen. -/
theorem Due.walk_cases (s : State) (d : Due) (ls : List TimedLine) :
    ∃ r k, (Due.walk s false d ls).rest = d.rest ++ r ∧ (Due.walk s false d ls).kept = d.kept ++ k ∧
      r.Sublist ls ∧ k.Sublist ls ∧
      (d.free = false → (Due.walk s false d ls).line = d.line) ∧
      (∀ c lvl, d.events.ch c = some lvl → (Due.walk s false d ls).events.ch c = some lvl) ∧
      (∀ m ∈ ls, lineDue s false m = false → m ∈ r ∧ m ∈ k) := by
  induction ls generalizing d with
  | nil => exact ⟨[], [], by simp [Due.walk], by simp [Due.walk], by simp, by simp, fun _ => rfl,
      fun _ _ h => h, by simp⟩
  | cons l ls ih =>
    obtain ⟨r₁, k₁, hr₁, hk₁, hs₁, ht₁, hl₁, he₁, hm₁⟩ := Due.add_cases s false d l
    obtain ⟨r₂, k₂, hr₂, hk₂, hs₂, ht₂, hl₂, he₂, hm₂⟩ := ih (d.add s false l)
    refine ⟨r₁ ++ r₂, k₁ ++ k₂, ?_, ?_, hs₁.append hs₂, ht₁.append ht₂, ?_, ?_, ?_⟩
    · rw [Due.walk, hr₂, hr₁, List.append_assoc]
    · rw [Due.walk, hk₂, hk₁, List.append_assoc]
    · exact fun h => (hl₂ (hl₁ h).2).trans (hl₁ h).1
    · exact fun c lvl h => he₂ c lvl (he₁ c lvl h)
    · intro m hm hd
      obtain rfl | hm := List.mem_cons.mp hm
      · obtain ⟨rfl, rfl⟩ := hm₁ hd; simp
      · simp [hm₂ m hm hd]

/-! ## A trace cut at one of its lines -/

/-- A line that is a transaction. -/
def isTransaction (l : TimedLine) : Bool :=
  match l.line.word with
  | .xact _ => true
  | .evt _ => false

theorem isTransaction_iff {l : TimedLine} : isTransaction l = true ↔ ∃ v, l.line.word = .xact v := by
  unfold isTransaction; split <;> simp_all

/-- The lines before a cut, then the lines behind it. -/
theorem Due.walk_append (s : State) (first : Bool) (d : Due) (b a : List TimedLine) :
    Due.walk s first d (b ++ a) = Due.walk s (first && b.isEmpty) (Due.walk s first d b) a := by
  induction b generalizing first d with
  | nil => simp [Due.walk]
  | cons l b ih => simp [Due.walk, ih]

/-- The port is free until the first transaction line. -/
theorem Due.walk_free (s : State) (first : Bool) (d : Due) (ls : List TimedLine) :
    (Due.walk s first d ls).free = (d.free && ls.all fun l => !isTransaction l) := by
  induction ls generalizing first d with
  | nil => simp [Due.walk]
  | cons l ls ih =>
    have h : (d.add s first l).free = (d.free && !isTransaction l) := by
      unfold Due.add isTransaction
      split <;> rename_i hw <;> split <;> simp [Due.keep, hw]
    rw [Due.walk, ih, h]; simp [Bool.and_assoc]

/-- While the port is free no line has taken it. -/
theorem Due.walk_line (s : State) (first : Bool) (d : Due) (ls : List TimedLine)
    (h : ls.all (fun l => !isTransaction l) = true) : (Due.walk s first d ls).line = d.line := by
  induction ls generalizing first d with
  | nil => rfl
  | cons l ls ih =>
    rw [List.all_cons, Bool.and_eq_true] at h
    have hl : (d.add s first l).line = d.line := by
      unfold Due.add
      split
      · rename_i hw; simp [isTransaction, hw] at h
      · split <;> rfl
    rw [Due.walk, ih _ _ h.2, hl]

/-- What is left of the trace, with the transaction or without it, keeps its order. -/
theorem Due.walk_sublist (s : State) (first : Bool) (d : Due) (ls : List TimedLine) :
    ∃ r k, (Due.walk s first d ls).rest = d.rest ++ r ∧ (Due.walk s first d ls).kept = d.kept ++ k ∧
      r.Sublist ls ∧ k.Sublist ls := by
  cases ls with
  | nil => exact ⟨[], [], by simp [Due.walk], by simp [Due.walk], by simp, by simp⟩
  | cons l ls =>
    obtain ⟨r₁, k₁, hr₁, hk₁, hs₁, ht₁, -⟩ := Due.add_cases s first d l
    obtain ⟨r₂, k₂, hr₂, hk₂, hs₂, ht₂, -⟩ := Due.walk_cases s (d.add s first l) ls
    exact ⟨r₁ ++ r₂, k₁ ++ k₂, by rw [Due.walk, hr₂, hr₁, List.append_assoc],
      by rw [Due.walk, hk₂, hk₁, List.append_assoc], hs₁.append hs₂, ht₁.append ht₂⟩

/-- A due EDGE line of the channel stands in the trace. -/
def HasDueEdge (s : State) (first : Bool) (c : Ch) (ls : List TimedLine) : Prop :=
  ∃ b m a lvl, ls = b ++ m :: a ∧ m.line = .edge c lvl ∧ lineDue s (first && b.isEmpty) m = true

theorem hasDueEdge_cons {s : State} {first : Bool} {c : Ch} {l : TimedLine} {ls : List TimedLine} :
    HasDueEdge s first c (l :: ls) ↔
      (∃ lvl, l.line = .edge c lvl ∧ lineDue s first l = true) ∨ HasDueEdge s false c ls := by
  constructor
  · rintro ⟨b, m, a, lvl, h, hm, hd⟩
    cases b with
    | nil => cases h; exact .inl ⟨lvl, hm, by simpa using hd⟩
    | cons x b => cases h; exact .inr ⟨b, m, a, lvl, rfl, hm, by simpa using hd⟩
  · rintro (⟨lvl, hm, hd⟩ | ⟨b, m, a, lvl, rfl, hm, hd⟩)
    · exact ⟨[], l, ls, lvl, rfl, hm, by simpa using hd⟩
    · exact ⟨l :: b, m, a, lvl, rfl, hm, by simpa using hd⟩

/-- The line of an event word is an EDGE line. -/
theorem edge_of_word {l : TraceLine} {e : BitVec 4} (h : l.word = .evt e) :
    l = .edge (evtLine e) (evtLvl e) := by
  cases l with
  | edge c lvl =>
    simp only [TraceLine.word, TraceWord.evt.injEq] at h
    subst h; cases c <;> cases lvl <;> decide
  | take c => cases c <;> simp [TraceLine.word] at h
  | _ => simp [TraceLine.word] at h

/-- One line and the events. -/
theorem Due.add_event (s : State) (first : Bool) (d : Due) (l : TimedLine) (c : Ch) :
    (d.add s first l).events.ch c = d.events.ch c ∨
      (d.events.ch c = none ∧ lineDue s first l = true ∧
        ∃ lvl, l.line = .edge c lvl ∧ (d.add s first l).events.ch c = some lvl) := by
  unfold Due.add
  split
  · split <;> exact .inl rfl
  · rename_i e he
    split
    · rename_i h
      rw [Bool.and_eq_true, Option.isNone_iff_eq_none] at h
      by_cases hc : c = evtLine e
      · subst hc
        exact .inr ⟨h.2, h.1, evtLvl e, edge_of_word he, Events.set_ch_self _ _ _⟩
      · exact .inl (Events.set_ch_other _ _ hc)
    · exact .inl rfl

/-- A due EDGE line leaves an event on its channel. -/
theorem Due.add_edge (s : State) (first : Bool) (d : Due) (l : TimedLine) {c : Ch} {lvl : Bool}
    (hl : l.line = .edge c lvl) (hd : lineDue s first l = true) :
    ((d.add s first l).events.ch c).isSome = true ∧
      (d.events.ch c = none → d.add s first l = { d with events := d.events.set c lvl }) ∧
      (d.events.ch c ≠ none → d.add s first l = d.keep l) := by
  have hw : ∃ e, l.line.word = .evt e ∧ evtLine e = c ∧ evtLvl e = lvl := by
    rw [hl]; cases c <;> cases lvl <;> exact ⟨_, rfl, by decide, by decide⟩
  obtain ⟨e, hw, rfl, rfl⟩ := hw
  unfold Due.add
  rw [hw]
  cases h : d.events.ch (evtLine e) <;> simp [hd, h, Due.keep]

/-- The events of a trace: an event comes from a due EDGE line, and a due EDGE line leaves one. -/
theorem Due.walk_events (s : State) (first : Bool) (d : Due) (ls : List TimedLine) (c : Ch) :
    (((Due.walk s first d ls).events.ch c).isSome = true ↔
      (d.events.ch c).isSome = true ∨ HasDueEdge s first c ls) ∧
    ∀ lvl, (Due.walk s first d ls).events.ch c = some lvl → d.events.ch c = some lvl ∨
      ∃ b m a, ls = b ++ m :: a ∧ m.line = .edge c lvl ∧ lineDue s (first && b.isEmpty) m = true := by
  induction ls generalizing first d with
  | nil =>
    refine ⟨⟨.inl, ?_⟩, fun _ => .inl⟩
    rintro (h | ⟨b, m, a, lvl, h, -⟩)
    · exact h
    · simp at h
  | cons l ls ih =>
    obtain ⟨h₁, h₂⟩ := ih false (d.add s first l)
    refine ⟨?_, ?_⟩
    · rw [Due.walk, h₁, hasDueEdge_cons]
      constructor
      · rintro (h | h)
        · obtain he | ⟨-, hd, lvl, hl, -⟩ := Due.add_event s first d l c
          · exact .inl (he ▸ h)
          · exact .inr (.inl ⟨lvl, hl, hd⟩)
        · exact .inr (.inr h)
      · rintro (h | ⟨lvl, hl, hd⟩ | h)
        · obtain ⟨lvl, hlvl⟩ := Option.isSome_iff_exists.mp h
          obtain ⟨-, -, -, -, -, -, -, hk, -⟩ := Due.add_cases s first d l
          exact .inl (by rw [hk c lvl hlvl]; rfl)
        · exact .inl (Due.add_edge s first d l hl hd).1
        · exact .inr h
    · intro lvl h
      rw [Due.walk] at h
      obtain h | ⟨b, m, a, rfl, hm, hd⟩ := h₂ lvl h
      · obtain he | ⟨-, hd, lvl', hl, he⟩ := Due.add_event s first d l c
        · exact .inl (he ▸ h)
        · rw [he] at h; cases h
          exact .inr ⟨[], l, ls, rfl, hl, by simpa using hd⟩
      · exact .inr ⟨l :: b, m, a, rfl, hm, by simpa using hd⟩

end Sys2Proof.Machine
end

