-- ==== Sys2Proof/Laws/Step.lean ====
section
/-! SUPPORT. What a clock edge and a step can do: the transaction of the port, `clockEdge`, the
host's part, `edgeStep`, `step`. -/

namespace Sys2Proof.Machine

/-! ## What the port presents -/

/-- The word TX_PUSH appends at this edge, if it completes one. -/
def pushedWords (p : PinIn) (s : State) : List Word :=
  if p.sel = true ∧ p.we = true ∧ p.addr = 0x08#5 ∧ s.full = false then [p.wdata] else []

/-- BLINK_START completes at this edge and finds BLK idle. -/
def startsBlink (p : PinIn) (s : State) : Bool :=
  p.sel && p.we && p.addr == 0x10#5 && p.wdata.getLsbD 0 && !s.blinkBusy

section
variable (p : PinIn) (s : State) (c : Ch)

theorem takes_inc : p.takes .inc = (p.sel && !p.we && p.addr == 0x00#5) := by
  unfold PinIn.takes PinIn.xact
  cases hs : p.sel <;> simp
  obtain ⟨c, h⟩ | ⟨hw, ha, h⟩ | ⟨hw, ha, h⟩ | ⟨hw, ha, h⟩ | ⟨hw, ha, h⟩ | ⟨hw, ha, -, h⟩ |
    ⟨hw, ha, -, h⟩ | ⟨hw, ha, h⟩ := decodeAccess_cases p.we p.addr p.wdata <;> simp [h]
  · have := (decodeAccess_busError _ _ _ h).1
    intro hw ha; exact this ⟨hw, .inl ha⟩
  all_goals simp_all

theorem takes_dec : p.takes .dec = (p.sel && !p.we && p.addr == 0x04#5) := by
  unfold PinIn.takes PinIn.xact
  cases hs : p.sel <;> simp
  obtain ⟨c, h⟩ | ⟨hw, ha, h⟩ | ⟨hw, ha, h⟩ | ⟨hw, ha, h⟩ | ⟨hw, ha, h⟩ | ⟨hw, ha, -, h⟩ |
    ⟨hw, ha, -, h⟩ | ⟨hw, ha, h⟩ := decodeAccess_cases p.we p.addr p.wdata <;> simp [h]
  · have := (decodeAccess_busError _ _ _ h).1
    intro hw ha; exact this ⟨hw, .inr (.inl ha)⟩
  all_goals simp_all

/-- What the transaction of a cycle does to the state: nothing but take a flag, append a word, start
a blink, and answer. -/
structure PortEffect (p : PinIn) (s t : State) : Prop where
  params  : t.params = s.params
  time    : t.time = s.time
  usDiv   : t.usDiv = s.usDiv
  lastTs  : ∀ c, (t.ch c).lastTs = (s.ch c).lastTs
  btnPrev : ∀ c, (t.ch c).btnPrev = (s.ch c).btnPrev
  fallQ   : ∀ c, (t.ch c).fallQ = (s.ch c).fallQ
  pend    : ∀ c, (t.ch c).pend = ((s.ch c).pend && !p.takes c)
  txq     : t.txq = s.txq ++ pushedWords p s
  shBusy  : t.shBusy = s.shBusy
  shReg   : t.shReg = s.shReg
  shLeft  : t.shLeft = s.shLeft
  shPhase : t.shPhase = s.shPhase
  host    : t.host = s.host
  trace   : t.trace = s.trace
  stim    : t.stim = s.stim
  busy    : t.blinkBusy = (startsBlink p s || s.blinkBusy)
  out     : t.statusOut = (startsBlink p s || s.statusOut)
  cnt     : t.blinkCnt = if startsBlink p s then 1#4 else s.blinkCnt
  rem     : t.blinkRem = if startsBlink p s then Config.blinkHoldUs else s.blinkRem
  taken   : ∀ c, p.takes c = true →
              t.reply = { ready := true, err := false, rdata := if (s.ch c).pend then 1#32 else 0#32 }
  noXact  : p.sel = false → t.reply = Reply.idle
  refused : ∀ c, p.sel = true → decode (.xact (packXact p.we p.addr p.wdata)) = .error (.busError c) →
              t.reply = { ready := true, err := true, rdata := 0#32 }
  ready   : p.sel = true → t.reply.ready = !(p.we && p.addr == 0x08#5 && s.full)
  txStat  : p.sel = true → p.we = false → p.addr = 0x0C#5 → t.reply.rdata = s.txStatWord
  blkStat : p.sel = true → p.we = false → p.addr = 0x10#5 → t.reply.rdata = s.blinkStatWord

/-- The transaction of a cycle always completes or stalls: the port cannot hang. -/
theorem portStep_answers : ∃ t, portStep p s = .next t ∧ PortEffect p s t := by
  have hti := takes_inc p
  have htd := takes_dec p
  unfold portStep PinIn.xact
  cases hs : p.sel with
  | false =>
    refine ⟨_, rfl, ?_⟩
    constructor <;> (try intro c) <;> (try cases c) <;>
      simp_all [pushedWords, startsBlink]
  | true =>
    simp only [if_true, runWord, decode_pack]
    obtain ⟨c, h⟩ | ⟨hw, ha, h⟩ | ⟨hw, ha, h⟩ | ⟨hw, ha, h⟩ | ⟨hw, ha, h⟩ | ⟨hw, ha, hd, h⟩ |
      ⟨hw, ha, hd, h⟩ | ⟨hw, ha, h⟩ := decodeAccess_cases p.we p.addr p.wdata <;> rw [h]
    · obtain ⟨h1, h2⟩ := decodeAccess_busError _ _ _ h
      refine ⟨_, rfl, ?_⟩
      constructor <;> (try intro c) <;> (try cases c) <;>
        simp_all [pushedWords, startsBlink, raiseBusError] <;>
        (cases hw : p.we <;> simp_all)
    · have hr := take_reply .inc s
      refine ⟨_, rfl, ?_⟩
      constructor <;> (try intro c) <;> (try cases c) <;>
        simp_all [pushedWords, startsBlink, take, State.setCh, State.ch, State.answerRead, State.answer]
    · have hr := take_reply .dec s
      refine ⟨_, rfl, ?_⟩
      constructor <;> (try intro c) <;> (try cases c) <;>
        simp_all [pushedWords, startsBlink, take, State.setCh, State.ch, State.answerRead, State.answer]
    · simp only [exec, execTxPush]
      split
      all_goals
        refine ⟨_, rfl, ?_⟩
        constructor <;> (try intro c) <;> (try cases c) <;>
          simp_all [pushedWords, startsBlink]
    · refine ⟨_, rfl, ?_⟩
      constructor <;> (try intro c) <;> (try cases c) <;>
        simp_all [pushedWords, startsBlink]
    · simp only [exec, execBlinkStart]
      split
      all_goals
        refine ⟨_, rfl, ?_⟩
        constructor <;> (try intro c) <;> (try cases c) <;>
          simp_all [pushedWords, startsBlink]
    · refine ⟨_, rfl, ?_⟩
      constructor <;> (try intro c) <;> (try cases c) <;>
        simp_all [pushedWords, startsBlink]
    · refine ⟨_, rfl, ?_⟩
      constructor <;> (try intro c) <;> (try cases c) <;>
        simp_all [pushedWords, startsBlink]

/-! ## The block alone (10_state R38) -/

/-- States with one block differ in the rest alone. -/
theorem State.block_eq {s t : State} (h : s.block = t.block) :
    t = { s with
      reply := t.reply, host := t.host, trace := t.trace, stim := t.stim, draws := t.draws } := by
  cases s; cases t; simp [State.block] at h; simp [h]

/-- What the host sees of the block: the flags, the status words, and the parameters the port may follow
(10_state R27). -/
structure SeenAlike (s t : State) : Prop where
  params : s.params.ofPort = t.params.ofPort
  full   : s.full = t.full
  pend   : ∀ c, (s.ch c).pend = (t.ch c).pend
  tx     : s.txStatWord = t.txStatWord
  blink  : s.blinkStatWord = t.blinkStatWord

/-- The answer of the port is a function of what the host sees and of the transaction. -/
theorem portStep_reply {q : PinIn} {s t : State} (h : SeenAlike s t) (hx : p.xact = q.xact) :
    ∃ u v, portStep p s = .next u ∧ portStep q t = .next v ∧ u.reply = v.reply := by
  have hw : ∀ w, s.pushRdata w = t.pushRdata w := by
    intro w; unfold State.pushRdata; rw [h.params, h.tx]
  have hb : ∀ i, s.blinkRdata i = t.blinkRdata i := by
    intro i; unfold State.blinkRdata; rw [h.params, h.blink]
  unfold portStep
  rw [← hx]
  unfold PinIn.xact
  cases p.sel with
  | false => exact ⟨_, _, rfl, rfl, rfl⟩
  | true =>
    simp only [if_true, runWord, decode_pack]
    obtain ⟨c, hd⟩ | ⟨-, -, hd⟩ | ⟨-, -, hd⟩ | ⟨-, -, hd⟩ | ⟨-, -, hd⟩ | ⟨-, -, -, hd⟩ |
      ⟨-, -, -, hd⟩ | ⟨-, -, hd⟩ := decodeAccess_cases p.we p.addr p.wdata <;> rw [hd]
    · exact ⟨_, _, rfl, rfl, rfl⟩
    · exact ⟨_, _, rfl, rfl, by simp only [take_reply, h.pend]⟩
    · exact ⟨_, _, rfl, rfl, by simp only [take_reply, h.pend]⟩
    · by_cases hf : s.full = true
      · exact ⟨_, _, if_pos hf, if_pos (h.full ▸ hf), congrArg (Reply.mk false false) (hw _)⟩
      · exact ⟨_, _, if_neg hf, if_neg (h.full ▸ hf), congrArg (Reply.mk true false) (hw _)⟩
    · exact ⟨_, _, rfl, rfl, congrArg (Reply.mk true false) h.tx⟩
    · have hr : ∀ r, ∃ u, execBlinkStart r = .next u ∧
          u.reply = Reply.mk true false (r.blinkRdata .blinkStart) := by
        intro r; unfold execBlinkStart; split <;> exact ⟨_, rfl, rfl⟩
      obtain ⟨u, hu, hru⟩ := hr s
      obtain ⟨v, hv, hrv⟩ := hr t
      exact ⟨u, v, hu, hv, by rw [hru, hrv, hb]⟩
    · exact ⟨_, _, rfl, rfl, congrArg (Reply.mk true false) (hb _)⟩
    · exact ⟨_, _, rfl, rfl, congrArg (Reply.mk true false) h.blink⟩

/-! ## A clock edge -/

/-- What a clock edge with `rst = 0`, the pins `p` and the trace's events `e` does to the block,
element by element. -/
structure EdgeEffect (p : PinIn) (e : Events) (s t : State) : Prop where
  params  : t.params = s.params
  time    : t.time = if isTick s then s.time + 1#64 else s.time
  usDiv   : t.usDiv = if isTick s then 0 else s.usDiv + 1
  lastTs  : ∀ c, (t.ch c).lastTs =
              if acceptedAt c (p.btn c) (e.ch c) s then s.time else (s.ch c).lastTs
  btnPrev : ∀ c, (t.ch c).btnPrev = p.btn c
  fallQ   : ∀ c, (t.ch c).fallQ = (fallLine (s.ch c) (p.btn c)).dropLast
  pend    : ∀ c, racing c (p.takes c) (acceptedAt c (p.btn c) (e.ch c) s) s = false →
              (t.ch c).pend =
                (acceptedAt c (p.btn c) (e.ch c) s || ((s.ch c).pend && !p.takes c))
  txq     : t.txq = (if serPops s then s.txq.tail else s.txq) ++ pushedWords p s
  shBusy  : t.shBusy = (serStep s s).shBusy
  shReg   : t.shReg = (serStep s s).shReg
  shLeft  : t.shLeft = (serStep s s).shLeft
  shPhase : t.shPhase = (serStep s s).shPhase
  busy    : t.blinkBusy = (startsBlink p s || (blinkStep s s).blinkBusy)
  out     : t.statusOut = (startsBlink p s || (blinkStep s s).statusOut)
  cnt     : t.blinkCnt = if startsBlink p s then 1#4 else (blinkStep s s).blinkCnt
  rem     : t.blinkRem = if startsBlink p s then Config.blinkHoldUs else (blinkStep s s).blinkRem
  taken   : ∀ c, p.takes c = true →
              t.reply = { ready := true, err := false, rdata := if (s.ch c).pend then 1#32 else 0#32 }
  noXact  : p.sel = false → t.reply = Reply.idle
  refused : ∀ c, p.sel = true → decode (.xact (packXact p.we p.addr p.wdata)) = .error (.busError c) →
              t.reply = { ready := true, err := true, rdata := 0#32 }
  ready   : p.sel = true → t.reply.ready = !(p.we && p.addr == 0x08#5 && s.full)
  txStat  : p.sel = true → p.we = false → p.addr = 0x0C#5 → t.reply.rdata = s.txStatWord
  blkStat : p.sel = true → p.we = false → p.addr = 0x10#5 → t.reply.rdata = s.blinkStatWord

@[simp] theorem Events.empty_ch (c : Ch) : Events.empty.ch c = none := by cases c <;> rfl

@[simp] theorem acceptedAt_none (c : Ch) (lvl : Bool) (s : State) :
    acceptedAt c lvl none s = edgeTaken c lvl s := by simp [acceptedAt]

@[simp] theorem acceptedAt_some (c : Ch) (lvl l : Bool) (s : State) :
    acceptedAt c lvl (some l) s = (edgeTaken c lvl s || edgeAccepted (s.ch c) s.time l) := rfl

theorem hardwareEvents_effect {p : PinIn} {s u : State} (hu : PortEffect p s u) :
    EdgeEffect p Events.empty s (hardwareEvents p s u) where
  params := by simp [hu.params]
  time := hardwareEvents_time _ _ _ hu.time
  usDiv := hardwareEvents_usDiv _ _ _
  lastTs c := by rw [hardwareEvents_ch c p s u (hu.lastTs c)]; simp
  btnPrev c := by rw [hardwareEvents_ch c p s u (hu.lastTs c)]
  fallQ c := by rw [hardwareEvents_ch c p s u (hu.lastTs c)]
  pend c hr := by
    rw [Events.empty_ch, acceptedAt_none] at hr ⊢
    rw [hardwareEvents_ch c p s u (hu.lastTs c)]; simp [hr, hu.pend]
  txq := by
    rw [hardwareEvents_txq, hu.txq]
    split
    · have : s.txq ≠ [] := by
        intro h; simp_all [serPops]
      rw [List.tail_append_of_ne_nil this]
    · rfl
  shBusy := by
    rw [hardwareEvents_shBusy]
    exact (serStep_congr hu.shBusy hu.shReg hu.shLeft hu.shPhase).1
  shReg := by
    rw [hardwareEvents_shReg]
    exact (serStep_congr hu.shBusy hu.shReg hu.shLeft hu.shPhase).2.1
  shLeft := by
    rw [hardwareEvents_shLeft]
    exact (serStep_congr hu.shBusy hu.shReg hu.shLeft hu.shPhase).2.2.1
  shPhase := by
    rw [hardwareEvents_shPhase]
    exact (serStep_congr hu.shBusy hu.shReg hu.shLeft hu.shPhase).2.2.2
  busy := by
    rw [hardwareEvents_blinkBusy]
    by_cases hb : isTick s && s.blinkBusy
    · have : startsBlink p s = false := by simp_all [startsBlink]
      simp only [blinkStep, blinkTick, hb, if_true, this, Bool.false_or]
      split
      · split <;> simp [hu.busy, this]
      · simp [hu.busy, this]
    · simp [blinkStep, hb, hu.busy]
  out := by
    rw [hardwareEvents_statusOut]
    by_cases hb : isTick s && s.blinkBusy
    · have : startsBlink p s = false := by simp_all [startsBlink]
      simp only [blinkStep, blinkTick, hb, if_true, this, Bool.false_or]
      split
      · split <;> simp [hu.out, this]
      · simp [hu.out, this]
    · simp [blinkStep, hb, hu.out]
  cnt := by
    rw [hardwareEvents_blinkCnt]
    by_cases hb : isTick s && s.blinkBusy
    · have : startsBlink p s = false := by simp_all [startsBlink]
      simp only [blinkStep, blinkTick, hb, if_true, this]
      split
      · split <;> simp [hu.cnt, this]
      · simp [hu.cnt, this]
    · simp [blinkStep, hb, hu.cnt]
  rem := by
    rw [hardwareEvents_blinkRem]
    by_cases hb : isTick s && s.blinkBusy
    · have : startsBlink p s = false := by simp_all [startsBlink]
      simp only [blinkStep, blinkTick, hb, if_true, this]
      split
      · split <;> simp
      · simp
    · simp [blinkStep, hb, hu.rem]
  taken c hc := by simp [hu.taken c hc]
  noXact h := by simp [hu.noXact h]
  refused c h hc := by simp [hu.refused c h hc]
  ready h := by simp [hu.ready h]
  txStat h hw ha := by simp [hu.txStat h hw ha]
  blkStat h hw ha := by simp [hu.blkStat h hw ha]

theorem clockEdge_reset (h : p.rst = true) : clockEdge p s = .next (applyReset s) := by
  simp [clockEdge, h]

/-- A clock edge always answers a next state. -/
theorem clockEdge_run (h : p.rst = false) :
    ∃ t, clockEdge p s = .next t ∧ EdgeEffect p Events.empty s t ∧ t.host = s.host ∧ t.stim = s.stim ∧
      t.trace = s.trace := by
  obtain ⟨u, hu, he⟩ := portStep_answers p s
  exact ⟨_, by simp [clockEdge, h, hu], hardwareEvents_effect he, by simp [he.host],
    by simp [he.stim], by simp [he.trace]⟩

end

/-! ## The edge events of a trace -/

/-- An edge just accepted closes the window: a second one at the same edge is not. -/
theorem not_accepted_again {k : Channel} {now : Stamp} (h : k.lastTs = now) (lvl : Bool) :
    edgeAccepted k now lvl = false := by
  simp [edgeAccepted, h, Config.debounceUs]

/-- One event, on the channel it is of. -/
theorem handleEvent_ch_self {c : Ch} {lvl taken : Bool} {ev : Option Bool} {s t u : State}
    (hl : (u.ch c).lastTs = if edgeTaken c lvl s then s.time else (s.ch c).lastTs)
    (hu : u.ch c = t.ch c) :
    ((handleEvent c taken ev s u).ch c).lastTs =
        (if acceptedAt c lvl ev s then s.time else (s.ch c).lastTs) ∧
    ((handleEvent c taken ev s u).ch c).btnPrev = (t.ch c).btnPrev ∧
    ((handleEvent c taken ev s u).ch c).fallQ = (t.ch c).fallQ ∧
    (racing c taken (acceptedAt c lvl ev s) s = false →
      ((handleEvent c taken ev s u).ch c).pend =
        ((acceptedAt c lvl ev s && !edgeTaken c lvl s) || (t.ch c).pend)) := by
  cases ev with
  | none => simp [handleEvent, ← hu, hl]
  | some l =>
    simp only [handleEvent, handoff_ch_self, edgeHandle_ch_self, acceptedAt_some]
    by_cases ht : edgeTaken c lvl s = true
    · have h := not_accepted_again (k := u.ch c) (now := s.time) (by simp [hl, ht]) l
      simp [h, ← hu, hl, ht, racing]
    · have h : edgeAccepted (u.ch c) s.time l = edgeAccepted (s.ch c) s.time l := by
        simp [edgeAccepted, hl, ht]
      simp only [Bool.not_eq_true] at ht
      simp only [h, ht, Bool.false_or]
      by_cases ha : edgeAccepted (s.ch c) s.time l = true
      · simp only [ha, if_true, Bool.true_or, Bool.not_false, Bool.and_true, true_and]
        exact ⟨by rw [hu], by rw [hu], fun hr => by simp [hr]⟩
      · simp only [Bool.not_eq_true] at ha
        simp [ha, ← hu, hl, ht, racing]

/-- The events add what `acceptedAt` says to the effect of the edge, and touch nothing else. -/
theorem handleEvents_effect {p : PinIn} {s t : State} (e : Events)
    (ht : EdgeEffect p Events.empty s t) : EdgeEffect p e s (handleEvents p e s t) := by
  have hch : ∀ c, ∃ u, u.ch c = t.ch c ∧
      (handleEvents p e s t).ch c = (handleEvent c (p.takes c) (e.ch c) s u).ch c := by
    intro c
    cases c with
    | inc => exact ⟨t, rfl, handleEvent_ch_other _ _ _ _ (by decide)⟩
    | dec => exact ⟨_, handleEvent_ch_other _ _ _ _ (by decide), rfl⟩
  have hself := fun c => by
    have h := hch c
    exact h.elim fun u hu => hu.2 ▸ handleEvent_ch_self (c := c) (lvl := p.btn c)
      (taken := p.takes c) (ev := e.ch c) (s := s) (t := t) (u := u)
      (by rw [hu.1]; simpa using ht.lastTs c) hu.1
  constructor
  · simpa using ht.params
  · simpa using ht.time
  · simpa using ht.usDiv
  · exact fun c => (hself c).1
  · exact fun c => (hself c).2.1.trans (ht.btnPrev c)
  · exact fun c => (hself c).2.2.1.trans (ht.fallQ c)
  · intro c hr
    have hbase := ht.pend c
    rw [Events.empty_ch, acceptedAt_none] at hbase
    rw [(hself c).2.2.2 hr]
    have hr' : racing c (p.takes c) (edgeTaken c (p.btn c) s) s = false := by
      cases hk : edgeTaken c (p.btn c) s
      · simp [racing]
      · have : acceptedAt c (p.btn c) (e.ch c) s = true := by simp [acceptedAt, hk]
        rw [this] at hr; exact hr
    rw [hbase hr']
    cases hk : edgeTaken c (p.btn c) s
    · simp
    · simp [acceptedAt, hk]
  · simpa using ht.txq
  · simpa using ht.shBusy
  · simpa using ht.shReg
  · simpa using ht.shLeft
  · simpa using ht.shPhase
  · simpa using ht.busy
  · simpa using ht.out
  · simpa using ht.cnt
  · simpa using ht.rem
  · simpa using ht.taken
  · simpa using ht.noXact
  · simpa using ht.refused
  · simpa using ht.ready
  · simpa using ht.txStat
  · simpa using ht.blkStat

/-- What the block does at a clock edge does not depend on the host side, the trace or the stimuli to come. -/
theorem EdgeEffect.of_rest {p : PinIn} {e : Events} {s t : State} {r : Reply} {h : HostState}
    {l : List TimedLine} {q : List Stimulus} {n : Nat}
    (he : EdgeEffect p e { s with reply := r, host := h, trace := l, stim := q, draws := n } t)
    (h' : HostState) (ls : List TimedLine) : EdgeEffect p e s { t with host := h', trace := ls } := by
  have hser : ∀ s : State,
      (serStep { s with reply := r, host := h, trace := l, stim := q, draws := n }
        { s with reply := r, host := h, trace := l, stim := q, draws := n }) =
      { serStep s s with reply := r, host := h, trace := l, stim := q, draws := n } := by
    intro s; unfold serStep serLoad; dsimp only; repeat' (first | rfl | split)
  have hbl : ∀ s : State,
      (blinkStep { s with reply := r, host := h, trace := l, stim := q, draws := n }
        { s with reply := r, host := h, trace := l, stim := q, draws := n }) =
      { blinkStep s s with reply := r, host := h, trace := l, stim := q, draws := n } := by
    intro s; unfold blinkStep blinkTick isTick; dsimp only; repeat' (first | rfl | split)
  constructor
  · exact he.params
  · exact he.time
  · exact he.usDiv
  · exact he.lastTs
  · exact he.btnPrev
  · exact he.fallQ
  · exact he.pend
  · exact he.txq
  · rw [he.shBusy, hser]
  · rw [he.shReg, hser]
  · rw [he.shLeft, hser]
  · rw [he.shPhase, hser]
  · rw [he.busy, hbl]; rfl
  · rw [he.out, hbl]; rfl
  · rw [he.cnt, hbl]; rfl
  · rw [he.rem, hbl]; rfl
  · exact he.taken
  · exact he.noXact
  · exact he.refused
  · exact he.ready
  · exact he.txStat
  · exact he.blkStat

/-- Nor on any other part of the state but the block. -/
theorem EdgeEffect.of_block {p : PinIn} {e : Events} {s s' t : State} (h : s.block = s'.block)
    (he : EdgeEffect p e s' t) : EdgeEffect p e s t := by
  rw [State.block_eq h] at he
  exact he.of_rest t.host t.trace

/-- The effect says everything: two edges on one block with the same lines, takes, pushes, starts and trace
events, and no racy draw, end in one block. -/
theorem EdgeEffect.block_unique {p q : PinIn} {e : Events} {s t u : State} (ht : EdgeEffect p e s t)
    (hu : EdgeEffect q e s u) (hb : ∀ c, p.btn c = q.btn c) (hk : ∀ c, p.takes c = q.takes c)
    (hr : ∀ c, racing c (p.takes c) (acceptedAt c (p.btn c) (e.ch c) s) s = false)
    (hw : pushedWords p s = pushedWords q s) (hs : startsBlink p s = startsBlink q s) :
    t.block = u.block := by
  have hc : ∀ c, t.ch c = u.ch c := by
    intro c
    have h1 := ht.pend c (hr c)
    have h2 := hu.pend c (hb c ▸ hk c ▸ hr c)
    rw [hb, hk, ← h2] at h1
    have h3 := (ht.lastTs c).trans (hb c ▸ (hu.lastTs c).symm)
    have h4 := (ht.btnPrev c).trans ((hb c).trans (hu.btnPrev c).symm)
    have h5 := (ht.fallQ c).trans (hb c ▸ (hu.fallQ c).symm)
    cases h6 : t.ch c; cases h7 : u.ch c; simp_all
  have hi : t.inc = u.inc := hc .inc
  have hd : t.dec = u.dec := hc .dec
  simp only [State.block, State.mk.injEq, and_true]
  refine ⟨by rw [ht.params, hu.params], by rw [ht.time, hu.time], by rw [ht.usDiv, hu.usDiv], hi, hd,
    by rw [ht.txq, hu.txq, hw], by rw [ht.shBusy, hu.shBusy], by rw [ht.shReg, hu.shReg],
    by rw [ht.shLeft, hu.shLeft], by rw [ht.shPhase, hu.shPhase], by rw [ht.busy, hu.busy, hs],
    by rw [ht.out, hu.out, hs], by rw [ht.cnt, hu.cnt, hs], by rw [ht.rem, hu.rem, hs]⟩

/-- The same, of a state named otherwise. -/
theorem EdgeEffect.of_eq {p : PinIn} {e : Events} {s s' t : State} {h : HostState}
    {q : List Stimulus} (he : EdgeEffect p e s' t) (hs : s' = { s with host := h, stim := q })
    (h' : HostState) (ls : List TimedLine) : EdgeEffect p e s { t with host := h', trace := ls } :=
  EdgeEffect.of_rest (r := s.reply) (l := s.trace) (n := s.draws) (hs ▸ he) h' ls

/-! ## The host's part and the whole step -/

/-- The host's preparation changes nothing but its program. -/
theorem hostPrepare_ok {s s' : State} (h : hostPrepare s = .ok s') :
    ∃ q, s' = { s with host := { s.host with program := q } } := by
  unfold hostPrepare at h
  split at h
  · split at h
    · simp at h
    · simp at h; exact ⟨_, h.symm⟩
  · simp at h; exact ⟨s.host.program, h ▸ rfl⟩

/-- The host's preparation fails only at a digit outside 0 to 9. -/
theorem hostPrepare_error {s : State} {d : Int} (h : hostPrepare s = .error d) :
    (d < 0 ∨ 9 < d) ∧ ∃ rest, s.host.program = .sendGlyph d :: rest := by
  unfold hostPrepare at h
  split at h
  · rename_i d' rest heq
    unfold render at h
    split at h
    · rename_i h1; split at h1 <;> simp_all; omega
    · simp at h
  · simp at h

/-- What the pins are apart from the port. -/
@[simp] theorem hostPins_rst (h : HostState) (p : PinIn) : (hostPins h p).rst = p.rst := by
  unfold hostPins PinIn.present; repeat' (first | rfl | split)

@[simp] theorem hostPins_btn (h : HostState) (p : PinIn) (c : Ch) :
    (hostPins h p).btn c = p.btn c := by
  unfold hostPins PinIn.present PinIn.btn
  cases c <;> dsimp only <;> repeat' (first | rfl | split)

theorem hostPins_idle {h : HostState} (hp : h.program = []) (p : PinIn) : hostPins h p = p := by
  simp [hostPins, hp]

@[simp] theorem duePins_rst (d : Due) (p : PinIn) : (d.pins p).rst = p.rst := by
  unfold Due.pins PinIn.present; repeat' (first | rfl | split)

@[simp] theorem duePins_btn (d : Due) (p : PinIn) (c : Ch) : (d.pins p).btn c = p.btn c := by
  unfold Due.pins PinIn.present PinIn.btn
  cases c <;> dsimp only <;> repeat' (first | rfl | split)

theorem prepared_eq {s s' : State} (hs : hostPrepare s.popStim = .ok s') : prepared s = s' := by
  simp [prepared, hs]

/-- The pins the block sees differ from the stimulus only at the port. -/
theorem pinsAhead_eq {s : State} {p : PinIn} (hp : s.nextStimulus.clockPins = some p) :
    ∃ p', pinsAhead s = some p' ∧ p'.rst = p.rst ∧ ∀ c, p'.btn c = p.btn c := by
  unfold pinsAhead
  cases hs : s.nextStimulus <;> simp_all [Stimulus.clockPins]

/-- The block sees pins at a clock edge only. -/
theorem clockPins_of_pinsAhead {s : State} {p : PinIn} (h : pinsAhead s = some p) :
    ∃ q, s.nextStimulus.clockPins = some q ∧ q.rst = p.rst ∧ ∀ c, q.btn c = p.btn c := by
  unfold pinsAhead at h
  cases hn : s.nextStimulus <;> simp only [hn, Option.some.injEq, reduceCtorEq] at h <;> subst h
  · exact ⟨_, rfl, by simp, by simp⟩
  · exact ⟨_, rfl, by simp, by simp⟩

/-- What the model calls due is what the statements do. -/
theorem lineDue_iff_dueLine (s : State) (before : List TimedLine) (l : TimedLine) :
    lineDue s.popStim before.isEmpty l = true ↔ dueLine s before l := by
  unfold lineDue dueLine
  cases l.whenAt with
  | none => simp
  | some w => cases w <;> exact decide_eq_true_iff

/-- At a clock edge without reset the word presented is that of the port's wires. -/
theorem wordAhead_clock {s : State} {p p' : PinIn} (hp : s.nextStimulus.clockPins = some p)
    (hp' : pinsAhead s = some p') (hr : p'.rst = false) : wordAhead s = p'.xact := by
  unfold wordAhead
  cases hn : s.nextStimulus <;> simp [hn, Stimulus.clockPins] at hp <;> simp [hp', hr]

/-- What the port takes at a clock edge is the TAKE the step runs. -/
theorem takesAhead_clock {s : State} {p p' : PinIn} (hp : s.nextStimulus.clockPins = some p)
    (hp' : pinsAhead s = some p') (hr : p'.rst = false) (c : Ch) : takesAhead s c = p'.takes c := by
  unfold takesAhead instrAhead PinIn.takes
  rw [wordAhead_clock hp hp' hr]
  cases p'.xact with
  | none => rfl
  | some w =>
    dsimp only
    cases decode w with
    | error e => rfl
    | ok i => cases i <;> cases c <;> rfl

/-- The start the port presents to an idle BLK is the BLINK_START the step runs. -/
theorem startsBlink_clock {s : State} {p p' : PinIn} (hp : s.nextStimulus.clockPins = some p)
    (hp' : pinsAhead s = some p') (hr : p'.rst = false) :
    startsBlink p' s = (instrAhead s == some .blinkStart && !s.blinkBusy) := by
  unfold startsBlink instrAhead
  rw [wordAhead_clock hp hp' hr]
  unfold PinIn.xact
  cases p'.sel with
  | false => simp
  | true =>
    simp only [if_true, decode_pack]
    obtain ⟨c, h⟩ | ⟨hw, ha, h⟩ | ⟨hw, ha, h⟩ | ⟨hw, ha, h⟩ | ⟨hw, ha, h⟩ | ⟨hw, ha, hd, h⟩ |
      ⟨hw, ha, hd, h⟩ | ⟨hw, ha, h⟩ := decodeAccess_cases p'.we p'.addr p'.wdata <;> rw [h] <;>
      simp_all
    have := decodeAccess_busError _ _ _ h
    simp_all

/-! ## The step at a clock edge, with or without a trace -/

/-- With reset: the block is as after reset, and the host is reset with it. -/
theorem step_clock_reset {s s' : State} {p : PinIn} (hp : s.nextStimulus.clockPins = some p)
    (hs : hostPrepare s.popStim = .ok s') (hr : p.rst = true) :
    step s = .next { applyReset s.popStim with host := hostReset s'.host } := by
  obtain ⟨q, rfl⟩ := hostPrepare_ok hs
  unfold step
  cases hn : s.nextStimulus <;> simp only [hn, Stimulus.clockPins, Option.some.injEq, reduceCtorEq] at hp
  · subst hp
    simp only [edgeStep, hs]
    rw [clockEdge_reset _ _ (by simpa using hr)]
    simp only [andThen_next, hostNext, hr, if_true]
    rfl
  · subst hp
    simp only [tracedStep, hs]
    rw [clockEdge_reset _ _ (by simpa using hr)]
    simp only [andThen_next, hostNext, hr, if_true]
    rfl

/-- Without reset: the block makes its edge on the pins it sees, with the trace's events; the stimulus
is consumed and the host reads the answer. -/
theorem step_clock_run {s s' : State} {p : PinIn} (hp : s.nextStimulus.clockPins = some p)
    (hs : hostPrepare s.popStim = .ok s') (hr : p.rst = false) :
    ∃ p' t, pinsAhead s = some p' ∧ p'.rst = false ∧ (∀ c, p'.btn c = p.btn c) ∧ step s = .next t ∧
      EdgeEffect p' (eventsAhead s) s t ∧ t.stim = s.stim.tail ∧
      t.host = hostAdvance t.reply s'.host := by
  have hprep := prepared_eq hs
  obtain ⟨q, hq⟩ := hostPrepare_ok hs
  have hs' : s' = { s with host := { s.host with program := q }, stim := s.stim.tail } := hq
  unfold step pinsAhead eventsAhead
  rw [hprep]
  cases hn : s.nextStimulus <;> simp only [hn, Stimulus.clockPins, Option.some.injEq, reduceCtorEq] at hp
  · subst hp
    rename_i p
    obtain ⟨u, hu, he, hh, hst, -⟩ := clockEdge_run (hostPins s'.host p) s' (by simpa using hr)
    refine ⟨_, { u with host := hostAdvance u.reply u.host }, rfl, by simpa using hr, by simp, ?_,
      he.of_eq hs' _ _, by simp [hst, hs'], by simp [hh]⟩
    simp only [edgeStep, hs, hu, andThen_next, hostNext, hr, Bool.false_eq_true, if_false]
  · subst hp
    rename_i p
    obtain ⟨u, hu, he, hh, hst, -⟩ :=
      clockEdge_run (hostPins s'.host ((traceDue s').pins p)) s' (by simpa using hr)
    refine ⟨_, { handleEvents (hostPins s'.host ((traceDue s').pins p)) (traceDue s').events s' u with
        trace := (traceDue s').left u.reply.ready, host := hostAdvance u.reply u.host },
      rfl, by simpa using hr, by simp, ?_, (handleEvents_effect _ he).of_eq hs' _ _,
      by simp [hst, hs'], by simp [hh]⟩
    simp [tracedStep, hs, hu, hr, hostNext]

/-- An impossible digit stops it. -/
theorem step_clock_error {s : State} {p : PinIn} {d : Int}
    (hp : s.nextStimulus.clockPins = some p) (hs : hostPrepare s.popStim = .error d) :
    step s = .fault (.invalidDigit d) := by
  unfold step
  cases hn : s.nextStimulus <;>
    simp only [hn, Stimulus.clockPins, reduceCtorEq] at hp <;>
    simp only [edgeStep, tracedStep, hs]

/-- Everything one step of the machine can do: a reset edge, a clock edge, an operation alone or its
BusError, and the other three steps of the operation level. -/
theorem step_effect {s t : State} (h : step s = .next t) :
    (∃ p, s.nextStimulus.clockPins = some p ∧ p.rst = true ∧
      t = { applyReset s.popStim with host := hostReset (prepared s).host }) ∨
    (∃ p p', s.nextStimulus.clockPins = some p ∧ p.rst = false ∧ pinsAhead s = some p' ∧
      p'.rst = false ∧ (∀ c, p'.btn c = p.btn c) ∧ EdgeEffect p' (eventsAhead s) s t ∧
      t.stim = s.stim.tail ∧ t.host = hostAdvance t.reply (prepared s).host) ∨
    (∃ w i, s.nextStimulus = .op w ∧ decode w = .ok i ∧ exec i s.popStim = .next t) ∨
    (∃ w c, s.nextStimulus = .op w ∧ decode w = .error (.busError c) ∧
      t = raiseBusError c s.popStim) ∨
    (∃ us, s.nextStimulus = .elapse us ∧ t = elapse us s.popStim) ∨
    (s.nextStimulus = .wordDone ∧ t = wordDone s.popStim) ∨
    (s.nextStimulus = .holdExpires ∧ t = holdExpires s.popStim) := by
  cases hc : s.nextStimulus.clockPins with
  | some p =>
    cases hs : hostPrepare s.popStim with
    | error d => rw [step_clock_error hc hs] at h; simp at h
    | ok s' =>
      cases hr : p.rst with
      | true =>
        rw [step_clock_reset hc hs hr] at h
        cases h
        exact .inl ⟨p, rfl, hr, by rw [prepared_eq hs]⟩
      | false =>
        obtain ⟨p', u, hp', hr', hb, hu, he, hst, hh⟩ := step_clock_run hc hs hr
        rw [hu] at h
        cases h
        exact .inr (.inl ⟨p, p', rfl, hr, hp', hr', hb, he, hst, by rw [hh, prepared_eq hs]⟩)
  | none =>
    right; right
    unfold step at h
    split at h <;> rename_i hn <;> (try simp [hn, Stimulus.clockPins] at hc)
    · rename_i w
      unfold runWord at h
      split at h
      · rename_i i hi; exact .inl ⟨w, i, hn, hi, h⟩
      · rename_i e he
        obtain ⟨c, rfl, rfl⟩ := rejectWord_eq_next.mp h
        exact .inr (.inl ⟨w, c, hn, he, rfl⟩)
    · cases h; exact .inr (.inr (.inl ⟨_, hn, rfl⟩))
    · cases h; exact .inr (.inr (.inr (.inl ⟨hn, rfl⟩)))
    · cases h; exact .inr (.inr (.inr (.inr ⟨hn, rfl⟩)))

/-! ## The host's program has no impossible digit -/

/-- A host program without impossible digits is always prepared. -/
theorem hostPrepare_of_digitsOk {s : State} (h : DigitsOk s) : ∃ s', hostPrepare s = .ok s' := by
  cases hh : hostPrepare s with
  | ok s' => exact ⟨s', rfl⟩
  | error d =>
    obtain ⟨hd, rest, hr⟩ := hostPrepare_error hh
    have := h (.sendGlyph d) (by simp [hr])
    simp at this; omega

/-- What preparing leaves of the program: nothing new to render. -/
theorem hostPrepare_digits {s s' : State} (h : DigitsOk s) (hs : hostPrepare s = .ok s') :
    DigitsOk s' := by
  unfold hostPrepare at hs
  split at hs
  · rename_i d rest heq
    split at hs
    · simp at hs
    · simp at hs; subst hs
      intro op hop
      simp only [sendFrame, List.mem_append, List.mem_map] at hop
      obtain ⟨w, -, rfl⟩ | hop := hop
      · trivial
      · exact h op (by rw [heq]; exact List.mem_cons_of_mem _ hop)
  · simp at hs; subst hs; exact h

/-- The host's answer to the port adds no impossible digit. -/
theorem hostAdvance_digits {h : HostState} (r : Reply)
    (hd : ∀ op ∈ h.program, match op with | .sendGlyph d => 0 ≤ d ∧ d ≤ 9 | _ => True) :
    ∀ op ∈ (hostAdvance r h).program, match op with | .sendGlyph d => 0 ≤ d ∧ d ≤ 9 | _ => True := by
  have hrest : ∀ x rest, h.program = x :: rest →
      ∀ op ∈ rest, match op with | .sendGlyph d => 0 ≤ d ∧ d ≤ 9 | _ => True :=
    fun x rest hx op hop => hd op (by rw [hx]; exact List.mem_cons_of_mem _ hop)
  unfold hostAdvance
  split
  · exact hd
  · rename_i heq; split; exacts [hrest _ _ heq, hd]
  · rename_i heq; split; exacts [hrest _ _ heq, hd]
  · rename_i heq; split; exacts [hd, hrest _ _ heq]
  · rename_i heq; split; exacts [hrest _ _ heq, hd]
  · rename_i heq; split
    · exact hrest _ _ heq
    · intro op hop
      obtain rfl | hop := List.mem_cons.mp hop
      · trivial
      · exact hrest _ _ heq op hop
  · exact hd
  · rename_i heq; exact hrest _ _ heq
  · rename_i heq
    intro op hop
    simp only [mainIteration, blinkOps, List.mem_append] at hop
    obtain (hop | hop) | hop := hop
    · split at hop
      · rw [List.mem_singleton] at hop; subst hop
        have := (updateDigit h.tookInc (r.rdata.getLsbD 0) h.digit).isLt
        simp only [Int.ofNat_eq_natCast]; omega
      · simp at hop
    · simp at hop; obtain (rfl | rfl) | rfl | rfl := hop <;> trivial
    · exact hrest _ _ heq op hop

/-- A reset leaves the digit of any host 0 (70_reset_and_hazards R191). -/
@[simp] theorem hostReset_digit (h : HostState) : (hostReset h).digit = 0 := by
  unfold hostReset
  split
  · rfl
  · unfold hostAdvance; split <;> (try split) <;> rfl

/-- Nor does a reset. -/
theorem hostReset_digits {h : HostState}
    (hd : ∀ op ∈ h.program, match op with | .sendGlyph d => 0 ≤ d ∧ d ≤ 9 | _ => True) :
    ∀ op ∈ (hostReset h).program, match op with | .sendGlyph d => 0 ≤ d ∧ d ≤ 9 | _ => True := by
  unfold hostReset
  split
  · intro op hop
    simp only [HostState.startup, referenceProgram, mainIteration, blinkOps, List.mem_cons,
      List.mem_append, List.not_mem_nil, or_false] at hop
    obtain rfl | (rfl | rfl) | rfl | rfl := hop <;> simp
  · exact hostAdvance_digits (h := { h with digit := 0, tookInc := false }) Reply.idle hd

/-- A clock edge with reset, whatever the host does. -/
theorem step_reset {s : State} {p : PinIn} (hd : DigitsOk s)
    (hp : s.nextStimulus.clockPins = some p) (hr : p.rst = true) :
    ∃ h, step s = .next { applyReset s.popStim with host := h } ∧
      DigitsOk { applyReset s.popStim with host := h } := by
  obtain ⟨s', hs'⟩ := hostPrepare_of_digitsOk (s := s.popStim) hd
  have hdig := hostPrepare_digits (s := s.popStim) hd hs'
  exact ⟨_, step_clock_reset hp hs' hr, hostReset_digits hdig⟩

/-- A clock edge without reset, whatever the host does. -/
theorem step_edge {s : State} {p : PinIn} (hd : DigitsOk s)
    (hp : s.nextStimulus.clockPins = some p) (hr : p.rst = false) :
    ∃ p' t, pinsAhead s = some p' ∧ p'.rst = false ∧ (∀ c, p'.btn c = p.btn c) ∧ step s = .next t ∧
      EdgeEffect p' (eventsAhead s) s t ∧ t.stim = s.stim.tail ∧ DigitsOk t := by
  obtain ⟨s', hs'⟩ := hostPrepare_of_digitsOk (s := s.popStim) hd
  have hdig := hostPrepare_digits (s := s.popStim) hd hs'
  obtain ⟨p', t, hp', hr', hb, ht, he, hst, hh⟩ := step_clock_run hp hs' hr
  refine ⟨p', t, hp', hr', hb, ht, he, hst, ?_⟩
  unfold DigitsOk
  rw [hh]
  exact hostAdvance_digits _ hdig

/-- The same, from the pins the block sees. -/
theorem step_ahead {s : State} {p : PinIn} (hd : DigitsOk s) (hp : pinsAhead s = some p)
    (hr : p.rst = false) : ∃ t, step s = .next t ∧ EdgeEffect p (eventsAhead s) s t := by
  obtain ⟨q, hq, hqr, -⟩ := clockPins_of_pinsAhead hp
  obtain ⟨p', t, hp', -, -, ht, he, -, -⟩ := step_edge hd hq (hqr.trans hr)
  rw [hp] at hp'
  cases hp'
  exact ⟨t, ht, he⟩

/-- The same with no host program: the pins themselves drive the port, and the host stays. -/
theorem step_edge_pins {s : State} {p : PinIn} (hh : s.host.program = [])
    (hp : s.nextStimulus = .edge p) (hr : p.rst = false) :
    ∃ u, portStep p s.popStim = .next u ∧ PortEffect p s.popStim u ∧
      step s = .next (hardwareEvents p s.popStim u) ∧
      EdgeEffect p Events.empty s (hardwareEvents p s.popStim u) := by
  obtain ⟨u, hu, he⟩ := portStep_answers p s.popStim
  have hprep : hostPrepare s.popStim = .ok s.popStim := by simp [hostPrepare, hh]
  have hhost : (hardwareEvents p s.popStim u).host = s.host := by simp [he.host]
  refine ⟨u, hu, he, ?_, ?_⟩
  · simp only [step, hp, edgeStep, hprep, hostNext,
      hostPins_idle (show s.popStim.host.program = [] from hh), clockEdge, hr, hu, andThen_next,
      Bool.false_eq_true, if_false]
    congr 1
    have : hostAdvance (hardwareEvents p s.popStim u).reply (hardwareEvents p s.popStim u).host =
        (hardwareEvents p s.popStim u).host := by
      rw [hhost]; simp [hostAdvance, hh]
    rw [this]
  · exact EdgeEffect.of_block (s := s) (s' := s.popStim) rfl (hardwareEvents_effect he)

/-! ## Several clock edges -/

theorem runsFor_mono {m n : Nat} {s : State} (h : RunsFor n s) (hm : m ≤ n) : RunsFor m s :=
  fun x hx => h x ((List.take_sublist_take_left hm).subset hx)

/-- The first of several clock edges. -/
theorem RunsFor.head {n : Nat} {s : State} (h : RunsFor (n + 1) s) :
    ∃ p, s.nextStimulus.clockPins = some p ∧ p.rst = false := by
  unfold State.nextStimulus
  cases hs : s.stim with
  | nil => exact ⟨_, rfl, rfl⟩
  | cons x xs =>
    have := h x (by simp [hs])
    unfold Stimulus.isRunEdge at this
    split at this
    · rename_i p hp; exact ⟨p, hp, by simpa using this⟩
    · simp at this

/-- The rest of several clock edges. -/
theorem RunsFor.tail {n : Nat} {s t : State} (h : RunsFor (n + 1) s) (ht : t.stim = s.stim.tail) :
    RunsFor n t := by
  intro x hx
  rw [ht] at hx
  refine h x ?_
  cases hs : s.stim with
  | nil => simp [hs] at hx
  | cons y ys => rw [hs] at hx; simp; exact .inr hx

/-- An induction over clock edges: what every edge keeps, holds after `n` of them. -/
theorem runSteps_edges {P : Nat → State → Prop} {n : Nat} {s : State} (hd : DigitsOk s)
    (hr : RunsFor n s) (h0 : P 0 s)
    (hstep : ∀ k p t u, k < n → P k t → t.nextStimulus.isRunEdge = true →
      pinsAhead t = some p → EdgeEffect p (eventsAhead t) t u → (∀ c, p.btn c = levelAhead t c) →
      P (k + 1) u) :
    ∃ t, runSteps n s = .next t ∧ P n t ∧ DigitsOk t := by
  induction n generalizing s P with
  | zero => exact ⟨s, rfl, h0, hd⟩
  | succ n ih =>
    obtain ⟨p, hp, hrst⟩ := hr.head
    obtain ⟨p', t, hp', -, hb, ht, he, hst, hdt⟩ := step_edge hd hp hrst
    obtain ⟨u, hu, hPu, hdu⟩ := ih (P := fun k => P (k + 1)) hdt (hr.tail hst)
      (hstep 0 p' s t (by omega) h0 (by simp [hp, Stimulus.isRunEdge, hrst]) hp' he
        (by simp [levelAhead, hp, hb]))
      (fun k q a b hk => hstep (k + 1) q a b (by omega))
    exact ⟨u, by simp [runSteps, ht, hu], hPu, hdu⟩

end Sys2Proof.Machine
end

