-- ==== Sys2Proof/Tests/Slice0.lean ====
section
/-! SUPPORT. Tests of one step each, with expected values from 95_test_vectors (named by their ids),
and a witness that meets the hypotheses of each statement of Certificates/Slice0/Obligations.lean. -/

namespace Sys2Proof.Tests

open Sys2Proof Sys2Proof.Machine

/-! ## Well-formedness: an ill-formed term for each check is refused -/

theorem test_wellFormed_rsv : (TraceWord.xact 0x2000000000#40).wellFormed = false ∧
    (TraceWord.xact 0xC800000000#40).wellFormed = false ∧
    (TraceWord.xact 0x9000000001#40).wellFormed = true := by decide

theorem test_wellFormed_rise : (TraceWord.evt 0x3#4).wellFormed = false := by decide
theorem test_wellFormed_fall : (TraceWord.evt 0x4#4).wellFormed = false := by decide
theorem test_wellFormed_evt : (TraceWord.evt 0xD#4).wellFormed = true := by decide

theorem test_params : Config.testParams.wellFormed = true := by decide
theorem test_params_clock_zero : { Config.testParams with fClk := 0 }.clockOk = false := by decide
theorem test_params_clock_step : { Config.testParams with fClk := 9000000 }.clockOk = false := by decide
theorem test_params_th0 : { Config.testParams with th0Cyc := 0 }.pulseOk = false := by decide
theorem test_params_th1 : { Config.testParams with th1Cyc := 3 }.pulseOk = false := by decide
theorem test_params_cpb : { Config.testParams with th1Cyc := 10 }.pulseOk = false := by decide
theorem test_params_depth_zero : { Config.testParams with txqDepth := 0 }.depthOk = false := by decide
theorem test_params_depth_256 : { Config.testParams with txqDepth := 256 }.depthOk = false := by decide
theorem test_params_delay : { Config.testParams with resampleDelay := 65536 }.delayOk = false := by decide
theorem test_params_latch : { Config.testParams with latchUs := 0 }.latchOk = false := by decide
theorem test_params_glyphs : { Config.testParams with glyphs := [] }.glyphsOk = false := by decide
theorem test_params_cycles : Config.testParams.ticksPerUs = 8 ∧ Config.testParams.cpb = 10 := by decide

/-! ## Decoding: words written out from 30_encoding R68 (V-E1 to V-E17) -/

theorem test_decode_takeInc : decode (.xact 0b0_00_00000_00000000000000000000000000000000#40) = .ok .takeInc ∧
    decodeTableWord 40 0x00000000FF = some .takeInc := by decide
theorem test_decode_takeDec : decode (.xact 0b0_00_00100_00000000000000000000000000000000#40) = .ok .takeDec ∧
    decodeTableWord 40 0x0400000000 = some .takeDec := by decide
theorem test_decode_txPush : decode (.xact 0b1_00_01000_11011110101011011011111011101111#40) =
    .ok (.txPush 0xDEADBEEF#32) ∧ decodeTableWord 40 0x88DEADBEEF = some (.txPush 0xDEADBEEF#32) := by decide
theorem test_decode_txStat : decode (.xact 0b0_00_01100_00000000000000000000000000000000#40) = .ok .txStat ∧
    decodeTableWord 40 0x0C00000000 = some .txStat := by decide
theorem test_decode_blinkStart : decode (.xact 0b1_00_10000_00000000000000000000000000000001#40) = .ok .blinkStart ∧
    decodeTableWord 40 0x9000000003 = some .blinkStart ∧
    decodeTableWord 40 0x90FFFFFFFF = some .blinkStart := by decide
theorem test_decode_blinkNop : decode (.xact 0b1_00_10000_00000000000000000000000000000000#40) = .ok .blinkNop ∧
    decodeTableWord 40 0x90FFFFFFFE = some .blinkNop := by decide
theorem test_decode_blinkStat : decode (.xact 0b0_00_10000_00000000000000000000000000000000#40) = .ok .blinkStat ∧
    decodeTableWord 40 0x1000000000 = some .blinkStat := by decide
theorem test_decode_edgeInc : decode (.evt 0b0_0_0_1#4) = .ok (.edgeInc false) ∧
    decodeTableWord 8 0x9 = some (.edgeInc true) := by decide
theorem test_decode_edgeDec : decode (.evt 0b0_1_0_1#4) = .ok (.edgeDec false) ∧
    decodeTableWord 8 0xD = some (.edgeDec true) := by decide

/-- V-E9 to V-E13. -/
theorem test_decode_busErrors :
    decode (.xact 0x8900000000#40) = .error (.busError .misaligned) ∧
    decode (.xact 0x9500000000#40) = .error (.busError .misaligned) ∧
    decode (.xact 0x1400000000#40) = .error (.busError .unmapped) ∧
    decode (.xact 0x1C00000000#40) = .error (.busError .unmapped) ∧
    decode (.xact 0x8000000000#40) = .error (.busError .writeRo) ∧
    decode (.xact 0x8C00000000#40) = .error (.busError .writeRo) ∧
    decode (.xact 0x0800000000#40) = .error (.busError .readWo) := by decide

/-- V-E14 and V-E17. -/
theorem test_decode_reserved :
    decode (.xact 0x2000000000#40) = .error .reservedXact ∧
    decode (.xact 0xC800000000#40) = .error .reservedXact ∧
    (∀ e ∈ [0x0#4, 0x2#4, 0x3#4, 0x4#4, 0x6#4, 0x7#4, 0x8#4, 0xA#4, 0xB#4, 0xC#4, 0xE#4, 0xF#4],
      decode (.evt e) = .error .reservedEvt) ∧
    decodeTableWord 8 0x2 = none := by decide

/-- The encoder and the trace line give the canonical word of P2 and V-K9 (R72). -/
theorem test_encode :
    encode (.txPush 0x02010300#32) = .xact 0x8802010300#40 ∧
    (TraceLine.push 0x02010300#32).word = .xact 0x8802010300#40 ∧
    (TraceLine.wr 0x10#5 3#32).word = .xact 0x9000000003#40 ∧
    (TraceLine.edge .dec true).word = .evt 0xD#4 := by decide

/-! ## States to test on -/

/-- The value `f` reads from a next state. -/
def seen {α : Type} (o : Host.Outcome State Fault Refusal) (f : State → α) : Option α :=
  match o with
  | .next s => some (f s)
  | .fault _ => none
  | .refused _ => none

/-- Reset at a given TIME. -/
def atTime (t : Nat) : State := { State.reset with time := BitVec.ofNat 64 t }

/-- Channel 0 with a flag and a timestamp. -/
def incAt (pend : Bool) (ts now : Nat) : State :=
  { atTime now with inc := { State.reset.inc with pend := pend, lastTs := BitVec.ofNat 64 ts } }

/-- Channel 1 with a flag and a timestamp. -/
def decAt (pend : Bool) (ts now : Nat) : State :=
  { atTime now with dec := { State.reset.dec with pend := pend, lastTs := BitVec.ofNat 64 ts } }

/-- The pins of a read. -/
def readPins (a : BitVec 5) : PinIn := { PinIn.quiet with sel := true, addr := a }

/-- The pins of a write. -/
def writePins (a : BitVec 5) (d : Word) : PinIn :=
  { PinIn.quiet with sel := true, we := true, addr := a, wdata := d }

/-- The state whose next step is a clock edge with those pins. -/
def onPins (s : State) (p : PinIn) : State := { s with stim := [.edge p] }

/-- Channel 0 pressed with the delayed edge firing at this clock edge, and a TAKE_INC on the port. -/
def pressed (pend : Bool) (ts now : Nat) : State :=
  onPins
    { incAt pend ts now with
      inc := { pend := pend, lastTs := BitVec.ofNat 64 ts, btnPrev := false,
               fallQ := [false, false, false, false, false, false, false, true] } }
    { readPins 0x00#5 with btn0 := false }

/-- The same without a transaction. -/
def pressedQuiet (pend : Bool) (ts now : Nat) : State :=
  onPins (pressed pend ts now) { PinIn.quiet with btn0 := false }

/-- The serialiser at the start of a word, with a full queue of four words behind it. -/
def sending : State :=
  { State.reset with
    txq := [0x02010300#32, 0x00000000#32, 0x00FF0000#32, 0x00000000#32]
    shBusy := true, shReg := 0x80000100#32, shLeft := 24#5, shPhase := 0 }

/-- The serialiser in the last cycle of the last cell, with the queue `q`. -/
def lastCell (q : List Word) : State :=
  { State.reset with txq := q, shBusy := true, shReg := 0x80000000#32, shLeft := 1#5, shPhase := 9 }

/-- BLK in the last microsecond of hold `n`, at a tick. -/
def holdEnd (n : BitVec 4) : State :=
  { State.reset with blinkBusy := true, statusOut := n.getLsbD 0, blinkCnt := n, blinkRem := 1#17,
                     usDiv := 7 }

/-! ## The buttons -/

/-- V-B8: the take yields the old flag, the accepted edge of the same clock edge sets it again. -/
theorem test_takeInc_same_edge :
    seen (step (pressed true 300000 600000)) (fun t => (t.reply.rdata, t.inc.pend, t.inc.lastTs)) =
      some (1#32, true, 600000#64) := by decide

/-- V-B9: a discarded edge does not. -/
theorem test_takeInc_discarded :
    seen (step (pressed true 300000 400000)) (fun t => (t.reply.rdata, t.inc.pend, t.inc.lastTs)) =
      some (1#32, false, 300000#64) := by decide

/-- V-B13: a take of channel 1 leaves channel 0 alone. -/
theorem test_takeDec_other_channel :
    seen (exec .takeDec (incAt true 0 0)) (fun t => (t.reply.rdata, t.inc.pend)) =
      some (0#32, true) := by decide

/-- V-B6: the take of a set flag. -/
theorem test_takeDec_set :
    seen (exec .takeDec (decAt true 600000 600000)) (fun t => (t.reply.rdata, t.dec.pend, t.dec.lastTs)) =
      some (1#32, false, 600000#64) := by decide

/-- V-B3 and V-B4: the window is strict. -/
theorem test_edgeInc_window :
    seen (exec (.edgeInc false) (incAt false 1000000 1200000)) (fun t => (t.inc.pend, t.inc.lastTs)) =
      some (false, 1000000#64) ∧
    seen (exec (.edgeInc false) (incAt false 1000000 1200001)) (fun t => (t.inc.pend, t.inc.lastTs)) =
      some (true, 1200001#64) := by decide

/-- V-B12: the elapsed time is modulo 2^64. -/
theorem test_edgeInc_wrap :
    seen (exec (.edgeInc false) (incAt false (2 ^ 64 - 100000) 100000)) (fun t => t.inc.pend) =
      some false ∧
    seen (exec (.edgeInc false) (incAt false (2 ^ 64 - 100000) 100001)) (fun t => (t.inc.pend, t.inc.lastTs)) =
      some (true, 100001#64) := by decide

/-- V-B6: an accepted edge on a set flag. -/
theorem test_edgeDec_set :
    seen (exec (.edgeDec false) (decAt true 300000 600000)) (fun t => (t.dec.pend, t.dec.lastTs)) =
      some (true, 600000#64) := by decide

/-- V-B5 on channel 1: a released line neither sets the flag nor moves the timestamp. -/
theorem test_edgeDec_released :
    seen (exec (.edgeDec true) (decAt false 1000000 1500000)) (fun t => (t.dec.pend, t.dec.lastTs)) =
      some (false, 1000000#64) := by decide

/-- V-B16 at its edge 2000008 and V-B17. -/
theorem test_sample_fires :
    seen (step (pressedQuiet false 0 250001)) (fun t => (t.inc.pend, t.inc.lastTs, t.inc.fallQ.any id)) =
      some (true, 250001#64, false) ∧
    seen (step (onPins (pressed false 0 250001) PinIn.quiet)) (fun t => (t.inc.pend, t.inc.lastTs)) =
      some (false, 0#64) := by decide

/-- V-B18: with RESAMPLE_DELAY = 0 the edge is handled where it is seen. -/
theorem test_sample_no_delay :
    seen (step (onPins
        { State.resetWith { Config.testParams with resampleDelay := 0 } with time := 250000#64 }
        { PinIn.quiet with btn0 := false }))
      (fun t => (t.inc.pend, t.inc.lastTs, t.inc.btnPrev, t.inc.fallQ)) =
      some (true, 250000#64, false, []) := by decide

/-- V-B14: a BusError at the pins clears no flag. -/
theorem test_busError_keeps_flag :
    seen (step (onPins (incAt true 0 0) (writePins 0x00#5 0#32))) (fun t => (t.reply, t.inc.pend)) =
      some ({ ready := true, err := true, rdata := 0#32 }, true) := by decide

/-! ## The transport -/

/-- V-T8 and R102: a push at a full queue stalls, even at the edge of a pop. -/
theorem test_txPush_full :
    seen (step (onPins { lastCell sending.txq with params := State.reset.params } (writePins 0x08#5 5#32)))
      (fun t => (t.reply.ready, t.txq.length, t.shReg)) = some (false, 3, 0x02010300#32) := by rfl

/-- R102: with room, push and pop at one edge. -/
theorem test_txPush_with_pop :
    seen (step (onPins (lastCell [1#32, 2#32]) (writePins 0x08#5 5#32)))
      (fun t => (t.reply.ready, t.txq, t.shReg)) = some (true, [2#32, 5#32], 1#32) := by rfl

/-- V-T3. -/
theorem test_txStat_full : seen (exec .txStat sending) (fun t => t.reply.rdata) =
    some 0x00000405#32 := by decide

/-- V-T1 and V-T2. -/
theorem test_txStat_empty :
    seen (exec .txStat State.reset) (fun t => t.reply.rdata) = some 0x00000002#32 ∧
    seen (exec .txStat (lastCell [])) (fun t => t.reply.rdata) = some 0x00000006#32 := by decide

/-- V-T4: the first cell of 0x80000100 is high for six cycles. -/
theorem test_dout_first_cell :
    dout { sending with shPhase := 5 } = true ∧ dout { sending with shPhase := 6 } = false := by decide

/-- The end of a word with nothing queued (P2's end state: the line is low). -/
theorem test_serialiser_idles :
    seen (step (onPins (lastCell []) PinIn.quiet)) (fun t => (t.shBusy, t.shLeft, t.shPhase, dout t)) =
      some (false, 0#5, 0, false) := by decide

/-! ## The blink counter -/

/-- V-K2. -/
theorem test_blinkStart_idle :
    seen (exec .blinkStart State.reset) (fun t => (t.statusOut, t.blinkRem, t.blinkStatWord)) =
      some (true, 100000#17, 0x00000013#32) := by rfl

/-- V-K6: a start at the edge of the last tick is ignored. -/
theorem test_blinkStart_last_tick :
    seen (step (onPins (holdEnd 10#4) (writePins 0x10#5 1#32))) (fun t => (t.blinkBusy, t.blinkStatWord)) =
      some (false, 0x000000A0#32) := by rfl

/-- V-K8: a write with bit 0 = 0 does nothing. -/
theorem test_blinkNop :
    seen (exec .blinkNop (holdEnd 3#4)) (fun t => (t.reply.err, t.blinkStatWord)) =
      some (false, 0x00000033#32) := by rfl

/-- V-K4 and V-K1. -/
theorem test_blinkStat :
    seen (exec .blinkStat (holdEnd 4#4)) (fun t => t.reply.rdata) = some 0x00000041#32 ∧
    seen (exec .blinkStat State.reset) (fun t => t.reply.rdata) = some 0x00000000#32 := by decide

/-- V-K3: at the end of hold 1 the level falls and hold 2 begins. -/
theorem test_blinkStep_hold_end :
    seen (step (onPins (holdEnd 1#4) PinIn.quiet)) (fun t => (t.statusOut, t.blinkCnt, t.blinkRem, t.time)) =
      some (false, 2#4, 100000#17, 1#64) := by decide

/-- V-K10. -/
theorem test_reset_during_blink :
    seen (step (onPins (holdEnd 3#4) { writePins 0x08#5 5#32 with rst := true }))
      (fun t => (t.statusOut, t.blinkBusy, t.blinkCnt, t.txq, t.reply)) =
      some (false, false, 0#4, [], Reply.idle) := by decide

/-! ## The host side -/

/-- V-H1 and V-H2. -/
theorem test_pack :
    pack { r := 1#8, g := 2#8, b := 3#8 } = 0x02010300#32 ∧
    pack { r := 255#8, g := 0#8, b := 0#8 } = 0x00FF0000#32 ∧
    pixG 0x02010300#32 = 2#8 ∧ pixR 0x02010300#32 = 1#8 ∧ pixB 0x02010300#32 = 3#8 := by decide

/-- V-H5. -/
theorem test_render :
    (render Config.testParams 1 Config.testParams.fgColor).toOption.map (fun f =>
      ((List.range 25).filter fun i => f[i]? == some 0x00002000#32, f.count 0x00000000#32)) =
      some ([2, 6, 7, 12, 17, 21, 22, 23], 17) := by decide

/-- V-H3 at the two ends. -/
theorem test_digit_wraps : digitInc 9 = 0 ∧ digitDec 0 = 9 := by decide

/-- V-H4 in the host's program. -/
theorem test_invalid_digit :
    step { State.reset with host := { State.reset.host with program := [.sendGlyph 10] } } =
      .fault (.invalidDigit 10) := by rfl

/-- R158, R195: a reset in the middle of the loop sets the reference host back to its startup, and the first
push of digit 0 is presented again in the next cycle. -/
theorem test_reset_restarts_host :
    let s : State := { State.reset.withReferenceHost with
      host := { HostState.startup with digit := 7, program := [.drainInc, .drainDec] }
      stim := [.edge { PinIn.quiet with rst := true }] }
    seen (step s) (fun t => (t.host.digit, t.host.program, t.txq)) =
      some (0, .sendGlyph 0 :: mainIteration, []) ∧
    seen (runSteps 2 s) (fun t => (t.txq, t.host.program.length)) = some ([0x00000000#32], 28) :=
  ⟨rfl, rfl⟩

/-- P4, step 1: the first cycle of the reference host presents the first word of digit 0. -/
theorem test_reference_host_starts :
    seen (step State.reset.withReferenceHost) (fun t => (t.txq, t.host.program.length)) =
      some ([0x00000000#32], 28) := by rfl

/-- GK5 on the word of V-T5: bytes 0x02, 0x01, 0x03 are green, red, blue. -/
theorem test_receiver_colour :
    colorOf [false, false, false, false, false, false, true, false,
             false, false, false, false, false, false, false, true,
             false, false, false, false, false, false, true, true] =
      { g := 2#8, r := 1#8, b := 3#8 } := by decide

/-! ## Traces -/

/-- R72. -/
theorem test_trace_text :
    (TraceLine.push 0xDEADBEEF#32).text = "PUSH 0xDEADBEEF" ∧
    (TraceLine.edge .inc false).text = "EDGE INC, lvl=0" ∧
    (TraceLine.wr 0x10#5 3#32).text = "WR 0x10, 0x00000003" := by decide

/-- V-B7 and V-B8 as a trace: the TAKE and the EDGE of one clock edge. -/
theorem test_trace_same_edge :
    seen (step ((incAt false 0 300000).withTrace
        [⟨some (.us 300000), .take .inc⟩, ⟨some (.us 300000), .edge .inc false⟩] 1))
      (fun t => (t.reply.rdata, t.inc.pend, t.inc.lastTs, t.trace)) =
      some (0#32, true, 300000#64, []) ∧
    seen (step ((incAt true 300000 600000).withTrace
        [⟨some (.us 600000), .edge .inc false⟩, ⟨some (.us 600000), .take .inc⟩] 1))
      (fun t => (t.reply.rdata, t.inc.pend, t.inc.lastTs, t.trace)) =
      some (1#32, true, 600000#64, []) := by decide

/-- R74: a line without an annotation follows at the next clock edge. -/
theorem test_trace_next_edge :
    seen (step ((decAt true 300000 600000).withTrace
        [⟨some (.us 600000), .edge .dec false⟩, ⟨none, .take .dec⟩] 2))
      (fun t => (t.dec.pend, t.dec.lastTs, t.trace)) =
      some (true, 600000#64, [⟨none, .take .dec⟩]) := by decide

/-- R49: a PUSH that stalls is presented again. -/
theorem test_trace_stall :
    seen (step (sending.withTrace [⟨none, .push 5#32⟩, ⟨none, .txstat⟩] 1))
      (fun t => (t.reply.ready, t.trace)) =
      some (false, [⟨none, .push 5#32⟩, ⟨none, .txstat⟩]) := by rfl

/-- R74: `@1 us:` is edge 8, and not edge 7. -/
theorem test_trace_time :
    seen (step ({ atTime 0 with usDiv := 7 }.withTrace [⟨some (.us 1), .txstat⟩] 1))
      (fun t => t.trace.length) = some 1 ∧
    seen (step ((atTime 1).withTrace [⟨some (.edge 8), .txstat⟩] 1))
      (fun t => t.trace.length) = some 0 := by decide

/-! ## The operation level (R211) -/

/-- A word ends and the next one of the queue begins. -/
theorem test_op_wordDone :
    seen (step { sending with stim := [.wordDone] }) (fun t => (t.shReg, t.shLeft, t.txq.length)) =
      some (0x02010300#32, 24#5, 3) := by decide

/-- Time passes, and a hold expires only after its ticks. -/
theorem test_op_hold :
    seen (step { holdEnd 1#4 with blinkRem := 100#17, stim := [.elapse 60] })
      (fun t => (t.blinkRem, t.time, t.statusOut)) = some (40#17, 60#64, true) ∧
    seen (step { holdEnd 1#4 with stim := [.holdExpires] })
      (fun t => (t.blinkCnt, t.blinkRem, t.statusOut)) = some (2#4, 100000#17, false) ∧
    seen (step { holdEnd 1#4 with blinkRem := 2#17, stim := [.holdExpires] })
      (fun t => (t.blinkCnt, t.blinkRem, t.statusOut)) = some (1#4, 2#17, true) := by decide

/-! ## Each operation as the first step after reset -/

theorem test_first_takes :
    seen (step (State.reset.withFetchWord 40 0x0000000000)) (fun t => t.reply) =
      some { ready := true, err := false, rdata := 0#32 } ∧
    seen (step (State.reset.withFetchWord 40 0x0400000000)) (fun t => t.reply) =
      some { ready := true, err := false, rdata := 0#32 } := by decide

theorem test_first_txPush :
    seen (step (State.reset.withFetchWord 40 0x88DEADBEEF)) (fun t => t.txq) = some [0xDEADBEEF#32] := by
  rfl

theorem test_first_stats :
    seen (step (State.reset.withFetchWord 40 0x0C00000000)) (fun t => t.reply.rdata) = some 2#32 ∧
    seen (step (State.reset.withFetchWord 40 0x1000000000)) (fun t => t.reply.rdata) = some 0#32 := by
  decide

theorem test_first_blinks :
    seen (step (State.reset.withFetchWord 40 0x9000000001)) (fun t => t.blinkBusy) = some true ∧
    seen (step (State.reset.withFetchWord 40 0x9000000000)) (fun t => t.blinkBusy) = some false :=
  ⟨rfl, rfl⟩

theorem test_first_edges :
    seen (step ((atTime 250000).withFetchWord 8 0x1)) (fun t => (t.inc.pend, t.dec.pend)) =
      some (true, false) ∧
    seen (step ((atTime 250000).withFetchWord 8 0x5)) (fun t => (t.inc.pend, t.dec.pend)) =
      some (false, true) := by decide

theorem test_first_reserved :
    step (State.reset.withFetchWord 8 0x3) = .refused .reservedEvt ∧
    step (State.reset.withFetchWord 40 0x2000000000) = .refused .reservedXact := ⟨rfl, rfl⟩

/-! ## Witnesses: states and operands that meet the hypotheses of the statements

Where a statement has several clauses there is one for each, at the boundary of its range. -/

theorem digitsOk_nil {s : State} (h : s.host.program = []) : DigitsOk s := by simp [DigitsOk, h]
theorem runsFor_nil {n : Nat} {s : State} (h : s.stim = []) : RunsFor n s := by simp [RunsFor, h]

theorem inv_reset : Inv State.reset :=
  ⟨by decide, by unfold TimebaseInv; decide, rfl, rfl, by constructor <;> decide,
    by constructor <;> decide⟩

theorem inv_sending : Inv sending :=
  ⟨by decide, by unfold TimebaseInv; decide, rfl, rfl, by constructor <;> decide,
    by constructor <;> decide⟩

theorem inv_lastCell : Inv (lastCell []) :=
  ⟨by decide, by unfold TimebaseInv; decide, rfl, rfl, by constructor <;> decide,
    by constructor <;> decide⟩

theorem inv_holdEnd : Inv (holdEnd 1#4) ∧ Inv (holdEnd 10#4) :=
  ⟨⟨by decide, by unfold TimebaseInv; decide, rfl, rfl, by constructor <;> decide,
    by constructor <;> decide⟩,
   ⟨by decide, by unfold TimebaseInv; decide, rfl, rfl, by constructor <;> decide,
    by constructor <;> decide⟩⟩

theorem inv_pressedQuiet (b : Bool) : Inv (pressedQuiet b 300000 600000) := by
  refine ⟨by cases b <;> decide, by unfold TimebaseInv; cases b <;> decide, rfl, rfl, ?_, ?_⟩ <;>
    constructor <;> cases b <;> decide

theorem inv_onPins {s : State} (h : Inv s) (p : PinIn) : Inv (onPins s p) :=
  ⟨h.params, h.timebase, h.chInc, h.chDec,
    ⟨h.transport.depth, h.transport.left, h.transport.busy, h.transport.phase, h.transport.idle⟩,
    ⟨h.blink.remPos, h.blink.remMax, h.blink.cntPos, h.blink.cntMax, h.blink.level, h.blink.idleRem,
      h.blink.idleOut, h.blink.idleCnt⟩⟩

/-- ResetGivesEveryElementItsValue, InvariantHoldsAfterReset: also at the ends of the ranges. -/
theorem witness_params : Config.testParams.wellFormed = true ∧
    { Config.testParams with handoff := .racy, txqDepth := 1, resampleDelay := 0 }.wellFormed = true ∧
    { Config.testParams with fClk := 4000000, th0Cyc := 1, th1Cyc := 2, txqDepth := 255,
                             latchUs := 1 }.wellFormed = true := by decide

/-- ResetWinsOverEverything: the pins, and a trace with an EDGE line that would be accepted. -/
theorem witness_reset_wins :
    let p : PinIn := { writePins 0x08#5 5#32 with rst := true }
    ((onPins sending p).nextStimulus.clockPins = some p ∧ p.rst = true ∧ DigitsOk (onPins sending p)) ∧
    (let s : State := { atTime 600000 with trace := [⟨none, .edge .inc false⟩], stim := [.traced p] };
      s.nextStimulus.clockPins = some p ∧ DigitsOk s) :=
  ⟨⟨rfl, rfl, digitsOk_nil rfl⟩, rfl, digitsOk_nil rfl⟩

/-- ReferenceHostStartsAfterReset: a reset in the middle of a frame, and the startup. -/
theorem witness_host_reset :
    (let p : PinIn := { PinIn.quiet with rst := true };
      let s : State := { onPins sending p with
        host := { HostState.startup with digit := 7, program := [.wr 0x08#5 7#32] } };
      s.nextStimulus.clockPins = some p ∧ s.host.reference = true ∧ DigitsOk s) ∧
    (let s := State.reset.withReferenceHost;
      s.host.program = .sendGlyph 0 :: mainIteration ∧ s.nextStimulus.clockPins = some PinIn.quiet ∧
        ∃ w fs, render s.params 0 s.params.fgColor = .ok (w :: fs)) := by
  refine ⟨⟨rfl, rfl, ?_⟩, rfl, rfl, _, _, rfl⟩
  intro op hop
  obtain rfl := List.mem_singleton.mp hop
  trivial

/-- EveryStepKeepsTheInvariant, NoStepChangesTheParameters, TimeCountsTicksOnly, OnlyAccepted…: a step
of each kind of stimulus. -/
theorem witness_step : ∀ x ∈ [.edge PinIn.quiet, .traced PinIn.quiet, .op (.evt 1#4), .elapse 5, .wordDone,
      .holdExpires, .edge { PinIn.quiet with rst := true }, .traced { PinIn.quiet with rst := true }],
    let s : State := { holdEnd 1#4 with stim := [x] }
    Inv s ∧ s.params.handoff = .atomic ∧ ∃ t, step s = .next t := by
  intro x hx
  have hi := inv_onPins inv_holdEnd.1 PinIn.quiet
  refine ⟨⟨hi.params, hi.timebase, hi.chInc, hi.chDec, ⟨hi.transport.depth, hi.transport.left,
    hi.transport.busy, hi.transport.phase, hi.transport.idle⟩, ⟨hi.blink.remPos, hi.blink.remMax,
    hi.blink.cntPos, hi.blink.cntMax, hi.blink.level, hi.blink.idleRem, hi.blink.idleOut,
    hi.blink.idleCnt⟩⟩, rfl, ?_⟩
  simp only [List.mem_cons, List.not_mem_nil, or_false] at hx
  obtain rfl | rfl | rfl | rfl | rfl | rfl | rfl | rfl := hx <;> exact ⟨_, rfl⟩

/-- StatusOutChangesOnlyByBlk: a start on the port and one run alone. -/
theorem witness_statusOut_start :
    (let s := onPins State.reset (writePins 0x10#5 1#32);
      Inv s ∧ instrAhead s = some .blinkStart ∧
        ∃ t, step s = .next t ∧ t.statusOut ≠ s.statusOut) ∧
    (let s : State := { State.reset with stim := [.op (.xact 0x9000000001#40)] };
      instrAhead s = some .blinkStart ∧ ∃ t, step s = .next t ∧ t.statusOut ≠ s.statusOut) :=
  ⟨⟨inv_onPins inv_reset _, by decide, _, rfl, by decide⟩, by decide, _, rfl, by decide⟩

/-- StatusOutChangesOnlyByBlk: the end of a hold, at a clock edge and at the operation level. -/
theorem witness_statusOut_hold :
    (let s := onPins (holdEnd 1#4) PinIn.quiet;
      Inv s ∧ s.nextStimulus.isRunEdge = true ∧ s.usDiv = s.params.ticksPerUs - 1 ∧
        ∃ t, step s = .next t ∧ t.statusOut ≠ s.statusOut) ∧
    (let s : State := { holdEnd 1#4 with stim := [.holdExpires] };
      s.nextStimulus = .holdExpires ∧ ∃ t, step s = .next t ∧ t.statusOut ≠ s.statusOut) :=
  ⟨⟨inv_onPins inv_holdEnd.1 _, by decide, by decide, _, rfl, by decide⟩, rfl, _, rfl, by decide⟩

theorem witness_statusOut_reset :
    let s := onPins (holdEnd 1#4) { PinIn.quiet with rst := true }
    Inv s ∧ resetAhead s = true ∧ ∃ t, step s = .next t ∧ t.statusOut ≠ s.statusOut :=
  ⟨inv_onPins inv_holdEnd.1 _, rfl, _, rfl, by decide⟩

/-- BlkRestsWithoutStartAndTick: an idle BLK beside a tick, a busy one between ticks. -/
theorem witness_blk_rests :
    (let s : State := { State.reset with usDiv := 7 };
      s.blinkBusy = false ∧ instrAhead s ≠ some .blinkStart ∧ resetAhead s = false ∧
        seen (step s) (fun t => t.usDiv) = some 0) ∧
    (let s : State := { holdEnd 1#4 with usDiv := 6 };
      s.blinkBusy = true ∧ s.nextStimulus.isRunEdge = true ∧ s.usDiv ≠ s.params.ticksPerUs - 1 ∧
        resetAhead s = false ∧ seen (step s) (fun t => t.usDiv) = some 7) := by decide

/-- NoInputStopsTheMachine. -/
theorem witness_no_stop :
    let s : State := { sending with
      stim := [.op (.evt 1#4), .edge PinIn.quiet]
      host := { sending.host with program := [.sendGlyph 9, .sendGlyph 0] } }
    NoReserved s ∧ DigitsOk s := by
  refine ⟨?_, ?_⟩
  · intro x hx
    obtain rfl | hx := List.mem_cons.mp hx
    · rfl
    · obtain rfl := List.mem_singleton.mp hx
      trivial
  · intro op hop
    obtain rfl | hop := List.mem_cons.mp hop
    · simp
    · obtain rfl := List.mem_singleton.mp hop
      simp

/-- StepRunsTheDecodedOperation: a transaction, a cycle without one, a line of a trace, a trace word. -/
theorem witness_step_runs :
    (let s := onPins State.reset (readPins 0x0C#5);
      s.nextStimulus = .edge (readPins 0x0C#5) ∧ s.host.program = [] ∧
      decode (.xact (packXact false 0x0C#5 0#32)) = .ok .txStat ∧
      ∃ t, exec .txStat s.popStim = .next t) ∧
    (State.reset.nextStimulus = .edge PinIn.quiet ∧ PinIn.quiet.sel = false) ∧
    (let s := sending.withTrace [⟨none, .push 5#32⟩] 1;
      s.nextStimulus = .traced PinIn.quiet ∧ s.host.program = [] ∧
      (traceDue s.popStim).line = some ⟨none, .push 5#32⟩ ∧
      (TraceLine.push 5#32).word = .xact 0x8800000005#40 ∧
      decode (.xact 0x8800000005#40) = .ok (.txPush 5#32) ∧
      ∃ t, exec (.txPush 5#32) s.popStim = .next t) ∧
    (let s : State := { State.reset with stim := [.op (.evt 5#4)] };
      s.nextStimulus = .op (.evt 5#4) ∧ decode (.evt 5#4) = .ok (.edgeDec false)) :=
  ⟨⟨rfl, rfl, by decide, _, rfl⟩, ⟨rfl, rfl⟩, ⟨rfl, rfl, by decide, by decide, by decide, _, rfl⟩, rfl,
    by decide⟩

/-- BlockIsAFunctionOfStateAndInput: the host side, the trace, the stimuli and the draws differ. -/
theorem witness_block :
    let t : State := { sending with
      host := { sending.host with digit := 7, program := [.pollTx] }
      trace := [⟨none, .txstat⟩], stim := [.wordDone], draws := 3 }
    sending.block = t.block ∧ sending ≠ t ∧ sending.params.handoff = .atomic := by decide

/-- AnswersShowVisibleStateOnly: all the hidden state differs, and the button lines. -/
theorem witness_answers :
    let p := writePins 0x08#5 7#32
    let q : PinIn := { p with btn0 := false }
    let t : State := { sending with
      time := 5#64, usDiv := 3, inc := { sending.inc with lastTs := 9#64, btnPrev := false, fallQ := [] }
      txq := [1#32, 2#32, 3#32, 4#32], shReg := 1#32, shLeft := 2#5, shPhase := 3, blinkRem := 7#17 }
    p.xact = q.xact ∧ p ≠ q ∧ sending ≠ t ∧ sending.params = t.params ∧
      (∀ c ∈ [Ch.inc, .dec], (sending.ch c).pend = (t.ch c).pend) ∧ sending.txq.length = t.txq.length ∧
      sending.shBusy = t.shBusy ∧ sending.blinkBusy = t.blinkBusy ∧ sending.statusOut = t.statusOut ∧
      sending.blinkCnt = t.blinkCnt := by decide

/-- TransportAndBlinkAreIndependent: BIC and BLK differ, and then BIC and LTX. -/
theorem witness_units :
    (let t : State := { holdEnd 3#4 with
        txq := sending.txq, shBusy := true, shReg := sending.shReg, shLeft := 24#5, shPhase := 0 };
      sending.params = t.params ∧ sending.txq = t.txq ∧ sending.shBusy = t.shBusy ∧
      sending.shReg = t.shReg ∧ sending.shLeft = t.shLeft ∧ sending.shPhase = t.shPhase ∧ sending ≠ t) ∧
    (State.reset.params = sending.params ∧ State.reset.usDiv = sending.usDiv ∧
      State.reset.blinkBusy = sending.blinkBusy ∧ State.reset.statusOut = sending.statusOut ∧
      State.reset.blinkCnt = sending.blinkCnt ∧ State.reset.blinkRem = sending.blinkRem ∧
      State.reset ≠ sending) := by decide

/-- TraceLinesHappenAtTheirEdge: V-B8's TAKE and EDGE of one edge, with a second EDGE, a second
transaction and a line of the next microsecond behind them. -/
theorem witness_trace :
    let ls : List TimedLine := [⟨some (.us 600000), .take .inc⟩, ⟨some (.us 600000), .edge .inc false⟩,
      ⟨some (.us 600000), .edge .inc true⟩, ⟨none, .txstat⟩, ⟨some (.us 600001), .edge .dec false⟩]
    let s := (incAt true 300000 600000).withTrace ls 1
    s.nextStimulus = .traced PinIn.quiet ∧ PinIn.quiet.rst = false ∧ s.host.program = [] ∧ s.trace = ls ∧
      dueLine s [] ⟨some (.us 600000), .take .inc⟩ ∧
      dueLine s (ls.take 1) ⟨some (.us 600000), .edge .inc false⟩ ∧
      ¬ dueLine s (ls.take 3) ⟨none, .txstat⟩ ∧
      ¬ dueLine s (ls.take 4) ⟨some (.us 600001), .edge .dec false⟩ ∧
      (eventsAhead s).ch .inc = some false := by
  refine ⟨rfl, rfl, rfl, rfl, ?_, ?_, ?_, ?_, by decide⟩ <;> simp only [dueLine] <;> decide

/-- TraceLinesHappenAtTheirEdge: a transaction that stalls, one whose edge has not come, and none. -/
theorem witness_trace_port :
    (let s := sending.withTrace [⟨none, .push 5#32⟩] 1;
      dueLine s [] ⟨none, .push 5#32⟩ ∧ seen (step s) (fun t => t.reply.ready) = some false) ∧
    (let s := State.reset.withTrace [⟨some (.edge 1), .txstat⟩] 1;
      ¬ dueLine s [] ⟨some (.edge 1), .txstat⟩ ∧ ∃ t, step s = .next t) ∧
    (let s := State.reset.withTrace [⟨none, .edge .inc true⟩] 1;
      (∀ m ∈ s.trace, ¬ ∃ v, m.line.word = .xact v) ∧ ∃ t, step s = .next t) := by
  refine ⟨⟨rfl, rfl⟩, ⟨?_, _, rfl⟩, ?_, _, rfl⟩
  · simp only [dueLine]; decide
  · intro m hm
    obtain rfl := List.mem_singleton.mp hm
    simp [TraceLine.word]

/-- OperationLevelSteps: each clause, at both ends of its range. -/
theorem witness_operation_level :
    (∀ us ∈ [0, 99999, 100000], ({ State.reset with stim := [.elapse us] } : State).nextStimulus =
      .elapse us) ∧
    (holdEnd 1#4).blinkBusy = true ∧ (holdEnd 1#4).blinkRem = 1#17 ∧ (holdEnd 1#4).blinkCnt ≠ 10#4 ∧
    (holdEnd 10#4).blinkCnt = 10#4 ∧ State.reset.blinkBusy = false ∧
    sending.txq = 0x02010300#32 :: sending.txq.tail ∧
    ((lastCell []).txq = [] ∧ (lastCell []).shBusy = true) ∧
    (State.reset.txq = [] ∧ State.reset.shBusy = false) := by decide

/-- ReservedWordsAreRefused: each of the two bits, for each encoding. -/
theorem witness_reserved :
    (0x2000000000#40).extractLsb' 37 2 ≠ 0#2 ∧ (0x4000000000#40).extractLsb' 37 2 ≠ 0#2 ∧
    (0x0#4).getLsbD 0 = false ∧ (0x3#4).getLsbD 1 = true ∧
    ({ State.reset with stim := [.op (.evt 3#4)] } : State).nextStimulus = .op (.evt 3#4) := by decide

/-- BusErrorChangesNothing: a cause of each number at the pins. -/
theorem witness_busError :
    (onPins (incAt true 0 0) (writePins 0x00#5 0#32)).stim = .edge (writePins 0x00#5 0#32) :: [] ∧
    decode (.xact (packXact true 0x00#5 0#32)) = .error (.busError .writeRo) ∧
    decode (.xact (packXact true 0x1D#5 0#32)) = .error (.busError .misaligned) ∧
    decode (.xact (packXact true 0x14#5 0#32)) = .error (.busError .unmapped) ∧
    decode (.xact (packXact false 0x08#5 0#32)) = .error (.busError .readWo) ∧
    decode (.xact (packXact false 0x08#5 0#32)) ≠ .ok (.txPush 0#32) ∧
    ({ State.reset with stim := [.op (.xact 0x9500000000#40)] } : State).nextStimulus =
      .op (.xact 0x9500000000#40) ∧
    decode (.xact 0x9500000000#40) = .error (.busError .misaligned) := by decide

/-- A host program of bus operations renders nothing. -/
theorem digitsOk_one {s : State} {op : HostOp} (h : s.host.program = [op])
    (hop : ∀ d, op ≠ .sendGlyph d) : DigitsOk s := by
  intro x hx
  rw [h, List.mem_singleton] at hx
  subst hx
  cases x <;> first | trivial | exact absurd rfl (hop _)

/-- BusErrorChangesNothing: a refused transaction of the host program, and of a line of the trace. -/
theorem witness_busError_ahead :
    let base := incAt true 0 0
    let p := writePins 0x00#5 0#32
    let quiet : PinIn := { p with sel := false }
    (let s : State := { base with host := { HostState.none with program := [.wr 0x00#5 0#32] } };
      let s' := onPins base quiet;
      DigitsOk s ∧ DigitsOk s' ∧ s'.block = s.block ∧ pinsAhead s = some p ∧ pinsAhead s' = some quiet ∧
        eventsAhead s' = eventsAhead s) ∧
    (let s : State := { base with trace := [⟨none, .wr 0x00#5 0#32⟩], stim := [.traced PinIn.quiet] };
      let s' : State := { base with stim := [.traced quiet] };
      DigitsOk s ∧ DigitsOk s' ∧ s'.block = s.block ∧ pinsAhead s = some p ∧ pinsAhead s' = some quiet ∧
        eventsAhead s' = eventsAhead s) ∧
    p.rst = false ∧ p.sel = true ∧
    decode (.xact (packXact p.we p.addr p.wdata)) = .error (.busError .writeRo) :=
  ⟨⟨digitsOk_one rfl (by simp), digitsOk_nil rfl, by decide⟩,
    ⟨digitsOk_nil rfl, digitsOk_nil rfl, by decide⟩, by decide⟩

/-- V-B14: a write of TAKE_INC, as a line of a trace, answers `err = 1` and does not clear the flag. -/
theorem test_trace_bus_error :
    seen (step { incAt true 0 0 with trace := [⟨none, .wr 0x00#5 0#32⟩], stim := [.traced PinIn.quiet] })
      (fun t => (t.reply, t.inc.pend, t.trace)) =
      some ({ ready := true, err := true, rdata := 0#32 }, true, []) := by decide

/-- PushAppendsOrStalls: a full queue, and one with room for one word. -/
theorem witness_push :
    sending.txq.length = sending.params.txqDepth ∧
    ({ sending with txq := sending.txq.tail } : State).txq.length ≠ sending.params.txqDepth := by decide

/-- TxStatReadsTheQueue, FullAndEmptyExclude, EveryCellRisesAndEndsLow: the two ends of the queue and
of a cell. -/
theorem witness_transport : Inv State.reset ∧ Inv sending ∧ Inv (lastCell []) ∧
    State.reset.empty = true ∧ sending.full = true ∧ State.reset.shBusy = false ∧
    sending.shPhase = 0 ∧ (lastCell []).shPhase = (lastCell []).params.cpb - 1 :=
  ⟨inv_reset, inv_sending, inv_lastCell, by decide⟩

/-- FullAndEmptyExclude at a depth of 1. -/
theorem witness_depth_one :
    let s := State.resetWith { Config.testParams with txqDepth := 1 }
    (Inv s ∧ s.params.txqDepth = 1 ∧ s.empty = true) ∧
    (Inv { s with txq := [5#32] } ∧ { s with txq := [5#32] }.full = true) := by
  refine ⟨⟨⟨by decide, ?_, rfl, rfl, ?_, ?_⟩, rfl, by decide⟩, ⟨by decide, ?_, rfl, rfl, ?_, ?_⟩,
    by decide⟩
  all_goals first
    | (unfold TimebaseInv; decide)
    | (constructor <;> decide)

/-- BlinkCommands, StartAndStepNeverMix: idle, and busy at the last tick. -/
theorem witness_blink_commands :
    State.reset.blinkBusy = false ∧ (holdEnd 10#4).blinkBusy = true ∧
    (∀ b ∈ [State.reset, holdEnd 10#4],
      let s := onPins b (writePins 0x10#5 1#32)
      let s' := onPins b { writePins 0x10#5 1#32 with sel := false }
      s'.block = s.block ∧ pinsAhead s = some (writePins 0x10#5 1#32) ∧
        pinsAhead s' = some { writePins 0x10#5 1#32 with sel := false } ∧
        s.host.program = [] ∧ s'.host.program = []) ∧
    (writePins 0x10#5 1#32).wdata.getLsbD 0 = true ∧ (writePins 0x10#5 1#32).rst = false := by decide

/-- OperationsKeepTheRest: an operation of each kind. -/
theorem witness_operations :
    (∃ t, exec .takeInc sending = .next t) ∧ (∃ t, exec (.txPush 1#32) sending = .next t) ∧
    (∃ t, exec .blinkStart sending = .next t) ∧ (∃ t, exec (.edgeDec false) sending = .next t) :=
  ⟨⟨_, rfl⟩, ⟨_, rfl⟩, ⟨_, rfl⟩, _, rfl⟩

/-- TimeCountsTicksOnly: a tick, and no tick; the other kinds of step are in `witness_step`. -/
theorem witness_time :
    (∃ t, step (holdEnd 1#4) = .next t) ∧ (holdEnd 1#4).nextStimulus = .edge PinIn.quiet ∧
    (holdEnd 1#4).usDiv = (holdEnd 1#4).params.ticksPerUs - 1 ∧
    (∃ t, step State.reset = .next t) ∧ State.reset.usDiv ≠ State.reset.params.ticksPerUs - 1 :=
  ⟨⟨_, rfl⟩, rfl, by decide, ⟨_, rfl⟩, by decide⟩

/-- SampleDetectsDelaysAndHandles: an edge that fires and is accepted; its neighbours: no delay line,
and the last discarded microsecond. -/
theorem witness_sample :
    let s := pressedQuiet false 300000 600000
    let p : PinIn := { PinIn.quiet with btn0 := false }
    Inv s ∧ DigitsOk s ∧ pinsAhead s = some p ∧ p.rst = false ∧
      s.params.handoff = .atomic ∧ p.takes .inc = false ∧ (s.ch .inc).fallQ.getD 7 false = true ∧
      acceptsAhead s .inc = true ∧
      acceptsAhead (pressedQuiet false 300000 500000) .inc = false ∧
      acceptsAhead (pressedQuiet false 300000 500001) .inc = true :=
  ⟨inv_pressedQuiet false, digitsOk_nil rfl, by decide⟩

/-- SampleDetectsDelaysAndHandles: an edge event of the trace. -/
theorem witness_sample_trace :
    let s := (incAt false 300000 600000).withTrace [⟨none, .edge .inc false⟩] 1
    DigitsOk s ∧ pinsAhead s = some PinIn.quiet ∧ (eventsAhead s).ch .inc = some false ∧
      seen (step s) (fun t => (t.inc.pend, t.inc.lastTs)) = some (true, 600000#64) :=
  ⟨digitsOk_nil rfl, by decide⟩

/-- EachFallFiresAfterTheDelay: an edge seen now. -/
theorem witness_fall :
    let s := onPins State.reset { PinIn.quiet with btn0 := false }
    Inv s ∧ DigitsOk s ∧ RunsFor s.params.resampleDelay s ∧
      ((s.ch .inc).btnPrev && !levelAhead s .inc) = true := by
  refine ⟨inv_onPins inv_reset _, digitsOk_nil rfl, ?_, by decide⟩
  intro x hx
  obtain rfl : x = .edge { PinIn.quiet with btn0 := false } := by simpa [onPins] using List.mem_of_mem_take hx
  rfl

/-- TakeIsBeforeTheEdgeAndSetWins: an accepted and a discarded edge at the take. -/
theorem witness_take_and_edge :
    let p : PinIn := { readPins 0x00#5 with btn0 := false }
    ∀ now ∈ [600000, 400000],
      let s := pressed true 300000 now;
      s.nextStimulus = .edge p ∧ p.rst = false ∧ s.host.program = [] ∧ s.params.handoff = .atomic ∧
        p.sel = true ∧ p.we = false ∧ p.addr = 0x00#5 ∧
        acceptsAhead s .inc = decide (now = 600000) := by decide

/-- SetWinsWhoeverTakes: the take of the pins, of the host and of the trace, with an accepted edge of
SAMPLE or of the trace. -/
theorem witness_set_wins :
    ∀ s ∈ [pressed true 300000 600000,
        { pressedQuiet true 300000 600000 with
          host := { State.reset.host with program := [.rd 0x00#5] } },
        (incAt true 300000 600000).withTrace [⟨none, .take .inc⟩, ⟨some (.edge 0), .edge .inc false⟩] 1],
      (∃ p, s.nextStimulus.clockPins = some p ∧ p.rst = false) ∧ s.params.handoff = .atomic ∧
        takesAhead s .inc = true ∧ acceptsAhead s .inc = true ∧ DigitsOk s := by
  intro s hs
  simp only [List.mem_cons, List.not_mem_nil, or_false] at hs
  obtain rfl | rfl | rfl := hs
  all_goals refine ⟨⟨_, rfl, rfl⟩, rfl, by decide, by decide, ?_⟩
  · exact digitsOk_nil rfl
  · intro op hop
    obtain rfl := List.mem_singleton.mp hop
    trivial
  · exact digitsOk_nil rfl

/-- RacyDiffersInOneOutcome: the one outcome (channel 0), by the take of the pins, of the host and of the
trace, with an accepted edge of SAMPLE or of the trace; and none. -/
theorem witness_racy :
    (∀ s ∈ [pressed true 300000 600000,
        { pressedQuiet true 300000 600000 with host := { HostState.none with program := [.rd 0x00#5] } },
        (incAt true 300000 600000).withTrace [⟨none, .take .inc⟩, ⟨some (.edge 0), .edge .inc false⟩] 1],
      NoReserved s ∧ DigitsOk s ∧ (takesAhead s .inc && (s.ch .inc).pend && acceptsAhead s .inc) = true) ∧
    (let s := pressed false 300000 600000;
      NoReserved s ∧ DigitsOk s ∧
        ∀ c ∈ [Ch.inc, .dec], (takesAhead s c && (s.ch c).pend && acceptsAhead s c) = false) := by
  refine ⟨?_, by intro x hx; obtain rfl := List.mem_singleton.mp hx; trivial, digitsOk_nil rfl, by decide⟩
  intro s hs
  simp only [List.mem_cons, List.not_mem_nil, or_false] at hs
  obtain rfl | rfl | rfl := hs
  all_goals refine ⟨by intro x hx; obtain rfl := List.mem_singleton.mp hx; trivial, ?_, by decide⟩
  · exact digitsOk_nil rfl
  · exact digitsOk_one rfl (by simp)
  · exact digitsOk_nil rfl

/-- ChannelsAreIndependent: the other units, the other channel and the port all differ. -/
theorem witness_independent :
    let p : PinIn := PinIn.quiet
    let q : PinIn := { readPins 0x04#5 with btn1 := false }
    sending.params = (holdEnd 3#4).params ∧ sending.time = (holdEnd 3#4).time ∧
      sending.ch .inc = (holdEnd 3#4).ch .inc ∧ p.rst = q.rst ∧ p.btn .inc = q.btn .inc ∧
      p.takes .inc = q.takes .inc ∧ sending.draws = (holdEnd 3#4).draws := by decide

/-- OnlyAcceptedEdgesSetAndOnlyTakesClear, NoAcceptedEventIsLost: a step that sets and a step that
clears, at a clock edge and as a trace word run alone. -/
theorem witness_flags :
    (∀ s ∈ [pressedQuiet false 300000 600000,
        { incAt false 300000 600000 with stim := [.op (.evt 1#4)] },
        (incAt false 300000 600000).withTrace [⟨none, .edge .inc false⟩] 1],
      s.params.handoff = .atomic ∧ resetAhead s = false ∧
        (s.ch .inc).pend = false ∧ acceptsAhead s .inc = true ∧
        seen (step s) (fun t => (t.ch .inc).pend) = some true) ∧
    (∀ s ∈ [onPins (incAt true 0 0) (readPins 0x00#5),
        { incAt true 0 0 with stim := [.op (.xact 0#40)] }],
      s.params.handoff = .atomic ∧ resetAhead s = false ∧ (s.ch .inc).pend = true ∧
        takesAhead s .inc = true ∧ seen (step s) (fun t => (t.ch .inc).pend) = some false) := by decide

/-- EdgesInsideTheWindowAreDiscarded, over one more clock edge. -/
theorem witness_window :
    let s := pressedQuiet false 300000 600000
    DigitsOk s ∧ RunsFor 2 s ∧ acceptsAhead s .inc = true ∧
      (∀ k u, 1 ≤ k → k ≤ 1 → runSteps k s = .next u → acceptsAhead u .inc = false) ∧
      seen (runSteps 2 s) (fun t => decide ((t.time - s.time).toNat ≤ 200000)) = some true := by
  refine ⟨digitsOk_nil rfl, ?_, by decide, ?_, by decide⟩
  · intro x hx
    obtain rfl : x = .edge { PinIn.quiet with btn0 := false } := by
      simpa [pressedQuiet, onPins] using List.mem_of_mem_take hx
    rfl
  · intro k u h1 h2 h
    obtain rfl : k = 1 := by omega
    have hs : ∃ t, runSteps 1 (pressedQuiet false 300000 600000) = .next t ∧
        acceptsAhead t .inc = false := ⟨_, rfl, by decide⟩
    obtain ⟨t, ht, hk⟩ := hs
    rw [ht] at h
    cases h
    exact hk

/-- StartupDeadWindow: an edge ready to fire at the last microsecond of the window and the first
after it. -/
theorem witness_dead_window :
    (let s := pressedQuiet false 0 200000;
      (s.ch .inc).lastTs = 0#64 ∧ (s.ch .inc).pend = false ∧ s.time.toNat ≤ 200000 ∧
        seen (step s) (fun t => t.inc.pend) = some false) ∧
    (atTime 200001).inc.lastTs = 0#64 ∧ (atTime 200001).dec.lastTs = 0#64 ∧
    (atTime 200001).time = 200001#64 := by decide

/-- SerialiserStepAndQueue: each of the five clauses, the third from both of its starts. -/
theorem witness_serialiser :
    let p := writePins 0x08#5 7#32
    p.rst = false ∧ pinsAhead (onPins sending p) = some p ∧
    pinsAhead { sending with host := { HostState.none with program := [.wr 0x08#5 7#32] } } = some p ∧
    (sending.shBusy = true ∧ sending.shPhase ≠ sending.params.cpb - 1) ∧
    (let s := { sending with shPhase := 9 };
      s.shBusy = true ∧ s.shPhase = s.params.cpb - 1 ∧ s.shLeft ≠ 1#5) ∧
    (let s := lastCell [1#32];
      s.shPhase = s.params.cpb - 1 ∧ s.shLeft = 1#5 ∧ s.txq = 1#32 :: []) ∧
    ({ State.reset with txq := [1#32] }.shBusy = false) ∧
    (let s := lastCell [];
      s.shBusy = true ∧ s.shPhase = s.params.cpb - 1 ∧ s.shLeft = 1#5 ∧ s.txq = []) ∧
    (State.reset.shBusy = false ∧ State.reset.txq = []) := by decide

/-- ReferenceReceiverReadsAWord. -/
theorem witness_receiver :
    ({ bits := [true], high := 0, low := 3, leds := [] } : Receiver).high = 0 := rfl

/-- WordImageOnTheWire, FullQueueIsPoppedInTime. -/
theorem witness_word :
    Inv sending ∧ DigitsOk sending ∧ sending.shBusy = true ∧ sending.shLeft = 24#5 ∧
      sending.shPhase = 0 ∧ RunsFor (24 * sending.params.cpb + 1) sending ∧
      sending.txq.length = sending.params.txqDepth :=
  ⟨inv_sending, digitsOk_nil rfl, rfl, rfl, rfl, runsFor_nil rfl, rfl⟩

/-- LowByteIsNeverSeen: the low bytes of the words in the queue and in the shift register differ. -/
theorem witness_low_byte :
    let s' : State := { sending with
      txq := [0x020103FF#32, 0x0000007F#32, 0x00FF0001#32, 0x00000080#32], shReg := 0x800001FF#32 }
    Inv sending ∧ SameOnWire sending s' ∧ s' ≠ sending ∧ (∃ t, step sending = .next t) ∧
      (0x02010300#32 : Word) >>> 8 = (0x020103FF#32 : Word) >>> 8 := by
  refine ⟨inv_sending, ⟨⟨_, _, rfl⟩, by decide, ?_⟩, by decide, ⟨_, rfl⟩, by decide⟩
  intro _ i hi
  have h8 : 8 ≤ i := hi
  have h : (0x800001FF#32 : Word) >>> 8 = (0x80000100#32 : Word) >>> 8 := by decide
  have := congrArg (fun w : Word => w.getLsbD (i - 8)) h
  simp only [BitVec.getLsbD_ushiftRight, Nat.add_sub_cancel' h8] at this
  exact this

/-- BlinkStepCountsTicks, InvocationEndsAtItsLastTick: the end of a hold and of the last hold. -/
theorem witness_blink :
    (Inv (holdEnd 1#4) ∧ DigitsOk (holdEnd 1#4) ∧ RunsFor 1 (holdEnd 1#4) ∧
      (holdEnd 1#4).blinkBusy = true ∧ blinkTicksLeft (holdEnd 1#4) = 900001) ∧
    (Inv (holdEnd 10#4) ∧ (holdEnd 10#4).blinkBusy = true ∧ blinkTicksLeft (holdEnd 10#4) = 1 ∧
      RunsFor 7200001 (holdEnd 1#4)) :=
  ⟨⟨inv_holdEnd.1, digitsOk_nil rfl, runsFor_nil rfl, by decide⟩, inv_holdEnd.2, by decide, by decide,
    runsFor_nil rfl⟩

/-- InvocationEndsAtItsLastTick: the start. -/
theorem witness_blink_start : State.reset.blinkBusy = false ∧
    ∃ t, exec .blinkStart State.reset = .next t := ⟨rfl, _, rfl⟩

/-- RenderFollowsTheGlyph, InvalidDigitIsRaised: the digits at both ends of the range. -/
theorem witness_digits :
    ((0 : Int) ≤ 0 ∧ (0 : Int) ≤ 9) ∧ ((0 : Int) ≤ 9 ∧ (9 : Int) ≤ 9) ∧
    pack Config.testParams.fgColor ≠ 0#32 ∧ (-1 : Int) < 0 ∧ (9 : Int) < 10 ∧
    (let s : State := { State.reset with host := { State.reset.host with program := [.sendGlyph 10] } };
      s.nextStimulus.clockPins = some PinIn.quiet ∧ s.host.program = [.sendGlyph 10]) := by decide

/-- LoopUpdatesAndRenders: each clause. -/
theorem witness_loop :
    (∀ op ∈ [HostOp.wr 0x10#5 1#32, .rd 0x04#5, .pollBlink, .pollTx, .wait 2, .drainInc, .drainDec],
      ({ HostState.none with program := [op] }).program = op :: []) ∧
    (let s : State := { State.reset with host := { State.reset.host with program := [.sendGlyph 9] } };
      s.host.program = [.sendGlyph (Int.ofNat (9 : Fin 10).val)] ∧
        ∃ f, render s.params (Int.ofNat (9 : Fin 10).val) s.params.fgColor = .ok f) ∧
    (let s : State := { incAt true 0 0 with host := { HostState.none with program := [.drainInc] } };
      s.nextStimulus.clockPins = some PinIn.quiet ∧ PinIn.quiet.rst = false ∧
        seen (step s) (fun t => t.host.tookInc) = some true) ∧
    (let s : State := { incAt true 0 0 with stim := [.wordDone] };
      s.nextStimulus.clockPins = none ∧ ∃ t, step s = .next t) :=
  ⟨by decide, ⟨rfl, _, rfl⟩, ⟨rfl, rfl, by decide⟩, rfl, _, rfl⟩

/-- HostPresentsAPushUntilItCompletes: a full queue, and one with room. -/
theorem witness_host_push :
    ∀ s ∈ [sending, State.reset],
      let t : State := { s with host := { s.host with program := [.wr 0x08#5 7#32] } }
      t.nextStimulus.clockPins = some PinIn.quiet ∧ PinIn.quiet.rst = false ∧
        t.host.program = [.wr 0x08#5 7#32] := by decide

/-- PseudoOperationsRunAsExpanded: each operation at the head; and a wait of two cycles. -/
theorem witness_pseudo :
    (∀ op ∈ [HostOp.rd 0x04#5, .wr 0x10#5 1#32, .wr 0x08#5 7#32, .pollBlink, .pollTx, .wait 1],
      let s : State := { sending with host := { HostState.none with program := [op] } }
      s.nextStimulus.clockPins = some PinIn.quiet ∧ PinIn.quiet.rst = false ∧
        s.host.program = op :: [] ∧ (∀ d, op ≠ .sendGlyph d)) ∧
    (let s : State := { State.reset with host := { HostState.none with program := waitCycles 2 ++ [] } };
      DigitsOk s ∧ RunsFor 2 s ∧ s.host.program = waitCycles 2 ++ []) := by
  refine ⟨?_, digitsOk_one (op := .wait 2) rfl (by simp), ?_, rfl⟩
  · intro op hop
    refine ⟨rfl, rfl, rfl, ?_⟩
    rintro d rfl
    simp at hop
  · intro x hx; simp [State.reset, State.resetWith] at hx

/-- R73: WAIT_TX_IDLE goes on with an empty queue and an idle serialiser, and polls again while one word is
being sent. -/
theorem test_wait_tx_idle :
    let h : HostState := { HostState.none with program := waitTxIdle }
    seen (step { State.reset with host := h }) (fun t => t.host.program) = some [] ∧
      seen (step { lastCell [] with shPhase := 0, host := h }) (fun t => t.host.program) = some [.pollTx] := by
  decide

end Sys2Proof.Tests
end

section
/-! No step changes a parameter: a lemma for each step of the operation level, then the obligation by the
cases of `step_effect`. -/

namespace Sys2Proof.Machine

@[simp] theorem raiseBusError_params (c : BusCause) (s : State) : (raiseBusError c s).params = s.params := rfl

@[simp] theorem elapse_params (us : Nat) (s : State) : (elapse us s).params = s.params := rfl

@[simp] theorem wordDone_params (s : State) : (wordDone s).params = s.params := by
  obtain ⟨q, b, r, l, n, h⟩ := wordDone_frame s
  rw [h]

@[simp] theorem holdExpires_params (s : State) : (holdExpires s).params = s.params := by
  obtain ⟨-, -, -, h⟩ | ⟨-, -, -, h⟩ | ⟨-, h⟩ := holdExpires_cases s <;> rw [h]

/-- Settles O5: reset, the clock edge, the operations and the steps of the operation level each keep the
parameters, and a step is one of them (`step_effect`). -/
theorem noStepChangesTheParameters : Obligations.NoStepChangesTheParameters := by
  intro s t h
  obtain ⟨_, _, _, rfl⟩ | ⟨_, _, _, _, _, _, _, hedge, _⟩ | ⟨_, _, _, _, hexec⟩ | ⟨_, c, _, _, rfl⟩ |
    ⟨us, _, rfl⟩ | ⟨_, rfl⟩ | ⟨_, rfl⟩ := step_effect h
  · exact applyReset_params s.popStim
  · exact hedge.params
  · obtain ⟨hparams, _⟩ := exec_frame hexec
    exact hparams
  · exact raiseBusError_params c s.popStim
  · exact elapse_params us s.popStim
  · exact wordDone_params s.popStim
  · exact holdExpires_params s.popStim

end Sys2Proof.Machine
end

section
/-! The operations, unit by unit: which of them can change a channel, the queue and the blink counter, and how
(10_state R19 to R26).  The frame of every operation follows. -/

namespace Sys2Proof.Machine

/-- The EDGE of a channel. -/
def edgeOf : Ch → Bool → Instr
  | .inc, lvl => .edgeInc lvl
  | .dec, lvl => .edgeDec lvl

section
variable {i : Instr} {s t : State}

/-- A channel changes by its own TAKE and its own EDGE alone (40_button_input R84). -/
theorem exec_ch_cases (h : exec i s = .next t) (c : Ch) :
    (i = takeOf c ∧ t = take c s) ∨ (∃ lvl, i = edgeOf c lvl ∧ t = edgeHandle c s.time lvl s) ∨
      t.ch c = s.ch c := by
  obtain ⟨d, hi, rfl⟩ | ⟨w, -, -, rfl⟩ | ⟨w, -, -, rfl⟩ | ⟨-, rfl⟩ | ⟨-, -, rfl⟩ | ⟨-, rfl⟩ | ⟨-, rfl⟩ |
    ⟨d, lvl, hi, rfl⟩ := exec_cases h
  case inl =>
    by_cases hc : c = d
    · subst hc
      exact .inl ⟨by obtain ⟨rfl, rfl⟩ | ⟨rfl, rfl⟩ := hi <;> rfl, rfl⟩
    · exact .inr (.inr (take_ch_other _ hc))
  case inr.inr.inr.inr.inr.inr.inr =>
    by_cases hc : c = d
    · subst hc
      exact .inr (.inl ⟨lvl, by obtain ⟨rfl, rfl⟩ | ⟨rfl, rfl⟩ := hi <;> rfl, rfl⟩)
    · exact .inr (.inr (edgeHandle_ch_other _ _ _ hc))
  all_goals exact .inr (.inr (by cases c <;> rfl))

/-- The queue changes by a TX_PUSH that finds room (41_led_transport R100). -/
theorem exec_txq_cases (h : exec i s = .next t) :
    (∃ w, i = .txPush w ∧ s.full = false ∧ t.txq = s.txq ++ [w]) ∨ t.txq = s.txq := by
  obtain ⟨c, -, rfl⟩ | ⟨w, -, -, rfl⟩ | ⟨w, hi, hf, rfl⟩ | ⟨-, rfl⟩ | ⟨-, -, rfl⟩ | ⟨-, rfl⟩ | ⟨-, rfl⟩ |
    ⟨c, lvl, -, rfl⟩ := exec_cases h
  case inr.inr.inl => exact .inl ⟨w, hi, hf, rfl⟩
  all_goals exact .inr (by simp)

/-- The blink counter changes by a BLINK_START that finds it idle (42_blink R131). -/
theorem exec_blink_cases (h : exec i s = .next t) :
    (i = .blinkStart ∧ s.blinkBusy = false ∧ t.blinkBusy = true ∧ t.statusOut = true ∧
      t.blinkCnt = 1#4 ∧ t.blinkRem = Config.blinkHoldUs) ∨
    (t.blinkBusy = s.blinkBusy ∧ t.statusOut = s.statusOut ∧ t.blinkCnt = s.blinkCnt ∧
      t.blinkRem = s.blinkRem) := by
  obtain ⟨c, -, rfl⟩ | ⟨w, -, -, rfl⟩ | ⟨w, -, -, rfl⟩ | ⟨-, rfl⟩ | ⟨hi, hb, rfl⟩ | ⟨-, rfl⟩ | ⟨-, rfl⟩ |
    ⟨c, lvl, -, rfl⟩ := exec_cases h
  case inr.inr.inr.inr.inl => exact .inl ⟨hi, hb, rfl, rfl, rfl, rfl⟩
  all_goals exact .inr (by simp)

theorem exec_ch_of_ne (h : exec i s = .next t) {c : Ch} (htake : i ≠ takeOf c)
    (hedge : ∀ lvl, i ≠ edgeOf c lvl) : t.ch c = s.ch c := by
  obtain ⟨hi, -⟩ | ⟨lvl, hi, -⟩ | hc := exec_ch_cases h c
  · exact absurd hi htake
  · exact absurd hi (hedge lvl)
  · exact hc

theorem exec_lastTs_of_ne (h : exec i s = .next t) {c : Ch} (hedge : ∀ lvl, i ≠ edgeOf c lvl) :
    (t.ch c).lastTs = (s.ch c).lastTs := by
  obtain ⟨-, rfl⟩ | ⟨lvl, hi, -⟩ | hc := exec_ch_cases h c
  · rw [take_ch_self]
  · exact absurd hi (hedge lvl)
  · rw [hc]

/-- An EDGE presents no transaction, so it leaves the last answer on the port (log entry 3). -/
theorem exec_edge_reply {c : Ch} {lvl : Bool} (h : exec (edgeOf c lvl) s = .next t) :
    t.reply = s.reply := by
  cases c <;> cases h <;> exact edgeHandle_reply ..

end

/-- Settles O22: the common frame (`exec_frame`, `exec_keeps`) and, for each unit, the operations that can
change it. -/
theorem operationsKeepTheRest : Obligations.OperationsKeepTheRest := by
  intro i s t h
  obtain ⟨hparams, htime, husDiv, hbusy, hreg, hleft, hphase, hhost, hstim, hline⟩ := exec_frame h
  obtain ⟨htrace, hdraws⟩ := exec_keeps h
  refine ⟨hparams, htime, husDiv, hbusy, hreg, hleft, hphase, hhost, hstim, htrace, hdraws, hline,
    exec_ch_of_ne (c := .inc) h, exec_ch_of_ne (c := .dec) h, ?_, ?_, ?_, ?_⟩
  · intro hinc hdec c
    exact exec_lastTs_of_ne h (by cases c <;> assumption)
  · intro hpush
    exact (exec_txq_cases h).resolve_left fun ⟨w, hi, _⟩ => hpush w hi
  · intro hstart
    exact (exec_blink_cases h).resolve_left fun ⟨hi, _⟩ => hstart hi
  · rintro ⟨lvl, rfl | rfl⟩
    · exact exec_edge_reply (c := .inc) h
    · exact exec_edge_reply (c := .dec) h

end Sys2Proof.Machine
end

section
/-! The invariant (10_state R18, R22 to R24, R26): it speaks of the block alone, it holds after reset, and each
kind of step keeps it unit by unit. -/

namespace Sys2Proof.Machine

/-! ## What an admissible choice of the parameters gives -/

section
variable {p : Params}

theorem ticksPerUs_pos (h : p.wellFormed = true) : 0 < p.ticksPerUs := by
  simp only [Params.wellFormed, Params.clockOk, Bool.and_eq_true, decide_eq_true_eq, beq_iff_eq] at h
  obtain ⟨⟨⟨⟨⟨⟨hpos, hmod⟩, -⟩, -⟩, -⟩, -⟩, -⟩ := h
  unfold Params.ticksPerUs
  omega

theorem cpb_pos (h : p.wellFormed = true) : 0 < p.cpb := by
  simp only [Params.wellFormed, Params.pulseOk, Bool.and_eq_true, decide_eq_true_eq] at h
  obtain ⟨⟨⟨⟨⟨-, -, hth1⟩, -⟩, -⟩, -⟩, -⟩ := h
  omega

theorem txqDepth_pos (h : p.wellFormed = true) : 0 < p.txqDepth := by
  simp only [Params.wellFormed, Params.depthOk, Bool.and_eq_true, decide_eq_true_eq] at h
  obtain ⟨⟨⟨⟨-, hpos, -⟩, -⟩, -⟩, -⟩ := h
  exact hpos

end

/-! ## Each unit's invariant speaks of the elements of that unit alone -/

section
variable {s t : State}

theorem TransportInv.of_registers (h : TransportInv s) (hparams : t.params = s.params)
    (hdepth : t.txq.length ≤ s.params.txqDepth) (hbusy : t.shBusy = s.shBusy)
    (hleft : t.shLeft = s.shLeft) (hphase : t.shPhase = s.shPhase) : TransportInv t where
  depth := hparams ▸ hdepth
  left := hleft ▸ h.left
  busy := by rw [hbusy, hleft]; exact h.busy
  phase := by rw [hphase, hparams]; exact h.phase
  idle := by rw [hbusy, hphase]; exact h.idle

theorem BlinkInv.of_registers (h : BlinkInv s) (hbusy : t.blinkBusy = s.blinkBusy)
    (hout : t.statusOut = s.statusOut) (hcnt : t.blinkCnt = s.blinkCnt)
    (hrem : t.blinkRem = s.blinkRem) : BlinkInv t where
  remPos := by rw [hbusy, hrem]; exact h.remPos
  remMax := by rw [hrem]; exact h.remMax
  cntPos := by rw [hbusy, hcnt]; exact h.cntPos
  cntMax := by rw [hcnt]; exact h.cntMax
  level := by rw [hbusy, hout, hcnt]; exact h.level
  idleRem := by rw [hbusy, hrem]; exact h.idleRem
  idleOut := by rw [hbusy, hout]; exact h.idleOut
  idleCnt := by rw [hbusy, hcnt]; exact h.idleCnt

/-- The invariant after a step that keeps the parameters and the lengths of the delay lines, from that of the
other units. -/
theorem Inv.of_units (h : Inv s) (hparams : t.params = s.params)
    (hlines : ∀ c, (t.ch c).fallQ.length = (s.ch c).fallQ.length) (htimebase : TimebaseInv t)
    (htransport : TransportInv t) (hblink : BlinkInv t) : Inv t where
  params := hparams ▸ h.params
  timebase := htimebase
  chInc := by rw [hparams]; exact (hlines .inc).trans h.chInc
  chDec := by rw [hparams]; exact (hlines .dec).trans h.chDec
  transport := htransport
  blink := hblink

/-- The host side, the trace, the stimuli, the answer and the count of draws have no part in it. -/
theorem Inv.of_block (h : Inv s) (hb : s.block = t.block) : Inv t := by
  rw [State.block_eq hb]
  exact h.of_units rfl (fun c => by cases c <;> rfl) h.timebase
    (h.transport.of_registers rfl h.transport.depth rfl rfl rfl)
    (h.blink.of_registers rfl rfl rfl rfl)

end

/-! ## After reset -/

theorem inv_resetWith {p : Params} (h : p.wellFormed = true) : Inv (State.resetWith p) where
  params := h
  timebase := ticksPerUs_pos h
  chInc := List.length_replicate
  chDec := List.length_replicate
  transport :=
    { depth := Nat.zero_le _
      left := (by decide : 0#5 ≤ 24#5)
      busy := by simp [State.resetWith]
      phase := cpb_pos h
      idle := fun _ => rfl }
  blink := by constructor <;> simp [State.resetWith, Config.blinkHoldUs, Config.blinkToggles]

/-- Settles O3: every element's range holds of its reset value. -/
theorem invariantHoldsAfterReset : Obligations.InvariantHoldsAfterReset := fun _ h => inv_resetWith h

/-! ## The queue's flags -/

/-- Settles O19: the queue's length is 0 when EMPTY and TXQ_DEPTH, which is positive, when FULL. -/
theorem fullAndEmptyExclude : Obligations.FullAndEmptyExclude := by
  intro s h
  have hpos := txqDepth_pos h.params
  have hle := h.transport.depth
  simp only [State.full, State.empty, beq_iff_eq, beq_eq_false_iff_ne]
  omega

/-! ## The transport: what SER_STEP can do, and that it keeps the ranges -/

section
variable {s : State}

/-- The serialiser is in the last cycle of the last cell of its word (41_led_transport R105). -/
def atWordEnd (s : State) : Prop :=
  s.shBusy = true ∧ s.shPhase = s.params.cpb - 1 ∧ s.shLeft = 1#5

/-- The five things SER_STEP can do (41_led_transport R105): load a word, go idle, begin the next cell, count
a cycle of the cell, rest. -/
theorem serStep_cases (pre s : State) :
    (∃ w q, pre.txq = w :: q ∧ (pre.shBusy = false ∨ atWordEnd pre) ∧ serStep pre s = serLoad w s) ∨
    (pre.txq = [] ∧ atWordEnd pre ∧
      serStep pre s = { s with shBusy := false, shLeft := 0#5, shPhase := 0 }) ∨
    (pre.shBusy = true ∧ pre.shPhase = pre.params.cpb - 1 ∧ pre.shLeft ≠ 1#5 ∧
      serStep pre s = { s with
        shReg := pre.shReg <<< 1, shLeft := pre.shLeft - 1#5, shPhase := 0 }) ∨
    (pre.shBusy = true ∧ pre.shPhase ≠ pre.params.cpb - 1 ∧
      serStep pre s = { s with shPhase := pre.shPhase + 1 }) ∨
    (pre.txq = [] ∧ pre.shBusy = false ∧ serStep pre s = s) := by
  unfold serStep
  by_cases hb : pre.shBusy = true
  · by_cases hp : pre.shPhase = pre.params.cpb - 1
    · by_cases hl : pre.shLeft = 1#5
      · cases hq : pre.txq with
        | nil => exact .inr (.inl ⟨rfl, ⟨hb, hp, hl⟩, by simp only [hb, hp, hl, if_true]⟩)
        | cons w q => exact .inl ⟨w, q, rfl, .inr ⟨hb, hp, hl⟩, by simp only [hb, hp, hl, if_true]⟩
      · exact .inr (.inr (.inl ⟨hb, hp, hl, by simp only [hb, hp, hl, if_true, if_false]⟩))
    · exact .inr (.inr (.inr (.inl ⟨hb, hp, by simp only [hb, hp, if_true, if_false]⟩)))
  · rw [Bool.not_eq_true] at hb
    cases hq : pre.txq with
    | nil => exact .inr (.inr (.inr (.inr ⟨rfl, hb, by simp [hb]⟩)))
    | cons w q => exact .inl ⟨w, q, rfl, .inl hb, by simp [hb]⟩

theorem transportInv_serLoad (h : TransportInv s) (hcpb : 0 < s.params.cpb) (w : Word) :
    TransportInv (serLoad w s) where
  depth := (by simp [serLoad] : (serLoad w s).txq.length ≤ s.txq.length).trans h.depth
  left := BitVec.le_refl _
  busy := by simp [serLoad, Config.wireBits]
  phase := hcpb
  idle := by simp [serLoad]

theorem transportInv_serStep (h : TransportInv s) (hcpb : 0 < s.params.cpb) :
    TransportInv (serStep s s) := by
  obtain ⟨w, q, -, -, hs⟩ | ⟨-, -, hs⟩ | ⟨hb, -, hne, hs⟩ | ⟨hb, hp, hs⟩ | ⟨-, -, hs⟩ :=
    serStep_cases s s <;> rw [hs]
  · exact transportInv_serLoad h hcpb w
  · exact ⟨h.depth, (by decide : 0#5 ≤ 24#5), by simp, hcpb, fun _ => rfl⟩
  · have hle : s.shLeft ≤ 24#5 := h.left
    have hpos : s.shLeft ≠ 0#5 := h.busy.mp hb
    have hle' : s.shLeft - 1#5 ≤ 24#5 := by bv_omega
    have hpos' : s.shLeft - 1#5 ≠ 0#5 := by bv_omega
    exact ⟨h.depth, hle', iff_of_true hb hpos', hcpb, fun _ => rfl⟩
  · have hphase := h.phase
    exact ⟨h.depth, h.left, h.busy, show s.shPhase + 1 < s.params.cpb by omega, by simp [hb]⟩
  · exact h

theorem transportInv_lastCycle (h : TransportInv s) (hcpb : 0 < s.params.cpb) :
    TransportInv (lastCycle s) := by
  unfold lastCycle
  split
  next hb =>
    exact ⟨h.depth, (by decide : 1#5 ≤ 24#5), iff_of_true hb (by decide : 1#5 ≠ 0#5),
      Nat.sub_lt hcpb Nat.one_pos, by simp [hb]⟩
  next => exact h

@[simp] theorem lastCycle_params (s : State) : (lastCycle s).params = s.params := by
  unfold lastCycle; split <;> rfl

theorem transportInv_wordDone (h : TransportInv s) (hcpb : 0 < s.params.cpb) :
    TransportInv (wordDone s) :=
  transportInv_serStep (transportInv_lastCycle h hcpb) (by simpa using hcpb)

/-- A TX_PUSH appends a word only where there is room for it (41_led_transport R100). -/
theorem length_lt_of_not_full (h : TransportInv s) (hf : s.full = false) :
    s.txq.length < s.params.txqDepth := by
  have hne : s.txq.length ≠ s.params.txqDepth := by simpa [State.full] using hf
  exact lt_of_le_of_ne h.depth hne

theorem length_add_pushedWords (h : TransportInv s) (p : PinIn) :
    s.txq.length + (pushedWords p s).length ≤ s.params.txqDepth := by
  unfold pushedWords
  split
  next hp => exact length_lt_of_not_full h hp.2.2.2
  next => exact h.depth

end

/-! ## The blink counter: a start, a tick and passing time keep the ranges -/

section
variable {s t : State}

theorem blinkInv_started (hbusy : t.blinkBusy = true) (hout : t.statusOut = true)
    (hcnt : t.blinkCnt = 1#4) (hrem : t.blinkRem = Config.blinkHoldUs) : BlinkInv t := by
  constructor <;> simp [hbusy, hout, hcnt, hrem, Config.blinkHoldUs, Config.blinkToggles]

/-- The next count of a running invocation is the next number and the other level (42_blink R134). -/
theorem blinkCnt_next {n : BitVec 4} (hle : n ≤ 10#4) (hne : n ≠ 10#4) :
    1#4 ≤ n + 1#4 ∧ n + 1#4 ≤ 10#4 ∧ (n + 1#4).getLsbD 0 = !n.getLsbD 0 := by
  revert n; decide

theorem blinkInv_blinkTick (h : BlinkInv s) (hb : s.blinkBusy = true) : BlinkInv (blinkTick s s) := by
  unfold blinkTick
  split
  next =>
    split
    next hend =>
      have hout : s.statusOut = false := by rw [h.level hb, hend]; rfl
      constructor <;> simp [hend, hout, Config.blinkHoldUs]
    next hne =>
      obtain ⟨hpos, hmax, hbit⟩ := blinkCnt_next h.cntMax hne
      have hlevel : (!s.statusOut) = (s.blinkCnt + 1#4).getLsbD 0 := by rw [hbit, h.level hb]
      exact ⟨fun _ => (by decide : 1#17 ≤ 100000#17), BitVec.le_refl _, fun _ => hpos, hmax,
        fun _ => hlevel, by simp [hb], by simp [hb], by simp [hb]⟩
  next hrem =>
    have hpos := h.remPos hb
    have hmax : s.blinkRem ≤ 100000#17 := h.remMax
    have hpos' : 1#17 ≤ s.blinkRem - 1#17 := by bv_omega
    have hmax' : s.blinkRem - 1#17 ≤ 100000#17 := by bv_omega
    exact ⟨fun _ => hpos', hmax', h.cntPos, h.cntMax, h.level, by simp [hb], h.idleOut, h.idleCnt⟩

theorem blinkInv_blinkStep (h : BlinkInv s) : BlinkInv (blinkStep s s) := by
  unfold blinkStep
  split
  next ht => exact blinkInv_blinkTick h (Bool.and_eq_true_iff.mp ht).2
  next => exact h

theorem blinkInv_holdExpires (h : BlinkInv s) : BlinkInv (holdExpires s) := by
  unfold holdExpires
  split
  next he => exact (blinkInv_blinkTick h he.1).of_registers rfl rfl rfl rfl
  next => exact h

/-- A running hold never loses its last tick to passing time (70_reset_and_hazards R211). -/
theorem blinkInv_elapse (h : BlinkInv s) (us : Nat) : BlinkInv (elapse us s) := by
  cases hb : s.blinkBusy with
  | false => exact h.of_registers rfl rfl rfl (by simp [elapse, hb])
  | true =>
    have hpos := h.remPos hb
    have hmax : s.blinkRem ≤ 100000#17 := h.remMax
    have hrem : 1#17 ≤ (elapse us s).blinkRem ∧ (elapse us s).blinkRem ≤ 100000#17 := by
      simp only [elapse, hb, if_true]
      split
      next hus => constructor <;> bv_omega
      next => decide
    exact ⟨fun _ => hrem.1, hrem.2, h.cntPos, h.cntMax, h.level,
      fun hf => absurd (hb.symm.trans hf) (by decide), h.idleOut, h.idleCnt⟩

end

/-! ## Each kind of step -/

section
variable {s t : State}

theorem isTick_iff : isTick s = true ↔ s.usDiv = s.params.ticksPerUs - 1 := by
  simp [isTick]

theorem length_fallLine_dropLast (k : Channel) (lvl : Bool) :
    (fallLine k lvl).dropLast.length = k.fallQ.length := by
  simp [fallLine]

theorem timebaseInv_edge {p : PinIn} {e : Events} (h : TimebaseInv s) (he : EdgeEffect p e s t) :
    TimebaseInv t := by
  unfold TimebaseInv at h ⊢
  rw [he.params, he.usDiv]
  split
  next => omega
  next htick => rw [isTick_iff] at htick; omega

theorem transportInv_edge {p : PinIn} {e : Events} (h : TransportInv s) (hcpb : 0 < s.params.cpb)
    (he : EdgeEffect p e s t) : TransportInv t := by
  have hdepth : t.txq.length ≤ s.params.txqDepth := by
    have hpush := length_add_pushedWords h p
    have hpop : (if serPops s then s.txq.tail else s.txq).length ≤ s.txq.length := by split <;> simp
    rw [he.txq, List.length_append]
    omega
  exact (transportInv_serStep h hcpb).of_registers (by simpa using he.params) (by simpa using hdepth)
    he.shBusy he.shLeft he.shPhase

theorem blinkInv_edge {p : PinIn} {e : Events} (h : BlinkInv s) (he : EdgeEffect p e s t) :
    BlinkInv t := by
  obtain hstart | hstart := Bool.eq_false_or_eq_true (startsBlink p s)
  · exact blinkInv_started (by simp [he.busy, hstart]) (by simp [he.out, hstart])
      (by simp [he.cnt, hstart]) (by simp [he.rem, hstart])
  · exact (blinkInv_blinkStep h).of_registers (by simp [he.busy, hstart]) (by simp [he.out, hstart])
      (by simp [he.cnt, hstart]) (by simp [he.rem, hstart])

/-- A clock edge without reset. -/
theorem inv_edge {p : PinIn} {e : Events} (h : Inv s) (he : EdgeEffect p e s t) : Inv t :=
  h.of_units he.params (fun c => by rw [he.fallQ, length_fallLine_dropLast])
    (timebaseInv_edge h.timebase he) (transportInv_edge h.transport (cpb_pos h.params) he)
    (blinkInv_edge h.blink he)

/-- An operation run alone (70_reset_and_hazards R211). -/
theorem inv_exec {i : Instr} (h : Inv s) (he : exec i s = .next t) : Inv t := by
  obtain ⟨hparams, -, husDiv, hbusy, -, hleft, hphase, -, -, hline⟩ := exec_frame he
  have hdepth : t.txq.length ≤ s.params.txqDepth := by
    obtain ⟨w, -, hf, hq⟩ | hq := exec_txq_cases he <;> rw [hq]
    · rw [List.length_append]; exact length_lt_of_not_full h.transport hf
    · exact h.transport.depth
  have hblink : BlinkInv t := by
    obtain ⟨-, -, hbb, hout, hcnt, hrem⟩ | ⟨hbb, hout, hcnt, hrem⟩ := exec_blink_cases he
    · exact blinkInv_started hbb hout hcnt hrem
    · exact h.blink.of_registers hbb hout hcnt hrem
  exact h.of_units hparams (fun c => by rw [(hline c).2])
    (by rw [TimebaseInv, husDiv, hparams]; exact h.timebase)
    (h.transport.of_registers hparams hdepth hbusy hleft hphase) hblink

theorem inv_elapse (h : Inv s) (us : Nat) : Inv (elapse us s) :=
  h.of_units rfl (fun c => by rw [elapse_ch]) h.timebase
    (h.transport.of_registers rfl h.transport.depth rfl rfl rfl) (blinkInv_elapse h.blink us)

theorem inv_wordDone (h : Inv s) : Inv (wordDone s) := by
  have htransport := transportInv_wordDone h.transport (cpb_pos h.params)
  have hch := wordDone_ch s
  obtain ⟨q, b, r, l, n, hw⟩ := wordDone_frame s
  rw [hw] at htransport hch ⊢
  exact h.of_units rfl (fun c => by rw [hch]) h.timebase htransport
    (h.blink.of_registers rfl rfl rfl rfl)

theorem inv_holdExpires (h : Inv s) : Inv (holdExpires s) := by
  have hblink := blinkInv_holdExpires h.blink
  have hch := holdExpires_ch s
  obtain ⟨-, -, -, hs⟩ | ⟨-, -, -, hs⟩ | ⟨-, hs⟩ := holdExpires_cases s <;> rw [hs] at hblink hch ⊢
  case inr.inr => exact h
  all_goals
    exact h.of_units rfl (fun c => by rw [hch]) h.timebase
      (h.transport.of_registers rfl h.transport.depth rfl rfl rfl) hblink

theorem inv_popStim (h : Inv s) : Inv s.popStim := h.of_block rfl

end

/-- Settles O4: each of the kinds of step (`step_effect`) keeps the ranges; a reset gives the reset values, a
refused transaction changes no element of the block. -/
theorem everyStepKeepsTheInvariant : Obligations.EveryStepKeepsTheInvariant := by
  intro s t h hstep
  obtain ⟨_, _, _, rfl⟩ | ⟨_, _, _, _, _, _, _, hedge, _⟩ | ⟨_, _, _, _, hexec⟩ | ⟨_, _, _, _, rfl⟩ |
    ⟨us, _, rfl⟩ | ⟨_, rfl⟩ | ⟨_, rfl⟩ := step_effect hstep
  · exact (inv_resetWith h.params).of_block rfl
  · exact inv_edge h hedge
  · exact inv_exec (inv_popStim h) hexec
  · exact h.of_block rfl
  · exact inv_elapse (inv_popStim h) us
  · exact inv_wordDone (inv_popStim h)
  · exact inv_holdExpires (inv_popStim h)

end Sys2Proof.Machine
end

section
/-! The timebase (10_state R17, R18): TIME and its prescaler at each kind of step. -/

namespace Sys2Proof.Machine

section
variable {s t : State}

theorem clockPins_eq_some {x : Stimulus} {p : PinIn} :
    x.clockPins = some p ↔ x = .edge p ∨ x = .traced p := by
  cases x <;> simp [Stimulus.clockPins]

/-- A microsecond tick ends the prescaler's count and adds one to TIME; any other clock edge counts. -/
theorem timebase_edge {p : PinIn} {e : Events} (he : EdgeEffect p e s t) :
    if s.usDiv = s.params.ticksPerUs - 1 then t.usDiv = 0 ∧ t.time = s.time + 1#64
    else t.usDiv = s.usDiv + 1 ∧ t.time = s.time := by
  simp only [he.usDiv, he.time, isTick_iff]
  split <;> exact ⟨rfl, rfl⟩

theorem wordDone_timebase (s : State) : (wordDone s).usDiv = s.usDiv ∧ (wordDone s).time = s.time := by
  obtain ⟨q, b, r, l, n, h⟩ := wordDone_frame s
  rw [h]
  exact ⟨rfl, rfl⟩

theorem holdExpires_timebase (s : State) : (holdExpires s).usDiv = s.usDiv ∧
    (holdExpires s).time =
      if s.blinkBusy = true ∧ s.blinkRem = 1#17 then s.time + 1#64 else s.time := by
  obtain ⟨hb, hr, -, h⟩ | ⟨hb, hr, -, h⟩ | ⟨hn, h⟩ := holdExpires_cases s <;> rw [h]
  · exact ⟨rfl, (if_pos ⟨hb, hr⟩).symm⟩
  · exact ⟨rfl, (if_pos ⟨hb, hr⟩).symm⟩
  · exact ⟨rfl, (if_neg hn).symm⟩

end

/-- Settles O23: the kinds of step one by one (`step_effect`); of the clock edges a reset clears both. -/
theorem timeCountsTicksOnly : Obligations.TimeCountsTicksOnly := by
  intro s t h
  obtain ⟨p, hp, hr, rfl⟩ | ⟨p, p', hp, hr, -, -, -, he, -⟩ | ⟨w, i, hn, -, he⟩ | ⟨w, c, hn, -, rfl⟩ |
    ⟨us, hn, rfl⟩ | ⟨hn, rfl⟩ | ⟨hn, rfl⟩ := step_effect h
  · obtain hn | hn := clockPins_eq_some.mp hp <;> rw [hn] <;> exact (if_pos hr).mpr ⟨rfl, rfl⟩
  · have hrun : ¬ p.rst = true := by simp [hr]
    obtain hn | hn := clockPins_eq_some.mp hp <;> rw [hn] <;> exact (if_neg hrun).mpr (timebase_edge he)
  · obtain ⟨-, htime, husDiv, -⟩ := exec_frame he
    rw [hn]
    exact ⟨husDiv, htime⟩
  · rw [hn]; exact ⟨rfl, rfl⟩
  · rw [hn]; exact ⟨rfl, rfl⟩
  · rw [hn]; exact wordDone_timebase s.popStim
  · rw [hn]; exact holdExpires_timebase s.popStim

end Sys2Proof.Machine
end

section
/-! A channel's flag and timestamp (10_state R19, R20) at each kind of step: at a clock edge, by a trace word
run alone, and by the other steps of the operation level, which touch no channel. -/

namespace Sys2Proof.Machine

section
variable {s t : State} {c : Ch}

theorem racing_atomic (h : s.params.handoff = .atomic) (taken accepted : Bool) :
    racing c taken accepted s = false := by
  simp [racing, h]

/-- Every accepted edge came after the window (40_button_input R81). -/
theorem window_of_acceptedAt {lvl : Bool} {ev : Option Bool} (h : acceptedAt c lvl ev s = true) :
    200000 < (s.time - (s.ch c).lastTs).toNat := by
  cases ev with
  | none =>
    rw [acceptedAt_none, edgeTaken, Bool.and_eq_true] at h
    exact ((edgeAccepted_iff ..).mp h.2).1
  | some l =>
    rw [acceptedAt_some, edgeTaken, Bool.or_eq_true, Bool.and_eq_true] at h
    obtain ⟨-, h⟩ | h := h <;> exact ((edgeAccepted_iff ..).mp h).1

/-- How one step may move a channel's flag and timestamp (10_state R19, R20), where `accepts` says that an edge
is accepted at it and `takes` that the flag is taken: up and on by an accepted edge, down by a take. -/
def FlagMoves (s t : State) (c : Ch) (accepts takes : Bool) : Prop :=
  ((t.ch c).lastTs ≠ (s.ch c).lastTs ∨ ((s.ch c).pend = false ∧ (t.ch c).pend = true) →
    accepts = true ∧ 200000 < (s.time - (s.ch c).lastTs).toNat ∧
      (t.ch c).lastTs = s.time ∧ (t.ch c).pend = true) ∧
  ((s.ch c).pend = true → (t.ch c).pend = false →
    takes = true ∧ t.reply = { ready := true, err := false, rdata := 1#32 })

theorem flagMoves_of_ch_eq (h : t.ch c = s.ch c) (accepts takes : Bool) :
    FlagMoves s t c accepts takes := by
  rw [FlagMoves, h]
  refine ⟨?_, fun h1 h0 => absurd (h1.symm.trans h0) (by decide)⟩
  rintro (h | ⟨h0, h1⟩)
  · exact absurd rfl h
  · exact absurd (h0.symm.trans h1) (by decide)

theorem flagMoves_edge {p : PinIn} {e : Events} (ha : s.params.handoff = .atomic)
    (he : EdgeEffect p e s t) :
    FlagMoves s t c (acceptedAt c (p.btn c) (e.ch c) s) (p.takes c) := by
  have hts := he.lastTs c
  have hpend := he.pend c (racing_atomic ha _ _)
  unfold FlagMoves
  cases hacc : acceptedAt c (p.btn c) (e.ch c) s with
  | true =>
    simp only [hacc, if_true, Bool.true_or] at hts hpend
    exact ⟨fun _ => ⟨rfl, window_of_acceptedAt hacc, hts, hpend⟩,
      fun _ h0 => absurd (hpend.symm.trans h0) (by decide)⟩
  | false =>
    simp only [hacc, Bool.false_eq_true, if_false, Bool.false_or] at hts hpend
    constructor
    · rintro (h | ⟨h0, h1⟩)
      · exact absurd hts h
      · simp [hpend, h0] at h1
    · intro h1 h0
      rw [hpend, h1, Bool.true_and, Bool.not_eq_false'] at h0
      exact ⟨h0, by rw [he.taken c h0, h1]; rfl⟩

theorem flagMoves_take (s : State) (accepts : Bool) : FlagMoves s (take c s) c accepts true := by
  have hch := take_ch_self c s
  refine ⟨?_, fun h1 _ => ⟨rfl, by rw [take_reply, h1]; rfl⟩⟩
  rintro (h | ⟨-, h1⟩)
  · simp [hch] at h
  · simp [hch] at h1

theorem flagMoves_edgeHandle (s : State) (lvl takes : Bool) :
    FlagMoves s (edgeHandle c s.time lvl s) c (edgeAccepted (s.ch c) s.time lvl) takes := by
  have hch := edgeHandle_ch_self c s.time lvl s
  cases hacc : edgeAccepted (s.ch c) s.time lvl with
  | true =>
    rw [hacc, if_pos rfl] at hch
    refine ⟨fun _ => ⟨rfl, ((edgeAccepted_iff ..).mp hacc).1, by rw [hch], by rw [hch]⟩, ?_⟩
    intro _ h0
    simp [hch] at h0
  | false =>
    rw [hacc, if_neg Bool.false_ne_true] at hch
    exact flagMoves_of_ch_eq hch _ _

/-- At a clock edge without reset the statement's edge is the one the pins and the trace give. -/
theorem acceptsAhead_clock {p p' : PinIn} (hp : s.nextStimulus.clockPins = some p)
    (hr : p.rst = false) (hb : p'.btn c = p.btn c) :
    acceptsAhead s c = acceptedAt c (p'.btn c) ((eventsAhead s).ch c) s := by
  simp only [acceptsAhead, hp, hr, hb, Bool.not_false, Bool.true_and]

theorem instrAhead_op {w : TraceWord} {i : Instr} (hn : s.nextStimulus = .op w)
    (hd : decode w = .ok i) : instrAhead s = some i := by
  simp only [instrAhead, wordAhead, hn, hd]

/-- The edge of an EDGE run alone. -/
theorem acceptsAhead_op {w : TraceWord} {lvl : Bool} (hn : s.nextStimulus = .op w)
    (hd : decode w = .ok (edgeOf c lvl)) :
    acceptsAhead s c = edgeAccepted (s.ch c) s.time lvl := by
  cases c <;> simp only [acceptsAhead, instrAhead_op hn hd, hn, Stimulus.clockPins, edgeOf] <;> rfl

/-- An operation run alone (log entry 7). -/
theorem flagMoves_op {w : TraceWord} {i : Instr} (hn : s.nextStimulus = .op w)
    (hd : decode w = .ok i) (he : exec i s.popStim = .next t) :
    FlagMoves s t c (acceptsAhead s c) (takesAhead s c) := by
  obtain ⟨rfl, rfl⟩ | ⟨lvl, rfl, rfl⟩ | hc := exec_ch_cases he c
  · have htakes : takesAhead s c = true := by simp [takesAhead, instrAhead_op hn hd]
    have h := flagMoves_take (c := c) s.popStim (acceptsAhead s c)
    rw [htakes]
    simpa only [FlagMoves, State.popStim_ch, State.popStim_time] using h
  · have h := flagMoves_edgeHandle (c := c) s.popStim lvl (takesAhead s c)
    rw [acceptsAhead_op hn hd]
    simpa only [FlagMoves, State.popStim_ch, State.popStim_time] using h
  · exact flagMoves_of_ch_eq (by simpa using hc) _ _

end

/-- Settles O29: a clock edge by `EdgeEffect`, an operation run alone by its own effect on the channel; the other
steps without reset leave every channel as it was. -/
theorem onlyAcceptedEdgesSetAndOnlyTakesClear : Obligations.OnlyAcceptedEdgesSetAndOnlyTakesClear := by
  intro s t c ha h hreset
  change FlagMoves s t c (acceptsAhead s c) (takesAhead s c)
  obtain ⟨p, hp, hr, -⟩ | ⟨p, p', hp, hr, hp', hr', hb, he, -⟩ | ⟨w, i, hn, hd, he⟩ |
    ⟨w, k, -, -, rfl⟩ | ⟨us, -, rfl⟩ | ⟨-, rfl⟩ | ⟨-, rfl⟩ := step_effect h
  · simp [resetAhead, hp, hr] at hreset
  · rw [acceptsAhead_clock hp hr (hb c), takesAhead_clock hp hp' hr']
    exact flagMoves_edge ha he
  · exact flagMoves_op hn hd he
  · exact flagMoves_of_ch_eq (by simp [raiseBusError]) _ _
  · exact flagMoves_of_ch_eq (by simp) _ _
  · exact flagMoves_of_ch_eq (by simp) _ _
  · exact flagMoves_of_ch_eq (by simp) _ _

end Sys2Proof.Machine
end

section
/-! The block as a function of its state and the input (10_state R38), and its answers as a function of what the
host sees of it (R27). -/

namespace Sys2Proof.Machine

section
variable {p q : PinIn} {s t : State}

/-- The answer of a clock edge is that of its transaction, and of an idle port at a reset. -/
theorem clockEdge_reply (h : SeenAlike s t) (hr : p.rst = q.rst) (hx : p.xact = q.xact) :
    ∃ s' t', clockEdge p s = .next s' ∧ clockEdge q t = .next t' ∧ s'.reply = t'.reply := by
  cases hp : p.rst with
  | true => exact ⟨_, _, clockEdge_reset p s hp, clockEdge_reset q t (hr ▸ hp), rfl⟩
  | false =>
    obtain ⟨u, v, hu, hv, huv⟩ := portStep_reply p h hx
    refine ⟨hardwareEvents p s u, hardwareEvents q t v, ?_, ?_, by simpa using huv⟩
    · simp [clockEdge, hp, hu]
    · simp [clockEdge, ← hr, hp, hv]

/-- The visible state (10_state R27) fixes the flags and the status words. -/
theorem seenAlike_of_visible (hparams : s.params = t.params)
    (hpend : ∀ c, (s.ch c).pend = (t.ch c).pend) (hlen : s.txq.length = t.txq.length)
    (hbusy : s.shBusy = t.shBusy) (hblink : s.blinkBusy = t.blinkBusy)
    (hout : s.statusOut = t.statusOut) (hcnt : s.blinkCnt = t.blinkCnt) : SeenAlike s t where
  params := by rw [hparams]
  full := by rw [State.full, State.full, hlen, hparams]
  pend := hpend
  tx := by simp only [State.txStatWord, State.full, State.empty, hlen, hbusy, hparams]
  blink := by simp only [State.blinkStatWord, hcnt, hout, hblink]

theorem seenAlike_of_block (h : s.block = t.block) : SeenAlike s t := by
  rw [State.block_eq h]
  exact seenAlike_of_visible rfl (fun c => by cases c <;> rfl) rfl rfl rfl rfl rfl

/-- With `HANDOFF = atomic` a clock edge takes one block to one block. -/
theorem clockEdge_block (h : s.block = t.block) (ha : s.params.handoff = .atomic) :
    ∃ s' t', clockEdge p s = .next s' ∧ clockEdge p t = .next t' ∧ s'.block = t'.block := by
  cases hp : p.rst with
  | true =>
    have hparams : s.params = t.params := (congrArg State.params h :)
    refine ⟨_, _, clockEdge_reset p s hp, clockEdge_reset p t hp, ?_⟩
    change (State.resetWith s.params).block = (State.resetWith t.params).block
    rw [hparams]
  | false =>
    obtain ⟨s', hs, hes, -⟩ := clockEdge_run p s hp
    obtain ⟨t', ht, het, -⟩ := clockEdge_run p t hp
    exact ⟨s', t', hs, ht, hes.block_unique (het.of_block h) (fun _ => rfl) (fun _ => rfl)
      (fun _ => racing_atomic ha _ _) rfl rfl⟩

end

/-- Settles O48: the next block is one (`clockEdge_block`), the answer is one since the two blocks look alike
(`clockEdge_reply`), and the two pins are elements of the block. -/
theorem blockIsAFunctionOfStateAndInput : Obligations.BlockIsAFunctionOfStateAndInput := by
  intro p s t h ha
  obtain ⟨s', t', hs, ht, hblock⟩ := clockEdge_block (p := p) h ha
  obtain ⟨s'', t'', hs', ht', hreply⟩ := clockEdge_reply (seenAlike_of_block h) (p := p) rfl rfl
  cases hs.symm.trans hs'
  cases ht.symm.trans ht'
  exact ⟨s', t', hs, ht, hblock, hreply, (congrArg dout hblock :),
    (congrArg State.statusOut hblock :)⟩

/-- Settles O54: the visible state fixes all that an answer follows. -/
theorem answersShowVisibleStateOnly : Obligations.AnswersShowVisibleStateOnly :=
  fun _ _ _ _ hr hx hparams hpend hlen hbusy hblink hout hcnt =>
    clockEdge_reply (seenAlike_of_visible hparams hpend hlen hbusy hblink hout hcnt) hr hx

end Sys2Proof.Machine
end

section
/-! The two encodings (30_encoding R61 to R70): the decoder answers by the top byte of a transaction and by the low
bits of an event, and these are what the rows of the opcode table test. -/

namespace Sys2Proof

/-! ## Decode of encode -/

/-- The decoder reads the operation back, with every operand at every value. -/
theorem decode_encode (i : Instr) : decode (encode i) = .ok i := by
  cases i with
  | txPush w => exact decode_pack true 0x08#5 w
  | edgeInc lvl => cases lvl <;> rfl
  | edgeDec lvl => cases lvl <;> rfl
  | _ => rfl

/-- The canonical word of every operation is an input of the block. -/
theorem encode_wellFormed (i : Instr) : (encode i).wellFormed = true := by
  cases i with
  | edgeInc lvl => exact Laws.EncodedWellFormed.evt_wellFormed _ _
  | edgeDec lvl => exact Laws.EncodedWellFormed.evt_wellFormed _ _
  | _ => exact Laws.EncodedWellFormed.xact_wellFormed _ _ _

/-- Settles O9: every word of the encoder is an input of the block, and the decoder reads its operation back. -/
theorem decodeOfEncode : Obligations.DecodeOfEncode := fun i _ => ⟨encode_wellFormed i, decode_encode i⟩

/-! ## The top byte of a transaction -/

theorem bitVec_append_inj {m n : Nat} {a b : BitVec m} {c d : BitVec n} :
    a ++ c = b ++ d ↔ a = b ∧ c = d := by
  constructor
  · intro h
    have hhigh := congrArg (BitVec.extractLsb' n m) h
    have hlow := congrArg (BitVec.extractLsb' 0 n) h
    rw [BitVec.extractLsb'_append_eq_left, BitVec.extractLsb'_append_eq_left] at hhigh
    rw [BitVec.extractLsb'_append_eq_right, BitVec.extractLsb'_append_eq_right] at hlow
    exact ⟨hhigh, hlow⟩
  · rintro ⟨rfl, rfl⟩; rfl

section
variable {v : BitVec 40}

/-- The top byte is `{we, rsv, addr}` (R61). -/
theorem topByte_eq (v : BitVec 40) :
    v.extractLsb' 32 8 = BitVec.ofBool (xactWe v) ++ (xactRsv v ++ xactAddr v) := by
  have hwe : BitVec.ofBool (xactWe v) = v.extractLsb' 39 1 := by
    ext i hi
    obtain rfl : i = 0 := by omega
    simp [xactWe]
  rw [hwe, xactRsv, xactAddr,
    BitVec.extractLsb'_append_extractLsb'_eq_extractLsb' (start₁ := 32) (start₂ := 37) rfl,
    BitVec.extractLsb'_append_extractLsb'_eq_extractLsb' (start₁ := 32) (start₂ := 39) rfl]

/-- A top byte fixes the three fields. -/
theorem topByte_eq_iff {we : Bool} {a : BitVec 5} :
    v.extractLsb' 32 8 = BitVec.ofBool we ++ (0#2 ++ a) ↔
      xactWe v = we ∧ xactRsv v = 0#2 ∧ xactAddr v = a := by
  rw [topByte_eq, bitVec_append_inj, bitVec_append_inj]
  cases xactWe v <;> cases we <;> simp

/-- The operations of the transactions: one case a row of R68, told apart by the top byte and, in two of them, by
bit 0 of `wdata`. -/
theorem decode_xact_iff {i : Instr} : decode (.xact v) = .ok i ↔
    (v.extractLsb' 32 8 = 0x00#8 ∧ i = .takeInc) ∨
    (v.extractLsb' 32 8 = 0x04#8 ∧ i = .takeDec) ∨
    (v.extractLsb' 32 8 = 0x88#8 ∧ i = .txPush (xactWdata v)) ∨
    (v.extractLsb' 32 8 = 0x0C#8 ∧ i = .txStat) ∨
    (v.extractLsb' 32 8 = 0x90#8 ∧ (xactWdata v).getLsbD 0 = true ∧ i = .blinkStart) ∨
    (v.extractLsb' 32 8 = 0x90#8 ∧ (xactWdata v).getLsbD 0 = false ∧ i = .blinkNop) ∨
    (v.extractLsb' 32 8 = 0x10#8 ∧ i = .blinkStat) := by
  constructor
  · intro h
    by_cases hr : xactRsv v = 0#2
    · have htop : ∀ we a, xactWe v = we → xactAddr v = a →
          v.extractLsb' 32 8 = BitVec.ofBool we ++ (0#2 ++ a) :=
        fun we a hw ha => topByte_eq_iff.mpr ⟨hw, hr, ha⟩
      simp only [decode, decodeXact, hr, ne_eq, not_true_eq_false, if_false] at h
      obtain ⟨c, hd⟩ | ⟨hw, ha, hd⟩ | ⟨hw, ha, hd⟩ | ⟨hw, ha, hd⟩ | ⟨hw, ha, hd⟩ | ⟨hw, ha, hb, hd⟩ |
        ⟨hw, ha, hb, hd⟩ | ⟨hw, ha, hd⟩ := decodeAccess_cases (xactWe v) (xactAddr v) (xactWdata v) <;>
        cases hd.symm.trans h
      · exact .inl ⟨htop _ _ hw ha, rfl⟩
      · exact .inr (.inl ⟨htop _ _ hw ha, rfl⟩)
      · exact .inr (.inr (.inl ⟨htop _ _ hw ha, rfl⟩))
      · exact .inr (.inr (.inr (.inl ⟨htop _ _ hw ha, rfl⟩)))
      · exact .inr (.inr (.inr (.inr (.inl ⟨htop _ _ hw ha, hb, rfl⟩))))
      · exact .inr (.inr (.inr (.inr (.inr (.inl ⟨htop _ _ hw ha, hb, rfl⟩)))))
      · exact .inr (.inr (.inr (.inr (.inr (.inr ⟨htop _ _ hw ha, rfl⟩)))))
    · simp [decode, decodeXact, hr] at h
  · have hdec : ∀ we a, v.extractLsb' 32 8 = BitVec.ofBool we ++ (0#2 ++ a) →
        decode (.xact v) = decodeAccess we a (xactWdata v) := by
      intro we a h
      obtain ⟨rfl, hr, rfl⟩ := topByte_eq_iff.mp h
      simp [decode, decodeXact, hr]
    rintro (⟨h, rfl⟩ | ⟨h, rfl⟩ | ⟨h, rfl⟩ | ⟨h, rfl⟩ | ⟨h, hb, rfl⟩ | ⟨h, hb, rfl⟩ | ⟨h, rfl⟩)
    · exact hdec false 0x00#5 h
    · exact hdec false 0x04#5 h
    · exact hdec true 0x08#5 h
    · exact hdec false 0x0C#5 h
    · exact (hdec true 0x10#5 h).trans (if_pos hb)
    · exact (hdec true 0x10#5 h).trans (if_neg (Bool.eq_false_iff.mp hb))
    · exact hdec false 0x10#5 h

/-- Settles O12: the six top bytes are those of the cases of `decode_xact_iff`; at 0x90 one of the two applies. -/
theorem legalTopBytesAreSix : Obligations.LegalTopBytesAreSix := by
  intro v
  simp only [List.mem_cons, List.not_mem_nil, or_false]
  constructor
  · rintro ⟨i, h⟩
    obtain ⟨h, -⟩ | ⟨h, -⟩ | ⟨h, -⟩ | ⟨h, -⟩ | ⟨h, -⟩ | ⟨h, -⟩ | ⟨h, -⟩ := decode_xact_iff.mp h <;> simp [h]
  · rintro (h | h | h | h | h | h)
    · exact ⟨.takeInc, decode_xact_iff.mpr (.inl ⟨h, rfl⟩)⟩
    · exact ⟨.takeDec, decode_xact_iff.mpr (.inr (.inl ⟨h, rfl⟩))⟩
    · exact ⟨.txPush _, decode_xact_iff.mpr (.inr (.inr (.inl ⟨h, rfl⟩)))⟩
    · exact ⟨.txStat, decode_xact_iff.mpr (.inr (.inr (.inr (.inl ⟨h, rfl⟩))))⟩
    · obtain hb | hb := Bool.eq_false_or_eq_true ((xactWdata v).getLsbD 0)
      · exact ⟨.blinkStart, decode_xact_iff.mpr (.inr (.inr (.inr (.inr (.inl ⟨h, hb, rfl⟩)))))⟩
      · exact ⟨.blinkNop, decode_xact_iff.mpr (.inr (.inr (.inr (.inr (.inr (.inl ⟨h, hb, rfl⟩))))))⟩
    · exact ⟨.blinkStat, decode_xact_iff.mpr (.inr (.inr (.inr (.inr (.inr (.inr ⟨h, rfl⟩))))))⟩

/-! ## The rows of the opcode table (R68) -/

/-- A row whose mask has all of the top byte tests the top byte and the masked `wdata`. -/
theorem and_topMask_iff {b : BitVec 8} {m c : Word} :
    v &&& (0xFF#8 ++ m) = b ++ c ↔ v.extractLsb' 32 8 = b ∧ xactWdata v &&& m = c := by
  have hv : v.extractLsb' 32 8 ++ xactWdata v = v := by
    rw [xactWdata, BitVec.extractLsb'_append_extractLsb'_eq_extractLsb' (start₁ := 0) (start₂ := 32) rfl]
    exact BitVec.extractLsb'_eq_self
  conv_lhs => rw [← hv, BitVec.and_append, bitVec_append_inj]
  rw [show (0xFF#8 : BitVec 8) = BitVec.allOnes 8 from rfl, BitVec.and_allOnes]

theorem and_one_eq_one_iff {w : Word} : w &&& 1#32 = 1#32 ↔ w.getLsbD 0 = true := by
  rw [BitVec.and_one_eq_setWidth_ofBool_getLsbD]
  cases w.getLsbD 0 <;> decide

theorem and_one_eq_zero_iff {w : Word} : w &&& 1#32 = 0#32 ↔ w.getLsbD 0 = false := by
  rw [BitVec.and_one_eq_setWidth_ofBool_getLsbD]
  cases w.getLsbD 0 <;> decide

/-- The decoder reads an operation exactly from a row that the value selects. -/
theorem decode_xact_iff_row {i : Instr} : decode (.xact v) = .ok i ↔
    ∃ r ∈ opcodeRows, v &&& r.mask = r.value ∧ r.instr (v.extractLsb' 0 32) = i := by
  have htop : ∀ b : BitVec 8, v &&& 0xFF00000000#40 = b ++ 0#32 ↔ v.extractLsb' 32 8 = b :=
    fun _ => (and_topMask_iff (m := 0#32)).trans (by simp)
  have hone : v &&& 0xFF00000001#40 = 0x9000000001#40 ↔
      v.extractLsb' 32 8 = 0x90#8 ∧ (xactWdata v).getLsbD 0 = true :=
    (and_topMask_iff (v := v) (b := 0x90#8) (m := 1#32) (c := 1#32)).trans
      (and_congr_right fun _ => and_one_eq_one_iff)
  have hzero : v &&& 0xFF00000001#40 = 0x9000000000#40 ↔
      v.extractLsb' 32 8 = 0x90#8 ∧ (xactWdata v).getLsbD 0 = false :=
    (and_topMask_iff (v := v) (b := 0x90#8) (m := 1#32) (c := 0#32)).trans
      (and_congr_right fun _ => and_one_eq_zero_iff)
  have h00 : v &&& 0xFF00000000#40 = 0x0000000000#40 ↔ v.extractLsb' 32 8 = 0x00#8 := htop 0x00#8
  have h04 : v &&& 0xFF00000000#40 = 0x0400000000#40 ↔ v.extractLsb' 32 8 = 0x04#8 := htop 0x04#8
  have h88 : v &&& 0xFF00000000#40 = 0x8800000000#40 ↔ v.extractLsb' 32 8 = 0x88#8 := htop 0x88#8
  have h0C : v &&& 0xFF00000000#40 = 0x0C00000000#40 ↔ v.extractLsb' 32 8 = 0x0C#8 := htop 0x0C#8
  have h10 : v &&& 0xFF00000000#40 = 0x1000000000#40 ↔ v.extractLsb' 32 8 = 0x10#8 := htop 0x10#8
  simp only [decode_xact_iff, opcodeRows, List.mem_cons, List.not_mem_nil, or_false, exists_eq_or_imp,
    exists_eq_left, h00, h04, h88, h0C, h10, hone, hzero, and_assoc, eq_comm (b := i), xactWdata]

/-- Two rows share no value if their matches differ in a bit that both masks keep. -/
theorem rows_disjoint {r q : OpcodeRow} (h : r.value &&& q.mask ≠ q.value &&& r.mask) (v : BitVec 40) :
    ¬ (v &&& r.mask = r.value ∧ v &&& q.mask = q.value) := by
  rintro ⟨hr, hq⟩
  rw [← hr, ← hq, BitVec.and_assoc, BitVec.and_assoc, BitVec.and_comm r.mask] at h
  exact h rfl

theorem opcodeRows_disjoint :
    opcodeRows.Pairwise fun r q => ∀ v : BitVec 40, ¬ (v &&& r.mask = r.value ∧ v &&& q.mask = q.value) := by
  have h : opcodeRows.Pairwise fun r q => r.value &&& q.mask ≠ q.value &&& r.mask := by decide
  exact h.imp rows_disjoint

end

/-! ## Events (R63, R64, R68) -/

/-- An event is an operation exactly with `rise = 0` and `fall = 1`. -/
theorem decodeEvt_iff {e : BitVec 4} {i : Instr} : decodeEvt e = .ok i ↔
    evtRise e = false ∧ evtFall e = true ∧
      ((evtLine e = .inc ∧ i = .edgeInc (evtLvl e)) ∨ (evtLine e = .dec ∧ i = .edgeDec (evtLvl e))) := by
  unfold decodeEvt
  cases evtRise e <;> cases evtFall e <;> cases evtLine e <;> simp [eq_comm]

theorem evtMask_iff (e : BitVec 4) :
    (e &&& 0x7#4 = 0x1#4 ↔ evtRise e = false ∧ evtFall e = true ∧ evtLine e = .inc) ∧
    (e &&& 0x7#4 = 0x5#4 ↔ evtRise e = false ∧ evtFall e = true ∧ evtLine e = .dec) := by
  revert e; decide

/-- Settles O10: the seven rows by `decode_xact_iff_row`, disjoint by their values and masks; the two rows of
the events by the fields their mask keeps. -/
theorem decoderFollowsTheOpcodeTable : Obligations.DecoderFollowsTheOpcodeTable := by
  refine ⟨fun v i => decode_xact_iff_row, opcodeRows_disjoint, fun e i => ?_⟩
  obtain ⟨hinc, hdec⟩ := evtMask_iff e
  rw [hinc, hdec, decode, decodeEvt_iff]
  simp only [evtLvl, and_assoc, and_or_left]

/-- Settles O13: each word by running the decoder on it. -/
theorem specWordsDecode : Obligations.SpecWordsDecode :=
  ⟨rfl, rfl, rfl, rfl, rfl, rfl, rfl, rfl, rfl, rfl, rfl⟩

end Sys2Proof
end

section
/-! One step and the word it runs (20_memory R44, 30_encoding R62, R64, R74; log entries 7 and 16): a word run alone,
the word of the pins, the word of the trace's line that is due. -/

namespace Sys2Proof.Machine

section
variable {s t : State} {p : PinIn} {i : Instr} {w : TraceWord}

theorem step_op (hn : s.nextStimulus = .op w) : step s = runWord w s.popStim := by
  simp only [step, hn]

theorem runWord_ok (hd : decode w = .ok i) : runWord w s = exec i s := by
  simp only [runWord, hd]

theorem runWord_error {e : DecodeError} (hd : decode w = .error e) : runWord w s = rejectWord e s := by
  simp only [runWord, hd]

/-- A transaction word that is an operation has `rsv` = 00 (R62). -/
theorem xactRsv_of_decode {v : BitVec 40} (hd : decode (.xact v) = .ok i) : xactRsv v = 0#2 := by
  by_contra hr
  simp [decode, decodeXact, hr] at hd

theorem portStep_sel (hsel : p.sel = true) :
    portStep p s = runWord (.xact (packXact p.we p.addr p.wdata)) s := by
  simp [portStep, PinIn.xact, hsel]

theorem portStep_idle (hsel : p.sel = false) : portStep p s = .next (s.answer Reply.idle) := by
  simp [portStep, PinIn.xact, hsel]

/-- The pins that present a word of `rsv` = 00 form that word. -/
theorem portStep_present {v : BitVec 40} (hr : xactRsv v = 0#2) :
    portStep (p.present v) s = runWord (.xact v) s := by
  rw [portStep_sel rfl]
  exact congrArg (fun x => runWord (.xact x) s) (pack_of_rsv hr)

/-! ## A clock edge with a trace and no host program -/

theorem prepared_idle (hh : s.host.program = []) : prepared s = s.popStim :=
  prepared_eq (by simp [hostPrepare, hh])

theorem hostAdvance_idle {h : HostState} (hh : h.program = []) (r : Reply) : hostAdvance r h = h := by
  simp only [hostAdvance, hh]

theorem pinsAhead_traced (hh : s.host.program = []) (hn : s.nextStimulus = .traced p) :
    pinsAhead s = some ((traceDue s.popStim).pins p) := by
  simp only [pinsAhead, hn, prepared_idle hh, hostPins_idle (show s.popStim.host.program = [] from hh)]

theorem eventsAhead_traced (hh : s.host.program = []) (hn : s.nextStimulus = .traced p) :
    eventsAhead s = (traceDue s.popStim).events := by
  simp only [eventsAhead, hn, prepared_idle hh]

/-- The trace's transaction runs, the hardware's events and the trace's follow, and the trace keeps what did not
happen. -/
theorem step_traced {d : Due} (hh : s.host.program = []) (hn : s.nextStimulus = .traced p)
    (hr : p.rst = false) (hd : traceDue s.popStim = d) :
    ∃ u, portStep (d.pins p) s.popStim = .next u ∧
      step s = .next
        { handleEvents (d.pins p) d.events s.popStim (hardwareEvents (d.pins p) s.popStim u) with
          trace := d.left u.reply.ready } := by
  obtain ⟨u, hu, he⟩ := portStep_answers (d.pins p) s.popStim
  have hprep : hostPrepare s.popStim = .ok s.popStim := by simp [hostPrepare, hh]
  have hedge : clockEdge (d.pins p) s.popStim = .next (hardwareEvents (d.pins p) s.popStim u) := by
    simp [clockEdge, hr, hu]
  have hhost : u.host.program = [] := by rw [he.host]; exact hh
  refine ⟨u, hu, ?_⟩
  simp [step, hn, tracedStep, hprep, hostPins_idle hh, hd, hedge, hr, hostNext, hostAdvance_idle hhost]

end

/-- Settles O8: the decoder names the reserved encodings, and a reserved word run alone is refused by that name. -/
theorem reservedWordsAreRefused : Obligations.ReservedWordsAreRefused := by
  constructor
  · intro s v hn hrsv
    have hd : decode (.xact v) = .error .reservedXact := if_pos hrsv
    rw [step_op hn, runWord_error hd]
    rfl
  · intro s e hn hbits
    have hd : decode (.evt e) = .error .reservedEvt := if_pos hbits.symm
    rw [step_op hn, runWord_error hd]
    rfl

/-- Settles O7: at a clock edge `portStep` runs the word of the pins or of the trace's line, and the rest of the
edge follows (`step_edge_pins`, `step_traced`); a word alone is run as it stands. -/
theorem stepRunsTheDecodedOperation : Obligations.StepRunsTheDecodedOperation := by
  refine ⟨?_, ?_, ?_, ?_⟩
  · intro s t p i hn hr hh hsel hd hexec
    obtain ⟨u, hu, -, hstep, -⟩ := step_edge_pins hh hn hr
    rw [portStep_sel hsel, runWord_ok hd, hexec] at hu
    cases hu
    exact hstep
  · intro s p hn hr hh hsel
    obtain ⟨u, hu, -, hstep, -⟩ := step_edge_pins hh hn hr
    rw [portStep_idle hsel] at hu
    cases hu
    exact hstep
  · intro s t p l v i hn hr hh d hline hword hd hexec
    obtain ⟨u, hu, hstep⟩ := step_traced hh hn hr (d := d) rfl
    have hpins : d.pins p = p.present v := by simp only [Due.pins, hline, hword]
    rw [hpins, portStep_present (xactRsv_of_decode hd), runWord_ok hd, hexec] at hu
    cases hu
    exact hstep
  · intro s w i hn hd
    rw [step_op hn, runWord_ok hd]

end Sys2Proof.Machine
end

section
/-! The lines of a trace at a clock edge (30_encoding R74; log entry 16): the trace is cut at one of its lines, what
the lines before it leave is known (`Due.before`), and what the line itself does stays settled behind it. -/

namespace Sys2Proof.Machine

/-! ## One transaction line -/

section
variable {s : State} {first : Bool} {d : Due} {l : TimedLine}

theorem Due.add_transaction (ht : isTransaction l = true) (hfree : d.free = true)
    (hdue : lineDue s first l = true) :
    d.add s first l = { d with line := some l, free := false, kept := d.kept ++ [l] } := by
  obtain ⟨v, hv⟩ := isTransaction_iff.mp ht
  simp [Due.add, hv, hfree, hdue]

theorem Due.add_transaction_waits (ht : isTransaction l = true)
    (hwait : d.free = false ∨ lineDue s first l = false) :
    d.add s first l = { d.keep l with free := false } := by
  obtain ⟨v, hv⟩ := isTransaction_iff.mp ht
  obtain h | h := hwait <;> simp [Due.add, hv, h]

theorem Due.pins_of_line_none (p : PinIn) (h : d.line = none) : d.pins p = { p with sel := false } := by
  simp only [Due.pins, h]

theorem Due.pins_of_line {v : BitVec 40} (p : PinIn) (h : d.line = some l) (hv : l.line.word = .xact v) :
    d.pins p = p.present v := by
  simp only [Due.pins, h, hv]

/-! ## Behind a line -/

/-- What the lines before leave, and some of the lines behind in their order. -/
theorem Due.walk_left_eq (s : State) (d : Due) (a : List TimedLine) (ready : Bool) :
    ∃ a', (Due.walk s false d a).left ready = d.left ready ++ a' ∧ a'.Sublist a := by
  obtain ⟨r, k, hrest, hkept, hr, hk, -⟩ := Due.walk_cases s d a
  cases ready
  · exact ⟨k, hkept, hk⟩
  · exact ⟨r, hrest, hr⟩

theorem Due.mem_walk_left {ready : Bool} (h : l ∈ d.left ready) (a : List TimedLine) :
    l ∈ (Due.walk s false d a).left ready := by
  obtain ⟨a', ha', -⟩ := Due.walk_left_eq s d a ready
  rw [ha']
  exact List.mem_append_left _ h

theorem Due.mem_left_keep (d : Due) (l : TimedLine) (ready : Bool) : l ∈ (d.keep l).left ready := by
  cases ready <;> simp [Due.keep]

end

/-! ## Before a line -/

/-- What the lines `b` at the head of the trace do at the coming clock edge. -/
def Due.before (s : State) (b : List TimedLine) : Due :=
  Due.walk s true
    { line := none, free := s.host.program.isEmpty, events := Events.empty, rest := [], kept := [] } b

section
variable {s : State} {b a : List TimedLine} {l : TimedLine} {c : Ch} {lvl : Bool}

theorem traceDue_eq_before (s : State) : traceDue s = Due.before s s.trace := rfl

theorem traceDue_cut (hcut : s.trace = b ++ l :: a) :
    traceDue s = Due.walk s false ((Due.before s b).add s b.isEmpty l) a := by
  rw [traceDue_eq_before, Due.before, hcut, Due.walk_append, Due.walk, Bool.true_and, Due.before]

theorem Due.before_left_sublist (s : State) (b : List TimedLine) (ready : Bool) :
    ((Due.before s b).left ready).Sublist b := by
  obtain ⟨r, k, hrest, hkept, hr, hk⟩ := Due.walk_sublist s true _ b
  cases ready
  · rw [Due.left_stalled, Due.before, hkept]; exact hk
  · rw [Due.left_ready, Due.before, hrest]; exact hr

theorem Due.before_free (hh : s.host.program = []) :
    (Due.before s b).free = b.all fun m => !isTransaction m := by
  rw [Due.before, Due.walk_free, hh]
  rfl

theorem Due.before_line (h : b.all (fun m => !isTransaction m) = true) : (Due.before s b).line = none :=
  Due.walk_line s true _ b h

theorem Due.before_event_isSome : ((Due.before s b).events.ch c).isSome = true ↔ HasDueEdge s true c b := by
  rw [Due.before, (Due.walk_events s true _ b c).1]
  simp

/-- An event comes from a due EDGE line. -/
theorem Due.before_event (h : (Due.before s b).events.ch c = some lvl) :
    ∃ b' m a', b = b' ++ m :: a' ∧ m.line = .edge c lvl ∧ lineDue s b'.isEmpty m = true := by
  obtain h0 | ⟨b', m, a', hb, hm, hdue⟩ := (Due.walk_events s true _ b c).2 lvl h
  · simp at h0
  · exact ⟨b', m, a', hb, hm, by simpa using hdue⟩

/-! ## The line at the cut -/

theorem traceDue_keeps_early (hcut : s.trace = b ++ l :: a) (hdue : lineDue s b.isEmpty l = false)
    (ready : Bool) : l ∈ (traceDue s).left ready := by
  obtain ⟨r, k, hrest, hkept, -, -, -, -, hkeep⟩ := Due.add_cases s b.isEmpty (Due.before s b) l
  obtain ⟨rfl, rfl⟩ := hkeep hdue
  rw [traceDue_cut hcut]
  exact Due.mem_walk_left (by cases ready <;> simp [hrest, hkept]) a

/-- A transaction behind another waits. -/
theorem traceDue_keeps_later_transaction (hcut : s.trace = b ++ l :: a) (hh : s.host.program = [])
    (ht : isTransaction l = true) (hb : b.all (fun m => !isTransaction m) = false) (ready : Bool) :
    l ∈ (traceDue s).left ready := by
  have hfree := (Due.before_free (b := b) hh).trans hb
  rw [traceDue_cut hcut, Due.add_transaction_waits ht (.inl hfree)]
  refine Due.mem_walk_left ?_ a
  exact Due.mem_left_keep (Due.before s b) l ready

/-- The first transaction of the trace leaves the port idle until its edge. -/
theorem traceDue_line_early (hcut : s.trace = b ++ l :: a) (ht : isTransaction l = true)
    (hb : b.all (fun m => !isTransaction m) = true) (hdue : lineDue s b.isEmpty l = false) :
    (traceDue s).line = none := by
  rw [traceDue_cut hcut, Due.add_transaction_waits ht (.inr hdue)]
  obtain ⟨-, -, -, -, -, -, hline, -⟩ :=
    Due.walk_cases s { (Due.before s b).keep l with free := false } a
  exact (hline rfl).trans (Due.before_line hb)

/-- At its edge the first transaction of the trace is on the port; it leaves the trace if it completes. -/
theorem traceDue_line_due (hcut : s.trace = b ++ l :: a) (hh : s.host.program = [])
    (ht : isTransaction l = true) (hb : b.all (fun m => !isTransaction m) = true)
    (hdue : lineDue s b.isEmpty l = true) :
    (traceDue s).line = some l ∧ ((traceDue s).left true).Sublist (b ++ a) ∧
      ∃ b' a', (traceDue s).left false = b' ++ l :: a' ∧ b'.Sublist b ∧ a'.Sublist a := by
  have hfree := (Due.before_free (b := b) hh).trans hb
  rw [traceDue_cut hcut, Due.add_transaction ht hfree hdue]
  obtain ⟨r, k, hrest, hkept, hr, hk, hline, -⟩ := Due.walk_cases s
    { Due.before s b with line := some l, free := false, kept := (Due.before s b).kept ++ [l] } a
  refine ⟨hline rfl, ?_, (Due.before s b).kept, k, ?_, Due.before_left_sublist s b false, hk⟩
  · rw [Due.left_ready, hrest]
    exact (Due.before_left_sublist s b true).append hr
  · rw [Due.left_stalled, hkept, List.append_assoc]
    rfl

/-- An EDGE line behind a due one of its channel waits. -/
theorem traceDue_keeps_later_edge (hcut : s.trace = b ++ l :: a) (hl : l.line = .edge c lvl)
    (htaken : HasDueEdge s true c b) (ready : Bool) : l ∈ (traceDue s).left ready := by
  rw [traceDue_cut hcut]
  obtain hdue | hdue := Bool.eq_false_or_eq_true (lineDue s b.isEmpty l)
  · have hsome := Due.before_event_isSome.mpr htaken
    obtain ⟨-, -, hkeep⟩ := Due.add_edge s b.isEmpty (Due.before s b) l hl hdue
    rw [hkeep (Option.isSome_iff_ne_none.mp hsome)]
    exact Due.mem_walk_left (Due.mem_left_keep _ l ready) a
  · rw [← traceDue_cut hcut]
    exact traceDue_keeps_early hcut hdue ready

/-- The first due EDGE line of a channel is handled and leaves the trace. -/
theorem traceDue_edge_due (hcut : s.trace = b ++ l :: a) (hl : l.line = .edge c lvl)
    (hfirst : ¬ HasDueEdge s true c b) (hdue : lineDue s b.isEmpty l = true) :
    (traceDue s).events.ch c = some lvl ∧ ∀ ready, ((traceDue s).left ready).Sublist (b ++ a) := by
  have hnone : (Due.before s b).events.ch c = none := by
    rw [← Option.not_isSome_iff_eq_none]
    exact fun h => hfirst (Due.before_event_isSome.mp h)
  obtain ⟨-, hset, -⟩ := Due.add_edge s b.isEmpty (Due.before s b) l hl hdue
  rw [traceDue_cut hcut, hset hnone]
  constructor
  · obtain ⟨-, -, -, -, -, -, -, hev, -⟩ := Due.walk_cases s
      { Due.before s b with events := (Due.before s b).events.set c lvl } a
    exact hev c lvl (Events.set_ch_self _ _ _)
  · intro ready
    obtain ⟨a', ha', hsub⟩ := Due.walk_left_eq s
      { Due.before s b with events := (Due.before s b).events.set c lvl } a ready
    rw [ha']
    exact (Due.before_left_sublist s b ready).append hsub

end

/-! ## In the words of the statement -/

section
variable {s : State} {p : PinIn}

theorem step_traced_trace (hh : s.host.program = []) (hn : s.nextStimulus = .traced p)
    (hr : p.rst = false) :
    ∃ t, step s = .next t ∧ t.trace = (traceDue s.popStim).left t.reply.ready := by
  obtain ⟨u, -, hstep⟩ := step_traced hh hn hr rfl
  exact ⟨_, hstep, by simp⟩

theorem all_not_isTransaction_iff {b : List TimedLine} :
    b.all (fun m => !isTransaction m) = true ↔ ∀ m ∈ b, ¬ ∃ v, m.line.word = .xact v := by
  simp [← isTransaction_iff]

theorem hasDueEdge_iff {c : Ch} {ls : List TimedLine} : HasDueEdge s.popStim true c ls ↔
    ∃ b m a lvl, ls = b ++ m :: a ∧ m.line = .edge c lvl ∧ dueLine s b m := by
  simp only [HasDueEdge, Bool.true_and, lineDue_iff_dueLine]

theorem lineDue_eq_false_iff {b : List TimedLine} {l : TimedLine} :
    lineDue s.popStim b.isEmpty l = false ↔ ¬ dueLine s b l := by
  rw [← lineDue_iff_dueLine, Bool.not_eq_true]

end

/-- Settles O49: with no host program the port, the events and what is left of the trace are those of `traceDue`,
and each clause is what it says of the line at the cut. -/
theorem traceLinesHappenAtTheirEdge : Obligations.TraceLinesHappenAtTheirEdge := by
  intro s p hn hr hh isXact quiet
  obtain ⟨t, hstep, htrace⟩ := step_traced_trace hh hn hr
  rw [pinsAhead_traced hh hn, eventsAhead_traced hh hn]
  have hquiet : (traceDue s.popStim).line = none → some ((traceDue s.popStim).pins p) = some quiet :=
    fun h => congrArg some (Due.pins_of_line_none p h)
  refine ⟨t, hstep, ?_, ?_, ?_, ?_⟩
  · rw [htrace]
    exact Due.before_left_sublist s.popStim s.trace _
  · exact fun hnone => hquiet (Due.before_line (all_not_isTransaction_iff.mpr hnone))
  · intro c lvl hev
    obtain ⟨b, m, a, hcut, hm, hdue⟩ := Due.before_event hev
    exact ⟨b, m, a, hcut, hm, (lineDue_iff_dueLine s b m).mp hdue⟩
  · intro b l a hcut
    have hcut : s.popStim.trace = b ++ l :: a := hcut
    refine ⟨?_, ?_, ?_⟩
    · intro hdue
      rw [htrace]
      exact traceDue_keeps_early hcut (lineDue_eq_false_iff.mpr hdue) _
    · intro v hv
      have ht : isTransaction l = true := isTransaction_iff.mpr ⟨v, hv⟩
      refine ⟨?_, ?_, ?_⟩
      · rintro ⟨m, hm, hx⟩
        have hb : b.all (fun m => !isTransaction m) = false := by
          rw [← Bool.not_eq_true, all_not_isTransaction_iff]
          exact fun hnone => hnone m hm hx
        rw [htrace]
        exact traceDue_keeps_later_transaction hcut hh ht hb _
      · intro hnone hdue
        exact hquiet (traceDue_line_early hcut ht (all_not_isTransaction_iff.mpr hnone)
          (lineDue_eq_false_iff.mpr hdue))
      · intro hnone hdue
        obtain ⟨hline, hready, hstalled⟩ := traceDue_line_due hcut hh ht
          (all_not_isTransaction_iff.mpr hnone) ((lineDue_iff_dueLine s b l).mpr hdue)
        rw [htrace]
        exact ⟨congrArg some (Due.pins_of_line p hline hv), fun h => h ▸ hready, fun h => h ▸ hstalled⟩
    · intro c lvl hl
      refine ⟨?_, ?_⟩
      · intro htaken
        rw [htrace]
        exact traceDue_keeps_later_edge hcut hl (hasDueEdge_iff.mpr htaken) _
      · intro hfirst hdue
        obtain ⟨hev, hsub⟩ := traceDue_edge_due hcut hl
          (fun h => hfirst (hasDueEdge_iff.mp h)) ((lineDue_iff_dueLine s b l).mpr hdue)
        exact ⟨hev, htrace ▸ hsub _⟩

end Sys2Proof.Machine
end

section
/-! The host's operations at a clock edge (30_encoding R72, R73; log entry 9): what the operation at the head of the
program presents, and what of the program the answer leaves. -/

namespace Sys2Proof.Machine

/-! ## What the answer leaves of the program -/

section
variable {h : HostState} {rest : List HostOp} {a : BitVec 5} {d : Word} (r : Reply)

theorem hostAdvance_rd (hp : h.program = .rd a :: rest) :
    (hostAdvance r h).program = if r.ready then rest else .rd a :: rest := by
  simp only [hostAdvance, hp]
  split <;> simp [hp]

theorem hostAdvance_wr (hp : h.program = .wr a d :: rest) :
    (hostAdvance r h).program = if r.ready then rest else .wr a d :: rest := by
  simp only [hostAdvance, hp]
  split <;> simp [hp]

theorem hostAdvance_pollBlink (hp : h.program = .pollBlink :: rest) :
    (hostAdvance r h).program = if r.rdata.getLsbD 0 then .pollBlink :: rest else rest := by
  simp only [hostAdvance, hp]
  split <;> simp [hp]

theorem hostAdvance_pollTx (hp : h.program = .pollTx :: rest) : (hostAdvance r h).program =
    if r.rdata.getLsbD 1 && !r.rdata.getLsbD 2 then rest else .pollTx :: rest := by
  simp only [hostAdvance, hp]
  split <;> simp [hp]

/-- One cycle of a wait is over. -/
theorem hostAdvance_wait {n : Nat} (hp : h.program = waitCycles (n + 1) ++ rest) :
    (hostAdvance r h).program = waitCycles n ++ rest := by
  have hp : h.program = .wait (n + 1) :: rest := hp
  cases n <;> simp [hostAdvance, hp, waitCycles]

end

/-! ## The queue's flags and the bits that the polls read -/

section
variable {s : State}

theorem full_eq_true_iff : s.full = true ↔ s.txq.length = s.params.txqDepth := beq_iff_eq

theorem empty_eq_true_iff : s.empty = true ↔ s.txq = [] := beq_iff_eq.trans List.length_eq_zero_iff

variable (s)

theorem blinkStatWord_busy : s.blinkStatWord.getLsbD 0 = s.blinkBusy := by
  simp only [State.blinkStatWord, BitVec.getLsbD_append, BitVec.getLsbD_ofBool]
  simp

theorem txStatWord_empty : s.txStatWord.getLsbD 1 = s.empty := by
  simp only [State.txStatWord, BitVec.getLsbD_append, BitVec.getLsbD_ofBool]
  simp

theorem txStatWord_busy : s.txStatWord.getLsbD 2 = s.shBusy := by
  simp only [State.txStatWord, BitVec.getLsbD_append, BitVec.getLsbD_ofBool]
  simp

end

/-! ## What the operation presents -/

section
variable {s t : State} {p : PinIn} {op : HostOp} {rest : List HostOp} {v : BitVec 40}

theorem present_pack (p : PinIn) (we : Bool) (a : BitVec 5) (d : Word) : p.present (packXact we a d) =
    { p with sel := true, we := we, addr := a, wdata := d } := by
  simp [PinIn.present]

/-- The host's transaction takes the port from the trace. -/
theorem duePins_present (d : Due) (p : PinIn) (v : BitVec 40) : (d.pins p).present v = p.present v := by
  unfold Due.pins PinIn.present
  repeat' (first | rfl | split)

theorem hostPrepare_of_head (hprog : s.host.program = op :: rest) (hop : ∀ d, op ≠ .sendGlyph d) :
    hostPrepare s = .ok s := by
  unfold hostPrepare
  split
  next d _ heq => exact absurd (List.cons.inj (hprog.symm.trans heq)).1 (hop d)
  next => rfl

theorem prepared_of_head (hprog : s.host.program = op :: rest) (hop : ∀ d, op ≠ .sendGlyph d) :
    prepared s = s.popStim :=
  prepared_eq (hostPrepare_of_head (s := s.popStim) hprog hop)

theorem hostPins_transaction {h : HostState} (hprog : h.program = op :: rest)
    (hv : op.transaction = some v) (p : PinIn) : hostPins h p = p.present v := by
  simp only [hostPins, hprog, hv]

theorem hostPins_silent {h : HostState} (hprog : h.program = op :: rest) (hv : op.transaction = none)
    (p : PinIn) : (hostPins h p).sel = false := by
  simp only [hostPins, hprog, hv]

/-- With a trace or without, the operation's transaction is on the port. -/
theorem pinsAhead_transaction (hp : s.nextStimulus.clockPins = some p)
    (hprog : (prepared s).host.program = op :: rest) (hv : op.transaction = some v) :
    pinsAhead s = some (p.present v) := by
  obtain hn | hn := clockPins_eq_some.mp hp <;>
    simp only [pinsAhead, hn, hostPins_transaction hprog hv, duePins_present]

theorem pinsAhead_silent (hp : s.nextStimulus.clockPins = some p)
    (hprog : (prepared s).host.program = op :: rest) (hv : op.transaction = none) :
    ∃ p', pinsAhead s = some p' ∧ p'.sel = false := by
  obtain hn | hn := clockPins_eq_some.mp hp <;> simp only [pinsAhead, hn] <;>
    exact ⟨_, rfl, hostPins_silent hprog hv _⟩

/-! ## A clock edge with an operation at the head of the program -/

/-- The step answers, and the host reads the answer. -/
theorem step_host (hp : s.nextStimulus.clockPins = some p) (hr : p.rst = false)
    (hprog : s.host.program = op :: rest) (hop : ∀ d, op ≠ .sendGlyph d) :
    ∃ p' t, pinsAhead s = some p' ∧ step s = .next t ∧ EdgeEffect p' (eventsAhead s) s t ∧
      t.host = hostAdvance t.reply s.host := by
  obtain ⟨p', t, hp', -, -, ht, he, -, hh⟩ :=
    step_clock_run hp (hostPrepare_of_head (s := s.popStim) hprog hop) hr
  exact ⟨p', t, hp', ht, he, hh⟩

/-- The transaction of the head runs. -/
theorem step_presents (hp : s.nextStimulus.clockPins = some p) (hr : p.rst = false)
    (hprog : s.host.program = op :: rest) (hv : op.transaction = some v) (h : step s = .next t) :
    pinsAhead s = some (p.present v) ∧ EdgeEffect (p.present v) (eventsAhead s) s t ∧
      t.host = hostAdvance t.reply s.host := by
  have hop : ∀ d, op ≠ .sendGlyph d := by rintro d rfl; cases hv
  obtain ⟨p', u, hp', hu, he, hh⟩ := step_host hp hr hprog hop
  obtain rfl : u = t := Host.Outcome.next.inj (hu.symm.trans h)
  have hpins := pinsAhead_transaction hp (by rw [prepared_of_head hprog hop]; exact hprog) hv
  cases hp'.symm.trans hpins
  exact ⟨hpins, he, hh⟩

/-- The answer of a clock edge is that of its transaction. -/
theorem step_reply {s' : State} (hp : s.nextStimulus.clockPins = some p)
    (hs : hostPrepare s.popStim = .ok s') (hr : p.rst = false) (h : step s = .next t) :
    ∃ p' u, pinsAhead s = some p' ∧ portStep p' s' = .next u ∧ t.reply = u.reply := by
  have hprep := prepared_eq hs
  obtain hn | hn := clockPins_eq_some.mp hp
  · obtain ⟨u, hu, -⟩ := portStep_answers (hostPins s'.host p) s'
    refine ⟨_, u, by simp only [pinsAhead, hn, hprep], hu, ?_⟩
    simp only [step, hn, edgeStep, hs, clockEdge, hostPins_rst, hr, hu, andThen_next, Bool.false_eq_true,
      if_false, Host.Outcome.next.injEq] at h
    rw [← h, hardwareEvents_reply]
  · obtain ⟨u, hu, -⟩ := portStep_answers (hostPins s'.host ((traceDue s').pins p)) s'
    refine ⟨_, u, by simp only [pinsAhead, hn, hprep], hu, ?_⟩
    simp only [step, hn, tracedStep, hs, clockEdge, hostPins_rst, duePins_rst, hr, hu, andThen_next,
      Bool.false_eq_true, if_false, Host.Outcome.next.injEq] at h
    rw [← h, handleEvents_reply, hardwareEvents_reply]

/-! ## The operations -/

variable {a : BitVec 5} {d : Word}

theorem step_rd (hp : s.nextStimulus.clockPins = some p) (hr : p.rst = false)
    (hprog : s.host.program = .rd a :: rest) (h : step s = .next t) :
    pinsAhead s = some { p with sel := true, we := false, addr := a, wdata := 0#32 } ∧
      t.host.program = rest := by
  obtain ⟨hpins, he, hh⟩ := step_presents hp hr hprog rfl h
  rw [present_pack] at hpins he
  have hready : t.reply.ready = true := by simpa using he.ready rfl
  exact ⟨hpins, by rw [hh, hostAdvance_rd _ hprog, hready]; rfl⟩

/-- A write completes but for a push into a full queue. -/
theorem step_wr (hp : s.nextStimulus.clockPins = some p) (hr : p.rst = false)
    (hprog : s.host.program = .wr a d :: rest) (h : step s = .next t) :
    pinsAhead s = some { p with sel := true, we := true, addr := a, wdata := d } ∧
      t.host.program = if a = 0x08#5 ∧ s.txq.length = s.params.txqDepth then .wr a d :: rest else rest := by
  obtain ⟨hpins, he, hh⟩ := step_presents hp hr hprog rfl h
  rw [present_pack] at hpins he
  have hready : t.reply.ready = !(a == 0x08#5 && s.full) := he.ready rfl
  refine ⟨hpins, ?_⟩
  rw [hh, hostAdvance_wr _ hprog, hready]
  simp only [Bool.not_eq_true', ← Bool.not_eq_true, Bool.and_eq_true, beq_iff_eq, full_eq_true_iff, ite_not]

theorem step_pollBlink (hp : s.nextStimulus.clockPins = some p) (hr : p.rst = false)
    (hprog : s.host.program = .pollBlink :: rest) (h : step s = .next t) :
    pinsAhead s = some { p with sel := true, we := false, addr := 0x10#5, wdata := 0#32 } ∧
      t.host.program = if s.blinkBusy = true then .pollBlink :: rest else rest := by
  obtain ⟨hpins, he, hh⟩ := step_presents hp hr hprog rfl h
  rw [present_pack] at hpins he
  exact ⟨hpins, by rw [hh, hostAdvance_pollBlink _ hprog, he.blkStat rfl rfl rfl, blinkStatWord_busy]⟩

theorem step_pollTx (hp : s.nextStimulus.clockPins = some p) (hr : p.rst = false)
    (hprog : s.host.program = .pollTx :: rest) (h : step s = .next t) :
    pinsAhead s = some { p with sel := true, we := false, addr := 0x0C#5, wdata := 0#32 } ∧
      t.host.program = if s.txq = [] ∧ s.shBusy = false then rest else .pollTx :: rest := by
  obtain ⟨hpins, he, hh⟩ := step_presents hp hr hprog rfl h
  rw [present_pack] at hpins he
  refine ⟨hpins, ?_⟩
  rw [hh, hostAdvance_pollTx _ hprog, he.txStat rfl rfl rfl, txStatWord_empty, txStatWord_busy]
  simp only [Bool.and_eq_true, empty_eq_true_iff, Bool.not_eq_true']

/-- One cycle of a wait: nothing is on the port. -/
theorem step_wait {m n : Nat} (hd : DigitsOk s) (hrun : RunsFor (m + 1) s)
    (hprog : s.host.program = waitCycles (n + 1) ++ rest) :
    (∃ p, pinsAhead s = some p ∧ p.sel = false) ∧
      ∃ t, step s = .next t ∧ DigitsOk t ∧ RunsFor m t ∧ t.host.program = waitCycles n ++ rest := by
  obtain ⟨p, hp, hr⟩ := hrun.head
  have hhead : s.host.program = .wait (n + 1) :: rest := hprog
  have hop : ∀ d, HostOp.wait (n + 1) ≠ .sendGlyph d := by simp
  have hprep : (prepared s).host.program = .wait (n + 1) :: rest := by
    rw [prepared_of_head hhead hop]; exact hhead
  obtain ⟨-, t, -, ht, -, hh⟩ := step_host hp hr hhead hop
  obtain ⟨-, u, -, -, -, hu, -, hstim, hdigits⟩ := step_edge hd hp hr
  cases hu.symm.trans ht
  exact ⟨pinsAhead_silent hp hprep rfl, t, ht, hdigits, hrun.tail hstim,
    by rw [hh, hostAdvance_wait _ hprog]⟩

/-- `WAIT n`: nothing on the port for `n` clock edges, and then it is over. -/
theorem runSteps_wait {n : Nat} (hd : DigitsOk s) (hrun : RunsFor n s)
    (hprog : s.host.program = waitCycles n ++ rest) :
    (∀ k, k < n → ∃ t p, runSteps k s = .next t ∧ pinsAhead t = some p ∧ p.sel = false) ∧
      ∃ t, runSteps n s = .next t ∧ t.host.program = rest := by
  induction n generalizing s with
  | zero => exact ⟨by simp, s, rfl, hprog⟩
  | succ n ih =>
    obtain ⟨⟨p, hpins, hsel⟩, t, ht, hdt, hrt, hpt⟩ := step_wait hd hrun hprog
    obtain ⟨hsilent, u, hu, hrest⟩ := ih hdt hrt hpt
    have hfirst : ∀ k, runSteps (k + 1) s = runSteps k t := fun k => by rw [runSteps, ht, andThen_next]
    refine ⟨?_, u, (hfirst n).trans hu, hrest⟩
    intro k hk
    cases k with
    | zero => exact ⟨s, p, rfl, hpins, hsel⟩
    | succ k =>
      rw [hfirst k]
      exact hsilent k (by omega)

/-- A push is never refused. -/
theorem exec_txPush_err {w : Word} (h : exec (.txPush w) s = .next t) : t.reply.err = false := by
  simp only [exec, execTxPush] at h
  split at h <;> cases h <;> rfl

theorem step_push_err {w : Word} (hp : s.nextStimulus.clockPins = some p) (hr : p.rst = false)
    (hprog : s.host.program = .wr 0x08#5 w :: rest) (h : step s = .next t) : t.reply.err = false := by
  have hprep : hostPrepare s.popStim = .ok s.popStim :=
    hostPrepare_of_head (s := s.popStim) hprog (by simp)
  obtain ⟨p', u, hp', hu, hreply⟩ := step_reply hp hprep hr h
  cases hp'.symm.trans (step_presents hp hr hprog rfl h).1
  rw [portStep_present (xactRsv_pack _ _ _), runWord_ok (decode_pack _ _ _)] at hu
  rw [hreply]
  exact exec_txPush_err hu

end

/-- Settles O47: the push of the head is on the port; the queue's room decides whether it completes
(`EdgeEffect.ready`), whether the word is queued (`pushedWords`) and whether the program goes on (`step_wr`). -/
theorem hostPresentsAPushUntilItCompletes : Obligations.HostPresentsAPushUntilItCompletes := by
  intro s p w rest hp hr hprog
  obtain ⟨-, t, -, ht, -, -⟩ := step_host hp hr hprog (by simp)
  obtain ⟨-, he, -⟩ := step_presents hp hr hprog rfl ht
  obtain ⟨-, hgoes⟩ := step_wr hp hr hprog ht
  rw [present_pack] at he
  have hready : t.reply.ready = !s.full := he.ready rfl
  have hqueue := he.txq
  refine ⟨t, ht, step_push_err hp hr hprog ht, ?_, ?_⟩
  · intro hroom
    have hfull : s.full = false := by rw [← Bool.not_eq_true, full_eq_true_iff]; exact hroom
    simp only [pushedWords, hfull, and_self, if_true] at hqueue
    refine ⟨by rw [hready, hfull]; rfl, by rw [hgoes, if_neg (by simp [hroom])], ?_⟩
    split at hqueue
    · exact .inr hqueue
    · exact .inl hqueue
  · intro hlen
    have hfull : s.full = true := full_eq_true_iff.mpr hlen
    simp only [pushedWords, hfull, reduceCtorEq, and_false, if_false, List.append_nil] at hqueue
    refine ⟨by rw [hready, hfull]; rfl, by rw [hgoes, if_pos ⟨rfl, hlen⟩, hprog], ?_⟩
    split at hqueue
    · exact .inr hqueue
    · exact .inl hqueue

/-- Settles O56: the expansions as defined, one lemma for each operation at the head of the program, and an induction
over the clock edges of a wait. -/
theorem pseudoOperationsRunAsExpanded : Obligations.PseudoOperationsRunAsExpanded := by
  refine ⟨fun _ => rfl, rfl, rfl, rfl, fun _ _ => rfl, ?_, fun s n rest hd hrun => runSteps_wait hd hrun⟩
  intro s p op rest hp hr hprog hop
  obtain ⟨-, t, -, ht, -, -⟩ := step_host hp hr hprog hop
  refine ⟨t, ht, ?_, ?_, ?_, ?_⟩
  · rintro a rfl
    exact step_rd hp hr hprog ht
  · rintro a d rfl
    exact step_wr hp hr hprog ht
  · rintro rfl
    exact step_pollBlink hp hr hprog ht
  · rintro rfl
    exact step_pollTx hp hr hprog ht

end Sys2Proof.Machine
end

section
/-! The delay line and the window (40_button_input R85, R92): where a falling edge is in the delay line after some
clock edges, and what keeps an edge inside the window from being accepted. -/

namespace Sys2Proof.Machine

section
variable {s t : State} {c : Ch}

/-- A bit of the line that has not left it is one place further on (R85). -/
theorem fallLine_succ {p : PinIn} {e : Events} (he : EdgeEffect p e s t) (lvl : Bool) {i : Nat}
    (hi : i < (s.ch c).fallQ.length) :
    (fallLine (t.ch c) lvl)[i + 1]? = (fallLine (s.ch c) (p.btn c))[i]? := by
  have hlast : i < (fallLine (s.ch c) (p.btn c)).length - 1 := by simpa [fallLine] using hi
  rw [fallLine, List.getElem?_cons_succ, he.fallQ, List.getElem?_dropLast, if_pos hlast]

/-- The bit that leaves the line is the last of its `RESAMPLE_DELAY + 1` bits. -/
theorem edgeFires_of_getElem? {k : Channel} {lvl b : Bool}
    (h : (fallLine k lvl)[k.fallQ.length]? = some b) : edgeFires k lvl = b := by
  have hlast : (fallLine k lvl).getLast? = some b := by rw [List.getLast?_eq_getElem?]; exact h
  rw [edgeFires, ← Option.some_inj, ← hlast, List.getLast?_eq_some_getLast (by simp [fallLine])]

theorem Inv.channel (h : Inv s) (c : Ch) : (s.ch c).fallQ.length = s.params.resampleDelay := by
  cases c
  · exact h.chInc
  · exact h.chDec

/-- A falling edge seen now is bit `k` of the line at the clock edge of `t`, `k` clock edges on. -/
def FallAt (c : Ch) (delay : Nat) (fall : Bool) (k : Nat) (t : State) : Prop :=
  (t.ch c).fallQ.length = delay ∧ (fallLine (t.ch c) (levelAhead t c))[k]? = some fall

theorem fallAt_succ {p : PinIn} {e : Events} {delay k : Nat} {fall : Bool} (hk : k < delay)
    (h : FallAt c delay fall k s) (he : EdgeEffect p e s t) (hb : p.btn c = levelAhead s c) :
    FallAt c delay fall (k + 1) t := by
  obtain ⟨hlen, hbit⟩ := h
  refine ⟨by rw [he.fallQ, length_fallLine_dropLast, hlen], ?_⟩
  rw [fallLine_succ he _ (hlen ▸ hk), hb, hbit]

theorem runSteps_of_step (h : step s = .next t) (n : Nat) : runSteps (n + 1) s = runSteps n t := by
  rw [runSteps, h, andThen_next]

/-- While no edge is accepted the timestamp stays. -/
theorem runSteps_lastTs {n : Nat} (hd : DigitsOk s) (hrun : RunsFor n s)
    (hnone : ∀ k u, k < n → runSteps k s = .next u → acceptsAhead u c = false) :
    ∃ t, runSteps n s = .next t ∧ (t.ch c).lastTs = (s.ch c).lastTs := by
  induction n generalizing s with
  | zero => exact ⟨s, rfl, rfl⟩
  | succ n ih =>
    obtain ⟨p, hp, hr⟩ := hrun.head
    obtain ⟨p', t, -, -, hb, ht, he, hstim, hdt⟩ := step_edge hd hp hr
    obtain ⟨u, hu, hts⟩ := ih hdt (hrun.tail hstim)
      fun k v hk hv => hnone (k + 1) v (by omega) ((runSteps_of_step ht k).trans hv)
    have hacc : acceptedAt c (p'.btn c) ((eventsAhead s).ch c) s = false := by
      rw [← acceptsAhead_clock hp hr (hb c)]
      exact hnone 0 s (by omega) rfl
    refine ⟨u, (runSteps_of_step ht n).trans hu, ?_⟩
    rw [hts, he.lastTs, hacc, if_neg Bool.false_ne_true]

end

/-- Settles O25: the falling edge seen now enters the line as bit 0 and is one place further on after every clock
edge (`fallAt_succ`), so after RESAMPLE_DELAY of them it is the bit that leaves. -/
theorem eachFallFiresAfterTheDelay : Obligations.EachFallFiresAfterTheDelay := by
  intro s c h hd hrun
  obtain ⟨t, ht, ⟨hlen, hbit⟩, -⟩ := runSteps_edges
    (P := FallAt c s.params.resampleDelay (fallSeen (s.ch c) (levelAhead s c))) hd hrun
    ⟨h.channel c, rfl⟩ (fun k p t u hk hat _ _ he hb => fallAt_succ hk hat he (hb c))
  exact ⟨t, ht, edgeFires_of_getElem? (by rw [hlen]; exact hbit)⟩

/-- Settles O31: the accepted edge leaves its time in `last_ts`, where it stays while no other is accepted
(`runSteps_lastTs`), so a later edge inside the window fails the test of R81. -/
theorem edgesInsideTheWindowAreDiscarded : Obligations.EdgesInsideTheWindowAreDiscarded := by
  intro n s c hd hrun hacc hnone
  obtain ⟨p, hp, hr⟩ := hrun.head
  obtain ⟨p', t, -, -, hb, ht, he, hstim, hdt⟩ := step_edge hd hp hr
  have hts : (t.ch c).lastTs = s.time := by
    rw [acceptsAhead_clock hp hr (hb c)] at hacc
    rw [he.lastTs, hacc, if_pos rfl]
  obtain ⟨u, hu, hkept⟩ := runSteps_lastTs (c := c) hdt (hrun.tail hstim)
    fun k v hk hv => hnone (k + 1) v (by omega) (by omega) ((runSteps_of_step ht k).trans hv)
  refine ⟨u, (runSteps_of_step ht n).trans hu, fun lvl hwindow => ?_⟩
  rw [← Bool.not_eq_true, edgeAccepted_iff, hkept, hts]
  omega

end Sys2Proof.Machine
end

section
/-! One operation or one clock edge on a channel (40_button_input R81 to R85): the take, the edge, SAMPLE, and a take
and an edge at one clock edge. -/

namespace Sys2Proof.Machine

section
variable {s t : State} {c : Ch}

/-! ## The operations on a channel -/

/-- TAKE clears the flag and answers it; nothing else changes (R82). -/
theorem take_eq (c : Ch) (s : State) : take c s = (s.setCh c { s.ch c with pend := false }).answer
    { ready := true, err := false, rdata := if (s.ch c).pend then 1#32 else 0#32 } := by
  rw [← take_reply]
  rfl

/-- EDGE sets the flag and moves the timestamp after the window with the line low; else nothing changes (R81). -/
theorem edgeHandle_eq (c : Ch) (now : Stamp) (lvl : Bool) (s : State) : edgeHandle c now lvl s =
    if 200000 < (now - (s.ch c).lastTs).toNat ∧ lvl = false then
      s.setCh c { s.ch c with pend := true, lastTs := now }
    else s := by
  simp only [edgeHandle, edgeAccepted_iff]

/-! ## SAMPLE in the words of R85 -/

theorem edgeFires_eq (k : Channel) (lvl : Bool) : edgeFires k lvl =
    if k.fallQ.length = 0 then fallSeen k lvl else k.fallQ.getD (k.fallQ.length - 1) false := by
  apply edgeFires_of_getElem?
  cases hq : k.fallQ with
  | nil => simp [fallLine, hq]
  | cons b q => simp [fallLine, hq]

theorem fallLine_dropLast (k : Channel) (lvl : Bool) : (fallLine k lvl).dropLast =
    if k.fallQ.length = 0 then [] else fallSeen k lvl :: k.fallQ.take (k.fallQ.length - 1) := by
  cases hq : k.fallQ with
  | nil => simp [fallLine, hq]
  | cons b q => simp [fallLine, hq, List.dropLast_eq_take]

/-- An edge is accepted after the window if one fires with the line low or a trace's event has level 0. -/
theorem acceptedAt_iff {lvl : Bool} {ev : Option Bool} : acceptedAt c lvl ev s = true ↔
    200000 < (s.time - (s.ch c).lastTs).toNat ∧
      (edgeFires (s.ch c) lvl = true ∧ lvl = false ∨ ev = some false) := by
  cases ev with
  | none =>
    rw [acceptedAt_none, edgeTaken, Bool.and_eq_true, edgeAccepted_iff]
    simp [and_left_comm]
  | some l =>
    rw [acceptedAt_some, edgeTaken, Bool.or_eq_true, Bool.and_eq_true, edgeAccepted_iff, edgeAccepted_iff,
      Option.some_inj]
    tauto

/-! ## A take and an edge at one clock edge -/

/-- With `HANDOFF = atomic` the take comes before the edge and set wins over clear (R83). -/
theorem edge_with_take {p : PinIn} {e : Events} (ha : s.params.handoff = .atomic)
    (he : EdgeEffect p e s t) (htake : p.takes c = true) :
    t.reply = { ready := true, err := false, rdata := if (s.ch c).pend then 1#32 else 0#32 } ∧
      (t.ch c).pend = acceptedAt c (p.btn c) (e.ch c) s ∧
      (t.ch c).lastTs =
        if acceptedAt c (p.btn c) (e.ch c) s then s.time else (s.ch c).lastTs := by
  have hpend := he.pend c (racing_atomic ha _ _)
  rw [htake, Bool.not_true, Bool.and_false, Bool.or_false] at hpend
  exact ⟨he.taken c htake, hpend, he.lastTs c⟩

/-! ## A channel after a clock edge (R84) -/

/-- What a clock edge leaves of a channel follows from the channel, its line, its take and TIME alone, and from the
count of draws where `HANDOFF = racy` draws. -/
theorem clockEdge_ch {p : PinIn} (c : Ch) (hr : p.rst = false) :
    ∃ t, clockEdge p s = .next t ∧ t.ch c =
      { pend := if racing c (p.takes c) (edgeTaken c (p.btn c) s) s then Config.freeHandoff c s.draws
                else edgeTaken c (p.btn c) s || ((s.ch c).pend && !p.takes c)
        lastTs := if edgeTaken c (p.btn c) s then s.time else (s.ch c).lastTs
        btnPrev := p.btn c
        fallQ := (fallLine (s.ch c) (p.btn c)).dropLast } := by
  obtain ⟨u, hu, he⟩ := portStep_answers p s
  refine ⟨hardwareEvents p s u, by simp [clockEdge, hr, hu], ?_⟩
  rw [hardwareEvents_ch c p s u (he.lastTs c), he.pend]

end

/-- Settles O15: `take_eq` of each channel. -/
theorem takeAnswersAndClearsTheFlag : Obligations.TakeAnswersAndClearsTheFlag :=
  fun s => ⟨congrArg Host.Outcome.next (take_eq .inc s), congrArg Host.Outcome.next (take_eq .dec s)⟩

/-- Settles O16: `edgeHandle_eq` of each channel with TIME. -/
theorem edgeIsAcceptedOrChangesNothing : Obligations.EdgeIsAcceptedOrChangesNothing :=
  fun s lvl => ⟨congrArg Host.Outcome.next (edgeHandle_eq .inc s.time lvl s),
    congrArg Host.Outcome.next (edgeHandle_eq .dec s.time lvl s)⟩

/-- Settles O24: the clock edge by `EdgeEffect`, whose delay line and accepted edge are those of the statement. -/
theorem sampleDetectsDelaysAndHandles : Obligations.SampleDetectsDelaysAndHandles := by
  intro s p c h hd hp hr hhandoff k D lvl fall fire accepted
  obtain ⟨t, ht, he⟩ := step_ahead hd hp hr
  have hfire : edgeFires k lvl = fire := by rw [edgeFires_eq, h.channel c]; rfl
  have haccepted : acceptedAt c lvl ((eventsAhead s).ch c) s = true ↔ accepted := by
    rw [acceptedAt_iff, hfire]
  have hrace : ∀ acc, racing c (p.takes c) acc s = false := by
    intro acc
    obtain ha | htake := hhandoff
    · exact racing_atomic ha _ _
    · simp [racing, htake]
  have hpend := he.pend c (hrace _)
  have hts := he.lastTs c
  refine ⟨t, ht, he.btnPrev c, ?_, fun hacc => ?_, fun hacc => ?_⟩
  · rw [he.fallQ, fallLine_dropLast, h.channel c]
    rfl
  · rw [haccepted.mpr hacc] at hpend hts
    exact ⟨hpend, hts⟩
  · rw [Bool.eq_false_iff.mpr fun hat => hacc (haccepted.mp hat)] at hpend hts
    exact ⟨hpend, hts⟩

/-- Settles O51: the take the step runs is the one on the port, and its edge the one of the pins and the trace. -/
theorem setWinsWhoeverTakes : Obligations.SetWinsWhoeverTakes := by
  intro s p c hd hp hr ha htakes
  obtain ⟨p', t, hp', hr', hb, ht, he, -, -⟩ := step_edge hd hp hr
  rw [takesAhead_clock hp hp' hr'] at htakes
  refine ⟨t, ht, ?_⟩
  rw [acceptsAhead_clock hp hr (hb c)]
  exact edge_with_take ha he htakes

/-- Settles O26: with no host program the pins' own TAKE is the one of O51. -/
theorem takeIsBeforeTheEdgeAndSetWins : Obligations.TakeIsBeforeTheEdgeAndSetWins := by
  intro s p c hn hr hh ha hsel hwe haddr
  have hp : s.nextStimulus.clockPins = some p := by rw [hn]; rfl
  have hp' : pinsAhead s = some p := by
    simp only [pinsAhead, hn, prepared_idle hh, hostPins_idle (show s.popStim.host.program = [] from hh)]
  have htakes : p.takes c = true := by
    cases c
    · simp [takes_inc, hsel, hwe, haddr]
    · simp [takes_dec, hsel, hwe, haddr]
  exact setWinsWhoeverTakes s p c (by simp [DigitsOk, hh]) hp hr ha
    ((takesAhead_clock hp hp' hr c).trans htakes)

/-- Settles O28: a reset gives every channel the reset value of the parameters; any other clock edge gives one that
follows from what the two states and pins share (`clockEdge_ch`). -/
theorem channelsAreIndependent : Obligations.ChannelsAreIndependent := by
  intro c p q s t hparams htime hch hrst hbtn htakes hdraws
  cases hr : p.rst with
  | true =>
    exact ⟨_, _, clockEdge_reset p s hr, clockEdge_reset q t (hrst ▸ hr), by simp [hparams]⟩
  | false =>
    obtain ⟨s', hs, hcs⟩ := clockEdge_ch (s := s) c hr
    obtain ⟨t', ht, hct⟩ := clockEdge_ch (s := t) c (hrst ▸ hr)
    have htaken : edgeTaken c (p.btn c) s = edgeTaken c (q.btn c) t := by
      rw [edgeTaken, edgeTaken, hch, htime, hbtn]
    have hracing : ∀ acc, racing c (p.takes c) acc s = racing c (q.takes c) acc t := by
      intro acc; rw [racing, racing, hparams, hch, htakes]
    refine ⟨s', t', hs, ht, ?_⟩
    rw [hcs, hct, htaken, hracing, hch, htime, hbtn, htakes]
    cases ha : s.params.handoff with
    | atomic => simp only [racing_atomic (hparams ▸ ha), Bool.false_eq_true, if_false]
    | racy => rw [hdraws ha]

end Sys2Proof.Machine
end

section
/-! No accepted event is lost (40_button_input R91): every step with legal words and digits answers, and a step at
which an edge is accepted leaves the flag set. -/

namespace Sys2Proof.Machine

section
variable {s t : State} {c : Ch} {w : TraceWord}

/-- A word that is no reserved one is an operation or a BusError (30_encoding R69, R70). -/
theorem decode_of_wellFormed (h : w.wellFormed = true) :
    (∃ i, decode w = .ok i) ∨ ∃ k, decode w = .error (.busError k) := by
  cases w with
  | xact v =>
    have hrsv : xactRsv v = 0#2 := beq_iff_eq.mp h
    rw [← pack_of_rsv hrsv, decode_pack]
    obtain h | ⟨-, -, h⟩ | ⟨-, -, h⟩ | ⟨-, -, h⟩ | ⟨-, -, h⟩ | ⟨-, -, -, h⟩ | ⟨-, -, -, h⟩ | ⟨-, -, h⟩ :=
      decodeAccess_cases (xactWe v) (xactAddr v) (xactWdata v)
    case inl => exact .inr h
    all_goals exact .inl ⟨_, h⟩
  | evt e =>
    rw [TraceWord.wellFormed, Bool.and_eq_true, Bool.not_eq_true'] at h
    obtain ⟨hrise, hfall⟩ := h
    cases hl : evtLine e with
    | inc => exact .inl ⟨_, decodeEvt_iff.mpr ⟨hrise, hfall, .inl ⟨hl, rfl⟩⟩⟩
    | dec => exact .inl ⟨_, decodeEvt_iff.mpr ⟨hrise, hfall, .inr ⟨hl, rfl⟩⟩⟩

theorem NoReserved.word (h : NoReserved s) (hn : s.nextStimulus = .op w) : w.wellFormed = true := by
  unfold State.nextStimulus at hn
  cases hs : s.stim with
  | nil => simp [hs] at hn
  | cons x xs =>
    have hx := h x (by simp [hs])
    rw [hs] at hn
    subst hn
    exact hx

theorem runWord_answers (h : w.wellFormed = true) (s : State) : ∃ t, runWord w s = .next t := by
  obtain ⟨i, hd⟩ | ⟨k, hd⟩ := decode_of_wellFormed h
  · rw [runWord_ok hd]; exact exec_answers i s
  · rw [runWord_error hd]; exact ⟨_, rfl⟩

/-- Nothing but a reserved word and an impossible digit stops a step. -/
theorem step_answers (hn : NoReserved s) (hd : DigitsOk s) : ∃ t, step s = .next t := by
  cases hs : s.nextStimulus with
  | op w => rw [step_op hs]; exact runWord_answers (hn.word hs) _
  | elapse us => simp only [step, hs]; exact ⟨_, rfl⟩
  | wordDone => simp only [step, hs]; exact ⟨_, rfl⟩
  | holdExpires => simp only [step, hs]; exact ⟨_, rfl⟩
  | _ p =>
    have hp : s.nextStimulus.clockPins = some p := by rw [hs]; rfl
    cases hr : p.rst with
    | true => obtain ⟨h, ht, -⟩ := step_reset hd hp hr; exact ⟨_, ht⟩
    | false => obtain ⟨-, t, -, -, -, ht, -⟩ := step_edge hd hp hr; exact ⟨t, ht⟩

/-! ## An accepted edge -/

/-- Apart from a clock edge only the channel's own EDGE run alone is accepted. -/
theorem acceptsAhead_alone (hc : s.nextStimulus.clockPins = none) (h : acceptsAhead s c = true) :
    ∃ lvl, instrAhead s = some (edgeOf c lvl) ∧ edgeAccepted (s.ch c) s.time lvl = true := by
  unfold acceptsAhead at h
  rw [hc] at h
  dsimp only at h
  split at h
  next lvl hi => exact ⟨lvl, hi, h⟩
  next lvl hi => exact ⟨lvl, hi, h⟩
  next => exact absurd h Bool.false_ne_true

theorem step_of_instrAhead_alone {i : Instr} (hc : s.nextStimulus.clockPins = none)
    (hi : instrAhead s = some i) : step s = exec i s.popStim := by
  cases hs : s.nextStimulus with
  | op w =>
    cases hd : decode w with
    | ok j =>
      obtain rfl : j = i := Option.some.inj ((instrAhead_op hs hd).symm.trans hi)
      rw [step_op hs, runWord_ok hd]
    | error e => simp [instrAhead, wordAhead, hs, hd] at hi
  | edge p => simp [hs, Stimulus.clockPins] at hc
  | traced p => simp [hs, Stimulus.clockPins] at hc
  | _ => simp [instrAhead, wordAhead, pinsAhead, hs] at hi

theorem exec_edgeOf (c : Ch) (lvl : Bool) (s : State) :
    exec (edgeOf c lvl) s = .next (edgeHandle c s.time lvl s) := by cases c <;> rfl

/-- At a clock edge set wins (R83), and an EDGE run alone sets the flag. -/
theorem pend_of_acceptsAhead (hd : DigitsOk s) (ha : s.params.handoff = .atomic)
    (hacc : acceptsAhead s c = true) (h : step s = .next t) : (t.ch c).pend = true := by
  cases hc : s.nextStimulus.clockPins with
  | some p =>
    have hr : p.rst = false := by
      simp only [acceptsAhead, hc, Bool.and_eq_true, Bool.not_eq_true'] at hacc
      exact hacc.1
    obtain ⟨p', u, -, -, hb, hu, he, -⟩ := step_edge hd hc hr
    obtain rfl : u = t := Host.Outcome.next.inj (hu.symm.trans h)
    rw [acceptsAhead_clock hc hr (hb c)] at hacc
    rw [he.pend c (racing_atomic ha _ _), hacc, Bool.true_or]
  | none =>
    obtain ⟨lvl, hi, hok⟩ := acceptsAhead_alone hc hacc
    rw [step_of_instrAhead_alone hc hi, exec_edgeOf] at h
    obtain rfl := Host.Outcome.next.inj h
    rw [edgeHandle_ch_self, if_pos (by simpa using hok)]

end

/-- Settles O30: a step answers (`step_answers`); an accepted edge leaves the flag set (`pend_of_acceptsAhead`), and
that a set flag falls by a take that delivers it is O29. -/
theorem noAcceptedEventIsLost : Obligations.NoAcceptedEventIsLost := by
  intro s c hn hd ha hreset
  obtain ⟨t, ht⟩ := step_answers hn hd
  obtain ⟨-, hfalls⟩ := onlyAcceptedEdgesSetAndOnlyTakesClear s t c ha ht hreset
  refine ⟨t, ht, fun hacc => pend_of_acceptsAhead hd ha hacc ht, fun hset => ?_⟩
  cases hp : (t.ch c).pend with
  | true => exact .inl rfl
  | false => exact .inr (hfalls hset hp)

end Sys2Proof.Machine
end

section
/-! `HANDOFF` (40_button_input R86): the parameter changes nothing of what a step reads but the hand-off itself, so two
steps that differ in it alone differ in a flag that is raced for alone. -/

namespace Sys2Proof.Machine

/-- The same state with another choice of `HANDOFF`. -/
def State.withHandoff (s : State) (h : Handoff) : State :=
  { s with params := { s.params with handoff := h } }

section
variable {s t u : State} {c : Ch} {p : PinIn} (h : Handoff)

@[simp] theorem withHandoff_ch (s : State) (c : Ch) : (s.withHandoff h).ch c = s.ch c := by cases c <;> rfl

/-! ## What reads no `HANDOFF` -/

theorem serStep_withHandoff (pre s : State) :
    serStep (pre.withHandoff h) (s.withHandoff h) = (serStep pre s).withHandoff h := by
  rw [serStep, serStep, show (pre.withHandoff h).txq = pre.txq from rfl]
  cases pre.txq <;> simp only [apply_ite (State.withHandoff · h)] <;> rfl

theorem blinkTick_withHandoff (pre s : State) :
    blinkTick (pre.withHandoff h) (s.withHandoff h) = (blinkTick pre s).withHandoff h := by
  simp only [blinkTick, apply_ite (State.withHandoff · h)]
  rfl

theorem blinkStep_withHandoff (pre s : State) :
    blinkStep (pre.withHandoff h) (s.withHandoff h) = (blinkStep pre s).withHandoff h := by
  rw [blinkStep, blinkStep, blinkTick_withHandoff, apply_ite (State.withHandoff · h)]
  rfl

/-- An operation does the same under both values: the free `rdata` of a write follows `Params.ofPort` alone. -/
theorem exec_withHandoff {i : Instr} (he : exec i s = .next t) :
    exec i (s.withHandoff h) = .next (t.withHandoff h) := by
  have htake : ∀ c, take c (s.withHandoff h) = (take c s).withHandoff h := by intro c; cases c <;> rfl
  have hedge : ∀ c lvl, edgeHandle c s.time lvl (s.withHandoff h) =
      (edgeHandle c s.time lvl s).withHandoff h := by
    intro c lvl
    cases c <;> simp only [edgeHandle, apply_ite (State.withHandoff · h)] <;> rfl
  obtain ⟨c, ⟨rfl, rfl⟩ | ⟨rfl, rfl⟩, rfl⟩ | ⟨w, rfl, hf, rfl⟩ | ⟨w, rfl, hf, rfl⟩ | ⟨rfl, rfl⟩ |
    ⟨rfl, hb, rfl⟩ | ⟨⟨rfl, hb⟩ | rfl, rfl⟩ | ⟨rfl, rfl⟩ | ⟨c, lvl, ⟨rfl, rfl⟩ | ⟨rfl, rfl⟩, rfl⟩ :=
    exec_cases he
  · exact congrArg Host.Outcome.next (htake .inc)
  · exact congrArg Host.Outcome.next (htake .dec)
  · exact if_pos hf
  · exact if_neg (Bool.eq_false_iff.mp hf)
  · rfl
  · exact if_neg (Bool.eq_false_iff.mp hb)
  · exact if_pos hb
  · rfl
  · rfl
  · exact congrArg Host.Outcome.next (hedge .inc lvl)
  · exact congrArg Host.Outcome.next (hedge .dec lvl)

theorem lastCycle_withHandoff (s : State) : lastCycle (s.withHandoff h) = (lastCycle s).withHandoff h := by
  rw [lastCycle, lastCycle, apply_ite (State.withHandoff · h)]
  rfl

theorem wordDone_withHandoff (s : State) : wordDone (s.withHandoff h) = (wordDone s).withHandoff h := by
  rw [wordDone, lastCycle_withHandoff, serStep_withHandoff, wordDone]

theorem holdExpires_withHandoff (s : State) : holdExpires (s.withHandoff h) = (holdExpires s).withHandoff h := by
  rw [holdExpires, holdExpires, blinkTick_withHandoff, apply_ite (State.withHandoff · h)]
  rfl

theorem hostPrepare_withHandoff (s : State) :
    hostPrepare (s.withHandoff h) = (hostPrepare s).map (State.withHandoff · h) := by
  rw [hostPrepare, hostPrepare, show (s.withHandoff h).host = s.host from rfl]
  split
  next d rest _ =>
    rw [show render (s.withHandoff h).params d (s.withHandoff h).params.fgColor =
      render s.params d s.params.fgColor from rfl]
    cases render s.params d s.params.fgColor <;> rfl
  next => rfl

/-- The trace reads of the parameters only TICKS_PER_US (30_encoding R74). -/
theorem walk_withHandoff (s : State) (first : Bool) (d : Due) (ls : List TimedLine) :
    Due.walk (s.withHandoff h) first d ls = Due.walk s first d ls := by
  induction ls generalizing first d with
  | nil => rfl
  | cons l ls ih => exact ih _ _

theorem traceDue_withHandoff (s : State) : traceDue (s.withHandoff h) = traceDue s :=
  walk_withHandoff h s _ _ _

theorem prepared_withHandoff (s : State) : prepared (s.withHandoff h) = (prepared s).withHandoff h := by
  rw [prepared, prepared, show (s.withHandoff h).popStim = s.popStim.withHandoff h from rfl,
    hostPrepare_withHandoff]
  cases hostPrepare s.popStim <;> rfl

theorem pinsAhead_withHandoff (s : State) : pinsAhead (s.withHandoff h) = pinsAhead s := by
  rw [pinsAhead, pinsAhead, prepared_withHandoff, traceDue_withHandoff]
  rfl

theorem eventsAhead_withHandoff (s : State) : eventsAhead (s.withHandoff h) = eventsAhead s := by
  rw [eventsAhead, eventsAhead, prepared_withHandoff, traceDue_withHandoff]
  rfl

theorem clockPins_of_isRunEdge {x : Stimulus} (hx : x.isRunEdge = true) :
    ∃ p, x.clockPins = some p ∧ p.rst = false := by
  unfold Stimulus.isRunEdge at hx
  split at hx
  next p hp => exact ⟨p, hp, by simpa using hx⟩
  next => cases hx

theorem rst_of_not_isRunEdge {x : Stimulus} (hp : x.clockPins = some p) (hx : x.isRunEdge = false) :
    p.rst = true := by
  simpa [Stimulus.isRunEdge, hp] using hx

/-! ## A step at which no hand-off can be: a reset, or a step of the operation level -/

theorem step_withHandoff (hrun : s.nextStimulus.isRunEdge = false) (ht : step s = .next t) :
    step (s.withHandoff h) = .next (t.withHandoff h) := by
  cases hc : s.nextStimulus.clockPins with
  | some p =>
    have hr : p.rst = true := rst_of_not_isRunEdge hc hrun
    cases hs : hostPrepare s.popStim with
    | error d => rw [step_clock_error hc hs] at ht; cases ht
    | ok s' =>
      have hs' : hostPrepare (s.withHandoff h).popStim = .ok (s'.withHandoff h) := by
        rw [show (s.withHandoff h).popStim = s.popStim.withHandoff h from rfl, hostPrepare_withHandoff, hs]
        rfl
      rw [step_clock_reset hc hs hr] at ht
      rw [step_clock_reset (s := s.withHandoff h) hc hs' hr]
      cases ht
      rfl
  | none =>
    have hnext : (s.withHandoff h).nextStimulus = s.nextStimulus := rfl
    cases hs : s.nextStimulus with
    | edge p => simp [hs, Stimulus.clockPins] at hc
    | traced p => simp [hs, Stimulus.clockPins] at hc
    | op w =>
      rw [step_op hs] at ht
      rw [step_op (hnext.trans hs)]
      cases hd : decode w with
      | ok i =>
        rw [runWord_ok hd] at ht ⊢
        exact exec_withHandoff h ht
      | error e =>
        rw [runWord_error hd] at ht ⊢
        obtain ⟨k, rfl, rfl⟩ := rejectWord_eq_next.mp ht
        rfl
    | elapse us =>
      simp only [step, hs] at ht
      cases ht
      simp only [step, hnext, hs]
      rfl
    | wordDone =>
      simp only [step, hs] at ht
      cases ht
      simp only [step, hnext, hs]
      exact congrArg Host.Outcome.next (wordDone_withHandoff h s.popStim)
    | holdExpires =>
      simp only [step, hs] at ht
      cases ht
      simp only [step, hnext, hs]
      exact congrArg Host.Outcome.next (holdExpires_withHandoff h s.popStim)

/-- At such a step a take and an accepted edge never meet. -/
theorem not_taken_and_accepted (hrun : s.nextStimulus.isRunEdge = false) (c : Ch) :
    (takesAhead s c && acceptsAhead s c) = false := by
  rw [Bool.and_eq_false_iff, or_iff_not_imp_right, Bool.not_eq_false]
  intro hacc
  cases hc : s.nextStimulus.clockPins with
  | some p =>
    have hr : p.rst = true := rst_of_not_isRunEdge hc hrun
    simp [acceptsAhead, hc, hr] at hacc
  | none =>
    obtain ⟨lvl, hi, -⟩ := acceptsAhead_alone hc hacc
    rw [takesAhead, hi]
    cases c <;> rfl

/-! ## A clock edge without reset -/

/-- What is left of the trace after the coming clock edge, by whether the port completes. -/
def traceLeft (s : State) (ready : Bool) : List TimedLine :=
  match s.nextStimulus with
  | .traced _ => (traceDue (prepared s)).left ready
  | _ => s.trace

theorem traceLeft_withHandoff (s : State) (ready : Bool) :
    traceLeft (s.withHandoff h) ready = traceLeft s ready := by
  rw [traceLeft, traceLeft, prepared_withHandoff, traceDue_withHandoff]
  rfl

theorem step_run_trace {s' : State} (hp : s.nextStimulus.clockPins = some p)
    (hs : hostPrepare s.popStim = .ok s') (hr : p.rst = false) (ht : step s = .next t) :
    t.trace = traceLeft s t.reply.ready := by
  obtain hn | hn := clockPins_eq_some.mp hp
  · obtain ⟨u, hu, -, -, -, htrace⟩ := clockEdge_run (hostPins s'.host p) s' (by simpa using hr)
    simp only [step, hn, edgeStep, hs, hu, andThen_next, Host.Outcome.next.injEq] at ht
    obtain ⟨q, rfl⟩ := hostPrepare_ok hs
    simp only [traceLeft, hn, ← ht]
    exact htrace
  · obtain ⟨u, hu, -⟩ := clockEdge_run (hostPins s'.host ((traceDue s').pins p)) s' (by simpa using hr)
    simp only [step, hn, tracedStep, hs, hu, hr, andThen_next, Host.Outcome.next.injEq, Bool.false_eq_true,
      if_false] at ht
    simp only [traceLeft, hn, prepared_eq hs, ← ht, handleEvents_reply]

/-- `t` with the parameters, the flags and the count of draws of `u`. -/
def State.withFlagsOf (t u : State) : State :=
  { t with
    params := u.params
    inc := { t.inc with pend := u.inc.pend }
    dec := { t.dec with pend := u.dec.pend }
    draws := u.draws }

@[simp] theorem withFlagsOf_ch (t u : State) (c : Ch) :
    (t.withFlagsOf u).ch c = { t.ch c with pend := (u.ch c).pend } := by cases c <;> rfl

@[simp] theorem acceptedAt_withHandoff (lvl : Bool) (ev : Option Bool) (s : State) :
    acceptedAt c lvl ev (s.withHandoff h) = acceptedAt c lvl ev s := by cases c <;> rfl

section
variable {g h : Handoff} {e : Events}

/-- The same clock edge under two values of `HANDOFF` leaves the same block but for the flags. -/
theorem EdgeEffect.block_withFlagsOf (ht : EdgeEffect p e (s.withHandoff g) t)
    (hu : EdgeEffect p e (s.withHandoff h) u) : (t.withFlagsOf u).block = u.block := by
  have hch : ∀ c, (t.withFlagsOf u).ch c = u.ch c := by
    intro c
    have hts : (t.ch c).lastTs = (u.ch c).lastTs := by
      rw [ht.lastTs, hu.lastTs, acceptedAt_withHandoff, acceptedAt_withHandoff, withHandoff_ch, withHandoff_ch]
      rfl
    have hprev : (t.ch c).btnPrev = (u.ch c).btnPrev := by rw [ht.btnPrev, hu.btnPrev]
    have hline : (t.ch c).fallQ = (u.ch c).fallQ := by rw [ht.fallQ, hu.fallQ, withHandoff_ch, withHandoff_ch]
    simp only [withFlagsOf_ch, hts, hprev, hline]
  have hser := fun h => serStep_withHandoff h s s
  have hblink := fun h => blinkStep_withHandoff h s s
  simp only [State.block, State.withFlagsOf, State.mk.injEq, and_true, true_and]
  refine ⟨?_, ?_, hch .inc, hch .dec, ?_, ?_, ?_, ?_, ?_, ?_, ?_, ?_, ?_⟩
  · rw [ht.time, hu.time]; rfl
  · rw [ht.usDiv, hu.usDiv]; rfl
  · rw [ht.txq, hu.txq]; rfl
  · rw [ht.shBusy, hu.shBusy, hser, hser]; rfl
  · rw [ht.shReg, hu.shReg, hser, hser]; rfl
  · rw [ht.shLeft, hu.shLeft, hser, hser]; rfl
  · rw [ht.shPhase, hu.shPhase, hser, hser]; rfl
  · rw [ht.busy, hu.busy, hblink, hblink]; rfl
  · rw [ht.out, hu.out, hblink, hblink]; rfl
  · rw [ht.cnt, hu.cnt, hblink, hblink]; rfl
  · rw [ht.rem, hu.rem, hblink, hblink]; rfl

/-- Where no flag is raced for, the flag after the edge is one. -/
theorem EdgeEffect.pend_withHandoff (ht : EdgeEffect p e (s.withHandoff .atomic) t)
    (hu : EdgeEffect p e (s.withHandoff .racy) u)
    (hrace : (p.takes c && (s.ch c).pend && acceptedAt c (p.btn c) (e.ch c) s) = false) :
    (u.ch c).pend = (t.ch c).pend := by
  have hracy : racing c (p.takes c) (acceptedAt c (p.btn c) (e.ch c) (s.withHandoff .racy))
      (s.withHandoff .racy) = false := by
    rw [racing, acceptedAt_withHandoff, withHandoff_ch]
    rw [Bool.and_right_comm] at hrace
    exact hrace
  rw [hu.pend c hracy, ht.pend c (racing_atomic rfl _ _), acceptedAt_withHandoff, acceptedAt_withHandoff,
    withHandoff_ch, withHandoff_ch]

/-- A clock edge without reset under a value of `HANDOFF`. -/
theorem step_run_handoff (hd : DigitsOk s) (hp : pinsAhead s = some p) (hr : p.rst = false) (h : Handoff) :
    ∃ t v, step (s.withHandoff h) = .next t ∧ EdgeEffect p (eventsAhead s) (s.withHandoff h) t ∧
      portStep p ((prepared s).withHandoff h) = .next v ∧ t.reply = v.reply ∧
      t.host = hostAdvance t.reply (prepared s).host ∧ t.trace = traceLeft s t.reply.ready ∧
      t.stim = s.stim.tail := by
  obtain ⟨q, hq, hqr, -⟩ := clockPins_of_pinsAhead hp
  obtain ⟨s', hs⟩ := hostPrepare_of_digitsOk (s := (s.withHandoff h).popStim) hd
  obtain rfl : (prepared s).withHandoff h = s' :=
    (prepared_withHandoff h s).symm.trans (prepared_eq (s := s.withHandoff h) hs)
  have hp' := (pinsAhead_withHandoff h s).trans hp
  obtain ⟨p₁, t, hp₁, -, -, ht, he, hstim, hhost⟩ :=
    step_clock_run (s := s.withHandoff h) hq hs (hqr.trans hr)
  obtain ⟨p₂, v, hp₂, hv, hreply⟩ := step_reply (s := s.withHandoff h) hq hs (hqr.trans hr) ht
  obtain rfl := Option.some.inj (hp₁.symm.trans hp')
  obtain rfl := Option.some.inj (hp₂.symm.trans hp')
  have htrace := step_run_trace (s := s.withHandoff h) hq hs (hqr.trans hr) ht
  rw [traceLeft_withHandoff] at htrace
  rw [eventsAhead_withHandoff] at he
  exact ⟨t, v, ht, he, hv, hreply, hhost, htrace, hstim⟩

/-- Under two values of `HANDOFF` it leaves the same state but for the flags, the parameter and the count of draws. -/
theorem step_run_withHandoff (hd : DigitsOk s) (hp : pinsAhead s = some p) (hr : p.rst = false) (g h : Handoff) :
    ∃ t u, step (s.withHandoff g) = .next t ∧ step (s.withHandoff h) = .next u ∧
      EdgeEffect p (eventsAhead s) (s.withHandoff g) t ∧ EdgeEffect p (eventsAhead s) (s.withHandoff h) u ∧
      u = t.withFlagsOf u := by
  obtain ⟨t, v, ht, het, hv, hrt, hht, htt, hst⟩ := step_run_handoff hd hp hr g
  obtain ⟨u, w, hu, heu, hw, hru, hhu, htu, hsu⟩ := step_run_handoff hd hp hr h
  have hreply : t.reply = u.reply := by
    have hseen : SeenAlike ((prepared s).withHandoff g) ((prepared s).withHandoff h) :=
      ⟨rfl, rfl, fun c => by rw [withHandoff_ch, withHandoff_ch], rfl, rfl⟩
    obtain ⟨v', w', hv', hw', hvw⟩ := portStep_reply p hseen (q := p) rfl
    cases hv.symm.trans hv'
    cases hw.symm.trans hw'
    rw [hrt, hru, hvw]
  refine ⟨t, u, ht, hu, het, heu, (State.block_eq (het.block_withFlagsOf heu)).trans ?_⟩
  rw [hhu, htu, hsu, ← hreply, ← hht, ← htt, ← hst]
  rfl

/-! ## What a race leaves -/

theorem withFlagsOf_of_pend (hpend : ∀ c, (u.ch c).pend = (t.ch c).pend) :
    t.withFlagsOf u = { t with params := u.params, draws := u.draws } := by
  have hinc : u.inc.pend = t.inc.pend := hpend .inc
  have hdec : u.dec.pend = t.dec.pend := hpend .dec
  rw [State.withFlagsOf, hinc, hdec]

theorem withFlagsOf_of_pend_other (hpend : ∀ d, d ≠ c → (u.ch d).pend = (t.ch d).pend) : t.withFlagsOf u =
    { t.setCh c { t.ch c with pend := (u.ch c).pend } with params := u.params, draws := u.draws } := by
  cases c with
  | inc =>
    have hdec : u.dec.pend = t.dec.pend := hpend .dec (by decide)
    rw [State.withFlagsOf, hdec]
    rfl
  | dec =>
    have hinc : u.inc.pend = t.inc.pend := hpend .inc (by decide)
    rw [State.withFlagsOf, hinc]
    rfl

/-- A transaction takes the flag of one channel. -/
theorem takes_other {d : Ch} (htake : p.takes c = true) (hne : d ≠ c) : p.takes d = false := by
  have hboth : ¬ (p.takes .inc = true ∧ p.takes .dec = true) := by
    simp only [takes_inc, takes_dec, Bool.and_eq_true, beq_iff_eq]
    rintro ⟨⟨-, hinc⟩, -, hdec⟩
    exact absurd (hinc.symm.trans hdec) (by decide)
  rw [← Bool.not_eq_true]
  intro htake'
  cases c with
  | inc =>
    cases d with
    | inc => exact hne rfl
    | dec => exact hboth ⟨htake, htake'⟩
  | dec =>
    cases d with
    | inc => exact hboth ⟨htake', htake⟩
    | dec => exact hne rfl

end

end

/-- Settles O27: at a clock edge without reset the two steps leave the same but for the flags (`step_run_withHandoff`),
and a flag differs only where it is raced for (`EdgeEffect.pend_withHandoff`), which is one channel's at most since one
is taken; at any other step no take meets an accepted edge and the two leave the same (`step_withHandoff`). -/
theorem racyDiffersInOneOutcome : Obligations.RacyDiffersInOneOutcome := by
  intro s hn hd
  change ∃ t u, step (s.withHandoff .atomic) = .next t ∧ step (s.withHandoff .racy) = .next u ∧ _
  cases hrun : s.nextStimulus.isRunEdge with
  | false =>
    obtain ⟨t, ht⟩ := step_answers (s := s.withHandoff .atomic) hn hd
    have hu := step_withHandoff (s := s.withHandoff .atomic) .racy hrun ht
    refine ⟨t, t.withHandoff .racy, ht, hu, fun _ => rfl, fun c hrace => ?_⟩
    rw [Bool.and_right_comm, not_taken_and_accepted hrun c] at hrace
    cases hrace
  | true =>
    obtain ⟨q, hq, hqr⟩ := clockPins_of_isRunEdge hrun
    obtain ⟨p, hp, hpr, hb⟩ := pinsAhead_eq hq
    have hr : p.rst = false := hpr.trans hqr
    obtain ⟨t, u, ht, hu, het, heu, hut⟩ := step_run_withHandoff hd hp hr .atomic .racy
    have hpend : ∀ c, (takesAhead s c && (s.ch c).pend && acceptsAhead s c) = false →
        (u.ch c).pend = (t.ch c).pend := by
      intro c hrace
      rw [takesAhead_clock hq hp hr, acceptsAhead_clock hq hqr (hb c)] at hrace
      exact het.pend_withHandoff heu hrace
    refine ⟨t, u, ht, hu, fun hnone => ?_, fun c hrace => ?_⟩
    · rw [← withFlagsOf_of_pend fun c => hpend c (hnone c)]
      exact hut
    · simp only [Bool.and_eq_true, takesAhead_clock hq hp hr, acceptsAhead_clock hq hqr (hb c)] at hrace
      obtain ⟨⟨htake, hset⟩, hacc⟩ := hrace
      refine ⟨?_, ?_, (u.ch c).pend, u.draws, ?_⟩
      · rw [heu.taken c htake, withHandoff_ch, hset]; rfl
      · rw [heu.lastTs c, acceptedAt_withHandoff, hacc]; rfl
      · rw [← withFlagsOf_of_pend_other fun d hne => hpend d ?_]
        · exact hut
        · rw [takesAhead_clock hq hp hr, takes_other htake hne]; rfl

end Sys2Proof.Machine
end

section
/-! LTX at a clock edge (41_led_transport R102, R105): SER_STEP case by case, and the queue with the word of a push
behind it. -/

namespace Sys2Proof.Machine

/-! ## SER_STEP in each of its cases (R105) -/

section
variable {pre : State} (s : State)

theorem serStep_inCell (hb : pre.shBusy = true) (hp : pre.shPhase ≠ pre.params.cpb - 1) :
    serStep pre s = { s with shPhase := pre.shPhase + 1 } := by
  simp only [serStep, hb, hp, if_true, if_false]

theorem serStep_cellEnd (hb : pre.shBusy = true) (hp : pre.shPhase = pre.params.cpb - 1)
    (hl : pre.shLeft ≠ 1#5) :
    serStep pre s = { s with shReg := pre.shReg <<< 1, shLeft := pre.shLeft - 1#5, shPhase := 0 } := by
  simp only [serStep, hb, hp, hl, if_true, if_false]

theorem serStep_load {w : Word} {q : List Word} (hfree : pre.shBusy = false ∨ atWordEnd pre)
    (hq : pre.txq = w :: q) : serStep pre s = serLoad w s := by
  obtain hb | ⟨hb, hp, hl⟩ := hfree
  · simp [serStep, hb, hq]
  · simp only [serStep, hb, hp, hl, hq, if_true]

theorem serStep_wordEnd (hend : atWordEnd pre) (hq : pre.txq = []) :
    serStep pre s = { s with shBusy := false, shLeft := 0#5, shPhase := 0 } := by
  obtain ⟨hb, hp, hl⟩ := hend
  simp only [serStep, hb, hp, hl, hq, if_true]

theorem serStep_rest (hb : pre.shBusy = false) (hq : pre.txq = []) : serStep pre s = s := by
  simp [serStep, hb, hq]

end

/-! ## LTX after a clock edge -/

section
variable {s t : State} {p : PinIn} {e : Events}

/-- A push finds room by the length before the edge (R102). -/
theorem pushedWords_eq (p : PinIn) (s : State) : pushedWords p s =
    if p.sel = true ∧ p.we = true ∧ p.addr = 0x08#5 ∧ s.txq.length ≠ s.params.txqDepth then [p.wdata]
    else [] := by
  simp only [pushedWords, ← Bool.not_eq_true, full_eq_true_iff, ne_eq]

theorem pushedWords_full (p : PinIn) (hlen : s.txq.length = s.params.txqDepth) : pushedWords p s = [] := by
  rw [pushedWords_eq, if_neg fun ⟨_, _, _, hroom⟩ => hroom hlen]

/-- SER_STEP decides what becomes of the registers and of the queue, behind which the pushed word goes. -/
theorem EdgeEffect.transport (he : EdgeEffect p e s t) {u : State} (hu : serStep s s = u) :
    t.shBusy = u.shBusy ∧ t.shReg = u.shReg ∧ t.shLeft = u.shLeft ∧ t.shPhase = u.shPhase ∧
      t.txq = u.txq ++ pushedWords p s := by
  subst hu
  exact ⟨he.shBusy, he.shReg, he.shLeft, he.shPhase, by rw [he.txq, serStep_txq]⟩

end

/-- Settles O33: each case of SER_STEP by its equation, with the queue of `EdgeEffect.transport`. -/
theorem serialiserStepAndQueue : Obligations.SerialiserStepAndQueue := by
  intro s p hd hp hr
  obtain ⟨t, ht, he⟩ := step_ahead hd hp hr
  rw [← pushedWords_eq]
  refine ⟨t, ht, ?_, ?_, ?_, ?_, ?_⟩
  · intro hb hphase
    simpa [hb] using he.transport (serStep_inCell s hb hphase)
  · intro hb hphase hleft
    simpa [hb] using he.transport (serStep_cellEnd s hb hphase hleft)
  · intro w q hend hq
    have hfree : s.shBusy = false ∨ atWordEnd s := by
      cases hb : s.shBusy with
      | false => exact .inl rfl
      | true => exact .inr ⟨hb, hend hb⟩
    simpa [serLoad, hq, Config.wireBits] using he.transport (serStep_load s hfree hq)
  · intro hb hphase hleft hq
    simpa [hq] using he.transport (serStep_wordEnd s ⟨hb, hphase, hleft⟩ hq)
  · intro hb hq
    simpa [hb, hq] using he.transport (serStep_rest s hb hq)

end Sys2Proof.Machine
end

section
/-! The cells of a word on the wire (41_led_transport R106, R107): which cycle of which cell the serialiser is in some
clock edges after a word was loaded, and the line in a cycle. -/

namespace Sys2Proof.Machine

theorem pulse_bounds {p : Params} (h : p.wellFormed = true) :
    0 < p.th0Cyc ∧ p.th0Cyc < p.th1Cyc ∧ p.th1Cyc < p.cpb := by
  simp only [Params.wellFormed, Params.pulseOk, Bool.and_eq_true, decide_eq_true_eq] at h
  obtain ⟨⟨⟨⟨⟨-, ⟨h0, h01⟩, h1⟩, -⟩, -⟩, -⟩, -⟩ := h
  exact ⟨h0, h01, h1⟩

/-- A cell is high for at least one cycle and low for at least one. -/
theorem highCyc_bounds {p : Params} (h : p.wellFormed = true) (bit : Bool) :
    0 < highCyc p bit ∧ highCyc p bit < p.cpb := by
  obtain ⟨h0, h01, h1⟩ := pulse_bounds h
  cases bit <;> simp only [highCyc, if_true, Bool.false_eq_true, if_false] <;> omega

section
variable {s t : State}

theorem dout_idle (hb : s.shBusy = false) : dout s = false := by simp only [dout, hb, Bool.false_and]

theorem dout_busy (hb : s.shBusy = true) :
    dout s = decide (s.shPhase < highCyc s.params (s.shReg.getLsbD 31)) := by
  simp only [dout, hb, Bool.true_and]

end

/-- Settles O35: an idle line is low by definition, and a cell is high for 1 to CPB - 1 cycles (`highCyc_bounds`). -/
theorem everyCellRisesAndEndsLow : Obligations.EveryCellRisesAndEndsLow := by
  intro s h
  obtain ⟨hpos, hlt⟩ := highCyc_bounds h.params (s.shReg.getLsbD 31)
  refine ⟨dout_idle, ?_, ?_⟩
  · intro hb hphase
    rw [dout_busy hb, hphase, decide_eq_true hpos]
  · intro hphase
    cases hb : s.shBusy with
    | false => exact dout_idle hb
    | true => rw [dout_busy hb, decide_eq_false (by omega)]

/-! ## The cycles of a word -/

/-- After the last cycle of a cell comes the first of the next. -/
theorem succ_div_mod_of_last {n c : Nat} (hc : 0 < c) (h : n % c = c - 1) :
    (n + 1) / c = n / c + 1 ∧ (n + 1) % c = 0 := by
  have hn := Nat.div_add_mod n c
  exact (Nat.div_mod_unique hc).mpr ⟨by rw [Nat.mul_add]; omega, hc⟩

/-- After any other cycle comes the next of the same cell. -/
theorem succ_div_mod_of_not_last {n c : Nat} (hc : 0 < c) (h : n % c ≠ c - 1) :
    (n + 1) / c = n / c ∧ (n + 1) % c = n % c + 1 := by
  have hn := Nat.div_add_mod n c
  have hlt := Nat.mod_lt n hc
  exact (Nat.div_mod_unique hc).mpr ⟨by omega, by omega⟩

/-- The serialiser is in cycle `n` of the word loaded as `w`: as many cells have been sent and shifted out as fit into
`n` cycles, and the rest of `n` is the phase. -/
structure SendsCycle (p : Params) (w : Word) (n : Nat) (t : State) : Prop where
  params : t.params = p
  busy   : t.shBusy = true
  left   : t.shLeft.toNat + n / p.cpb = 24
  phase  : t.shPhase = n % p.cpb
  reg    : t.shReg = w <<< (n / p.cpb)

section
variable {p : Params} {w : Word} {n : Nat} {t u : State}

/-- The next cycle of the word, as long as it is not over, whatever else the clock edge does. -/
theorem sendsCycle_succ {q : PinIn} {e : Events} (h : SendsCycle p w n t) (hc : 0 < p.cpb)
    (hn : n + 1 < 24 * p.cpb) (he : EdgeEffect q e t u) : SendsCycle p w (n + 1) u := by
  have hparams := he.params.trans h.params
  have hleft := h.left
  by_cases hlast : n % p.cpb = p.cpb - 1
  · obtain ⟨hdiv, hmod⟩ := succ_div_mod_of_last hc hlast
    have hcell : n / p.cpb + 1 < 24 := by
      rw [← hdiv]; exact Nat.div_lt_of_lt_mul (by rwa [Nat.mul_comm])
    have hne : t.shLeft ≠ 1#5 := by bv_omega
    obtain ⟨hb, hr, hl, hp, -⟩ := he.transport
      (serStep_cellEnd t h.busy (by rw [h.phase, h.params, hlast]) hne)
    refine ⟨hparams, hb.trans h.busy, ?_, by rw [hp, hmod], ?_⟩
    · rw [hl, hdiv]; bv_omega
    · rw [hr, h.reg, hdiv, BitVec.shiftLeft_add]
  · obtain ⟨hdiv, hmod⟩ := succ_div_mod_of_not_last hc hlast
    obtain ⟨hb, hr, hl, hp, -⟩ := he.transport
      (serStep_inCell t h.busy (by rw [h.phase, h.params]; exact hlast))
    exact ⟨hparams, hb.trans h.busy, by rw [hl, hdiv]; exact hleft, by rw [hp, hmod, h.phase],
      by rw [hr, hdiv, h.reg]⟩

/-- The line in that cycle. -/
theorem dout_sendsCycle (h : SendsCycle p w n t) (hn : n < 24 * p.cpb) : dout t =
    decide (n % p.cpb < highCyc p (w.getLsbD (31 - n / p.cpb))) := by
  have hcell : n / p.cpb < 24 := Nat.div_lt_of_lt_mul (by rwa [Nat.mul_comm])
  have hbit : t.shReg.getLsbD 31 = w.getLsbD (31 - n / p.cpb) := by
    rw [h.reg, BitVec.getLsbD_shiftLeft]
    simp [show ¬ 31 < n / p.cpb by omega]
  rw [dout_busy h.busy, h.params, h.phase, hbit]

end

/-- Settles O34: the word just loaded is in its cycle 0, every clock edge goes on to the next cycle
(`sendsCycle_succ`), and the line in a cycle is that of its cell (`dout_sendsCycle`). -/
theorem wordImageOnTheWire : Obligations.WordImageOnTheWire := by
  intro s h hd hb hl hp hrun n hn
  have hstart : SendsCycle s.params s.shReg 0 s :=
    ⟨rfl, hb, by rw [hl, Nat.zero_div]; rfl, by rw [hp, Nat.zero_mod], by rw [Nat.zero_div]; simp⟩
  obtain ⟨t, ht, hcycle, -⟩ := runSteps_edges (P := SendsCycle s.params s.shReg) hd
    (runsFor_mono hrun hn.le) hstart
    fun k q t u hk hat _ _ he _ => sendsCycle_succ hat (cpb_pos h.params) (by omega) he
  exact ⟨t, ht, dout_sendsCycle hcycle hn⟩

end Sys2Proof.Machine
end

section
/-! A full queue (41_led_transport R103): the clock edges to its next pop, counted down by every clock edge. -/

namespace Sys2Proof.Machine

/-- The clock edges until the serialiser takes the next word: the rest of the cell, and the whole cells after it. -/
def edgesToPop (s : State) : Nat :=
  if s.shBusy then (s.shLeft.toNat - 1) * s.params.cpb + (s.params.cpb - s.shPhase) else 1

section
variable {s t : State} {p : PinIn} {e : Events}

theorem edgesToPop_le (h : Inv s) : edgesToPop s ≤ 24 * s.params.cpb + 1 := by
  unfold edgesToPop
  split
  · have hle : s.shLeft.toNat - 1 ≤ 23 := by
      have hleft : s.shLeft ≤ 24#5 := h.transport.left
      bv_omega
    have hmul := Nat.mul_le_mul_right s.params.cpb hle
    omega
  · omega

/-- At a clock edge a full queue loses its head, or it stays as it is and the pop is one edge nearer. -/
theorem fullQueue_edge (h : Inv s) (hfull : s.txq.length = s.params.txqDepth) (he : EdgeEffect p e s t) :
    t.txq.length = s.params.txqDepth - 1 ∨
      t.txq.length = t.params.txqDepth ∧ edgesToPop t + 1 = edgesToPop s := by
  have hpush := pushedWords_full p hfull
  have hphase := h.transport.phase
  obtain ⟨w, q, hq⟩ := List.exists_cons_of_length_pos (hfull ▸ txqDepth_pos h.params)
  by_cases hfree : s.shBusy = false ∨ atWordEnd s
  · obtain ⟨-, -, -, -, htxq⟩ := he.transport (serStep_load s hfree hq)
    left
    rw [htxq, hpush, List.append_nil, ← hfull]
    exact List.length_tail
  · right
    obtain ⟨hb, hend⟩ := not_or.mp hfree
    rw [Bool.not_eq_false] at hb
    have hpos : s.shLeft ≠ 0#5 := h.transport.busy.mp hb
    by_cases hlast : s.shPhase = s.params.cpb - 1
    · have hleft : s.shLeft ≠ 1#5 := fun hl => hend ⟨hb, hlast, hl⟩
      obtain ⟨hb', -, hl', hp', htxq⟩ := he.transport (serStep_cellEnd s hb hlast hleft)
      refine ⟨by rw [htxq, hpush, List.append_nil, he.params, hfull], ?_⟩
      simp only [edgesToPop, hb'.trans hb, hb, if_true, he.params, hl', hp', hlast]
      obtain ⟨k, hk⟩ : ∃ k, s.shLeft.toNat = k + 2 := ⟨s.shLeft.toNat - 2, by bv_omega⟩
      have hk' : (s.shLeft - 1#5).toNat = k + 1 := by bv_omega
      rw [hk, hk', Nat.add_sub_cancel, show k + 2 - 1 = k + 1 from rfl, Nat.succ_mul]
      omega
    · obtain ⟨hb', -, hl', hp', htxq⟩ := he.transport (serStep_inCell s hb hlast)
      refine ⟨by rw [htxq, hpush, List.append_nil, he.params, hfull], ?_⟩
      simp only [edgesToPop, hb'.trans hb, hb, if_true, he.params, hl', hp']
      omega

/-- There is always one clock edge to wait at least. -/
theorem edgesToPop_pos (h : Inv s) : 1 ≤ edgesToPop s := by
  have hphase := h.transport.phase
  unfold edgesToPop
  split <;> omega

/-- So the pop comes within those clock edges. -/
theorem fullQueue_popped {m : Nat} (h : Inv s) (hd : DigitsOk s)
    (hfull : s.txq.length = s.params.txqDepth) (hm : edgesToPop s ≤ m) (hrun : RunsFor m s) :
    ∃ n t, 1 ≤ n ∧ n ≤ m ∧ runSteps n s = .next t ∧ t.txq.length = s.params.txqDepth - 1 := by
  induction m generalizing s with
  | zero =>
    have hpos := edgesToPop_pos h
    omega
  | succ m ih =>
    obtain ⟨q, hq, hr⟩ := hrun.head
    obtain ⟨p, t, -, -, -, ht, he, hstim, hdt⟩ := step_edge hd hq hr
    obtain hpop | ⟨hfull', hcount⟩ := fullQueue_edge h hfull he
    · exact ⟨1, t, le_rfl, by omega, runSteps_of_step ht 0, hpop⟩
    · obtain ⟨n, u, hn, hnm, hu, hlen⟩ := ih (inv_edge h he) hdt hfull' (by omega) (hrun.tail hstim)
      exact ⟨n + 1, u, by omega, by omega, (runSteps_of_step ht n).trans hu, he.params ▸ hlen⟩

end

/-- Settles O37: the pop is at most 24 cells and one edge away (`edgesToPop_le`), and every clock edge of a full queue
brings it nearer (`fullQueue_popped`). -/
theorem fullQueueIsPoppedInTime : Obligations.FullQueueIsPoppedInTime :=
  fun _ h hd hfull hrun => fullQueue_popped h hd hfull (edgesToPop_le h) hrun

end Sys2Proof.Machine
end

section
/-! Bits that cannot reach the wire (41_led_transport R107, 93_implementation_defined U3).  What is no transport leaves
them alone and reads none of them, so it commutes with writing others in their place; TX_PUSH and SER_STEP move them
within the queue and the shift register, where `SameOnWire` follows them. -/

namespace Sys2Proof.Machine

/-- The same state with another queue and another shift register. -/
def State.withWire (s : State) (q : List Word) (r : Word) : State := { s with txq := q, shReg := r }

/-! ## What reads neither the queue nor the shift register -/

section
variable (c : Ch) (p : PinIn) (q q' : List Word) (r r' : Word) (pre s : State)

@[simp] theorem withWire_ch : (s.withWire q r).ch c = s.ch c := by cases c <;> rfl

theorem setCh_withWire (k : Channel) : (s.withWire q r).setCh c k = (s.setCh c k).withWire q r := by
  cases c <;> rfl

theorem take_withWire : take c (s.withWire q r) = (take c s).withWire q r := by cases c <;> rfl

theorem edgeHandle_withWire (now : Stamp) (lvl : Bool) :
    edgeHandle c now lvl (s.withWire q r) = (edgeHandle c now lvl s).withWire q r := by
  simp only [edgeHandle, withWire_ch, setCh_withWire, apply_ite (State.withWire · q r)]

theorem shiftSample_withWire (lvl : Bool) :
    shiftSample c lvl (pre.withWire q' r') (s.withWire q r) = (shiftSample c lvl pre s).withWire q r := by
  simp only [shiftSample, withWire_ch, setCh_withWire]

theorem handoff_withWire (taken accepted : Bool) :
    handoff c taken accepted (pre.withWire q' r') (s.withWire q r) =
      (handoff c taken accepted pre s).withWire q r := by
  cases c <;> rw [handoff, handoff, apply_ite (State.withWire · q r)] <;> rfl

theorem sampleStep_withWire :
    sampleStep c p (pre.withWire q' r') (s.withWire q r) = (sampleStep c p pre s).withWire q r := by
  simp only [sampleStep, edgeTaken, withWire_ch, shiftSample_withWire, edgeHandle_withWire,
    ← apply_ite (State.withWire · q r), handoff_withWire]
  rfl

theorem handleEvent_withWire (taken : Bool) (ev : Option Bool) :
    handleEvent c taken ev (pre.withWire q' r') (s.withWire q r) =
      (handleEvent c taken ev pre s).withWire q r := by
  cases ev with
  | none => rfl
  | some lvl =>
    simp only [handleEvent, withWire_ch, edgeHandle_withWire, handoff_withWire]
    rfl

theorem blinkTick_withWire :
    blinkTick (pre.withWire q' r') (s.withWire q r) = (blinkTick pre s).withWire q r := by
  simp only [blinkTick, apply_ite (State.withWire · q r)]
  rfl

theorem blinkStep_withWire :
    blinkStep (pre.withWire q' r') (s.withWire q r) = (blinkStep pre s).withWire q r := by
  rw [blinkStep, blinkStep, blinkTick_withWire, apply_ite (State.withWire · q r)]
  rfl

theorem tickStep_withWire :
    tickStep (pre.withWire q' r') (s.withWire q r) = (tickStep pre s).withWire q r := by
  rw [tickStep, tickStep, apply_ite (State.withWire · q r)]
  rfl

theorem holdExpires_withWire : holdExpires (s.withWire q r) = (holdExpires s).withWire q r := by
  rw [holdExpires, holdExpires, blinkTick_withWire, apply_ite (State.withWire · q r)]
  rfl

theorem hostPrepare_withWire :
    hostPrepare (s.withWire q r) = (hostPrepare s).map (State.withWire · q r) := by
  rw [hostPrepare, hostPrepare, show (s.withWire q r).host = s.host from rfl]
  split
  next d rest _ =>
    rw [show render (s.withWire q r).params d (s.withWire q r).params.fgColor =
      render s.params d s.params.fgColor from rfl]
    cases render s.params d s.params.fgColor <;> rfl
  next => rfl

theorem walk_withWire (first : Bool) (d : Due) (ls : List TimedLine) :
    Due.walk (s.withWire q r) first d ls = Due.walk s first d ls := by
  induction ls generalizing first d with
  | nil => rfl
  | cons l ls ih => exact ih _ _

theorem traceDue_withWire : traceDue (s.withWire q r) = traceDue s := walk_withWire q r s _ _ _

end

/-! ## States that differ in such bits -/

section
variable {s s' t pre pre' : State} {w v : Word} {q : List Word} {r : Word} {p : PinIn} {c : Ch}

theorem SameOnWire.refl (s : State) : SameOnWire s s := ⟨⟨s.txq, s.shReg, rfl⟩, rfl, fun _ _ _ => rfl⟩

theorem SameOnWire.exists_withWire (h : SameOnWire s s') : ∃ q r, s' = s.withWire q r := h.rest

theorem SameOnWire.length_eq (h : SameOnWire s (s.withWire q r)) : q.length = s.txq.length := by
  simpa [State.withWire] using congrArg List.length h.queue

/-- What leaves the transport alone leaves the states so. -/
theorem SameOnWire.of_transport (h : SameOnWire s (s.withWire q r)) (htxq : t.txq = s.txq)
    (hbusy : t.shBusy = s.shBusy) (hreg : t.shReg = s.shReg) (hleft : t.shLeft = s.shLeft) :
    SameOnWire t (t.withWire q r) where
  rest := ⟨q, r, rfl⟩
  queue := by rw [htxq]; exact h.queue
  shReg := by rw [hbusy, hreg, hleft]; exact h.shReg

theorem SameOnWire.with_trace_host (h : SameOnWire s s') (ls : List TimedLine) (hs : HostState) :
    SameOnWire { s with trace := ls, host := hs } { s' with trace := ls, host := hs } := by
  obtain ⟨q, r, rfl⟩ := h.exists_withWire
  exact h.of_transport rfl rfl rfl rfl

theorem reply_sameOnWire (h : SameOnWire s s') : s.reply = s'.reply := by
  obtain ⟨q, r, rfl⟩ := h.exists_withWire
  rfl

theorem host_sameOnWire (h : SameOnWire s s') : s.host = s'.host := by
  obtain ⟨q, r, rfl⟩ := h.exists_withWire
  rfl

/-- Words that agree in bits 31:8. -/
theorem getLsbD_of_ushiftRight_eq (h : w >>> 8 = v >>> 8) {i : Nat} (hi : 8 ≤ i) :
    w.getLsbD i = v.getLsbD i := by
  have hbit := congrArg (fun x => x.getLsbD (i - 8)) h
  simpa only [BitVec.getLsbD_ushiftRight, Nat.add_sub_cancel' hi] using hbit

/-- Words that agree from a bit on, shifted left. -/
theorem getLsbD_shiftLeft_of_agree {m n i : Nat} (h : ∀ i, m ≤ i → w.getLsbD i = v.getLsbD i)
    (hi : m + n ≤ i) : (w <<< n).getLsbD i = (v <<< n).getLsbD i := by
  simp only [BitVec.getLsbD_shiftLeft, h (i - n) (by omega)]

/-! ## The port -/

theorem txStatWord_withWire (hlen : q.length = s.txq.length) : (s.withWire q r).txStatWord = s.txStatWord := by
  simp only [State.txStatWord, State.full, State.empty, State.withWire, hlen]

/-- Pushes of words that agree in bits 31:8. -/
theorem push_sameOnWire (h : SameOnWire s s') (hw : w >>> 8 = v >>> 8)
    (he : exec (.txPush w) s = .next t) : ∃ t', exec (.txPush v) s' = .next t' ∧ SameOnWire t t' := by
  obtain ⟨q, r, rfl⟩ := h.exists_withWire
  have hfull : (s.withWire q r).full = s.full := by
    simp only [State.full, State.withWire, h.length_eq]
  have hdata : (s.withWire q r).pushRdata v = s.pushRdata w := by
    simp only [State.pushRdata, txStatWord_withWire h.length_eq, hw]
    rfl
  cases hf : s.full with
  | true =>
    cases he.symm.trans (if_pos hf)
    exact ⟨_, if_pos (hfull.trans hf), hdata ▸ h.of_transport rfl rfl rfl rfl⟩
  | false =>
    cases he.symm.trans (if_neg (Bool.eq_false_iff.mp hf))
    refine ⟨_, if_neg (Bool.eq_false_iff.mp (hfull.trans hf)), ?_⟩
    rw [hdata]
    exact ⟨⟨q ++ [v], r, rfl⟩, by simpa [hw] using h.queue, h.shReg⟩

/-- Every operation. -/
theorem exec_sameOnWire {i : Instr} (h : SameOnWire s s') (he : exec i s = .next t) :
    ∃ t', exec i s' = .next t' ∧ SameOnWire t t' := by
  obtain ⟨q, r, rfl⟩ := h.exists_withWire
  cases i with
  | txPush w => exact push_sameOnWire h rfl he
  | takeInc => cases he; exact ⟨_, rfl, take_withWire .inc q r s ▸ h.of_transport rfl rfl rfl rfl⟩
  | takeDec => cases he; exact ⟨_, rfl, take_withWire .dec q r s ▸ h.of_transport rfl rfl rfl rfl⟩
  | txStat =>
    cases he
    refine ⟨_, rfl, ?_⟩
    rw [txStatWord_withWire h.length_eq]
    exact h.of_transport rfl rfl rfl rfl
  | blinkStart =>
    cases hb : s.blinkBusy with
    | true =>
      cases he.symm.trans (if_pos hb)
      exact ⟨_, if_pos hb, h.of_transport rfl rfl rfl rfl⟩
    | false =>
      cases he.symm.trans (if_neg (Bool.eq_false_iff.mp hb))
      exact ⟨_, if_neg (Bool.eq_false_iff.mp hb), h.of_transport rfl rfl rfl rfl⟩
  | blinkNop => cases he; exact ⟨_, rfl, h.of_transport rfl rfl rfl rfl⟩
  | blinkStat => cases he; exact ⟨_, rfl, h.of_transport rfl rfl rfl rfl⟩
  | edgeInc lvl =>
    cases he
    exact ⟨_, rfl, edgeHandle_withWire .inc q r s s.time lvl ▸
      h.of_transport (by simp) (by simp) (by simp) (by simp)⟩
  | edgeDec lvl =>
    cases he
    exact ⟨_, rfl, edgeHandle_withWire .dec q r s s.time lvl ▸
      h.of_transport (by simp) (by simp) (by simp) (by simp)⟩

/-! ## The hardware's events -/

/-- SER_STEP loads words that agree in bits 31:8, and shifts the bits that differ further from the wire, since a busy
serialiser has bits left. -/
theorem serStep_sameOnWire (hpos : pre.shBusy = true → pre.shLeft ≠ 0#5) (hpre : SameOnWire pre pre')
    (h : SameOnWire s s') : SameOnWire (serStep pre s) (serStep pre' s') := by
  obtain ⟨q', r', rfl⟩ := hpre.exists_withWire
  obtain ⟨q, r, rfl⟩ := h.exists_withWire
  have hqueue : q'.map (fun w : Word => w >>> 8) = pre.txq.map (fun w : Word => w >>> 8) := hpre.queue
  obtain ⟨w, ws, hq, hfree, hs⟩ | ⟨hq, hend, hs⟩ | ⟨hb, hp, hl, hs⟩ | ⟨hb, hp, hs⟩ | ⟨hq, hb, hs⟩ :=
    serStep_cases pre s <;> rw [hs]
  · obtain ⟨v, vs, rfl, hw, -⟩ := List.map_eq_cons_iff.mp (hqueue.trans (by rw [hq, List.map_cons]))
    rw [serStep_load (pre := pre.withWire (v :: vs) r') (s.withWire q r) hfree rfl]
    refine ⟨⟨q.tail, v, rfl⟩, ?_, fun _ i hi => getLsbD_of_ushiftRight_eq hw hi⟩
    simpa [serLoad, List.map_tail] using congrArg List.tail h.queue
  · obtain rfl : q' = [] := by simpa [hq] using hqueue
    rw [serStep_wordEnd (pre := pre.withWire [] r') (s.withWire q r) hend rfl]
    exact ⟨⟨q, r, rfl⟩, h.queue, fun hbusy => absurd hbusy Bool.false_ne_true⟩
  · rw [serStep_cellEnd (pre := pre.withWire q' r') (s.withWire q r) hb hp hl]
    refine ⟨⟨q, r' <<< 1, rfl⟩, h.queue, fun _ i hi => ?_⟩
    have hne := hpos hb
    change 32 - (pre.shLeft - 1#5).toNat ≤ i at hi
    exact getLsbD_shiftLeft_of_agree (hpre.shReg hb) (by bv_omega)
  · rw [serStep_inCell (pre := pre.withWire q' r') (s.withWire q r) hb hp]
    exact ⟨⟨q, r, rfl⟩, h.queue, h.shReg⟩
  · obtain rfl : q' = [] := by simpa [hq] using hqueue
    rw [serStep_rest (pre := pre.withWire [] r') (s.withWire q r) hb rfl]
    exact h

theorem hardwareEvents_sameOnWire (hpos : pre.shBusy = true → pre.shLeft ≠ 0#5) (hpre : SameOnWire pre pre')
    (h : SameOnWire s s') : SameOnWire (hardwareEvents p pre s) (hardwareEvents p pre' s') := by
  obtain ⟨q, r, rfl⟩ := h.exists_withWire
  have hsampled : SameOnWire (sampleStep .dec p pre (sampleStep .inc p pre s))
      (sampleStep .dec p pre' (sampleStep .inc p pre' (s.withWire q r))) := by
    obtain ⟨q', r', rfl⟩ := hpre.exists_withWire
    rw [sampleStep_withWire, sampleStep_withWire]
    exact h.of_transport (by simp) (by simp) (by simp) (by simp)
  have hser := serStep_sameOnWire hpos hpre hsampled
  unfold hardwareEvents
  generalize serStep pre (sampleStep .dec p pre (sampleStep .inc p pre s)) = u at hser ⊢
  obtain ⟨a, b, hu⟩ := hser.exists_withWire
  rw [hu] at hser ⊢
  obtain ⟨q', r', rfl⟩ := hpre.exists_withWire
  rw [blinkStep_withWire, tickStep_withWire]
  exact hser.of_transport (by simp) (by simp) (by simp) (by simp)

theorem handleEvents_sameOnWire (e : Events) (hpre : SameOnWire pre pre') (h : SameOnWire s s') :
    SameOnWire (handleEvents p e pre s) (handleEvents p e pre' s') := by
  obtain ⟨q', r', rfl⟩ := hpre.exists_withWire
  obtain ⟨q, r, rfl⟩ := h.exists_withWire
  rw [handleEvents, handleEvents, handleEvent_withWire, handleEvent_withWire]
  exact h.of_transport (by simp) (by simp) (by simp) (by simp)

/-- The last cycle of a word holds the last of its bits, whatever the bits behind it. -/
theorem lastCycle_sameOnWire (hpos : s.shBusy = true → s.shLeft ≠ 0#5) (h : SameOnWire s s') :
    SameOnWire (lastCycle s) (lastCycle s') := by
  obtain ⟨q, r, rfl⟩ := h.exists_withWire
  cases hb : s.shBusy with
  | false =>
    have hlast : ∀ u : State, u.shBusy = false → lastCycle u = u := fun u hu => if_neg (by simp [hu])
    rw [hlast s hb, hlast (s.withWire q r) hb]
    exact h
  | true =>
    have hlast : ∀ u : State, u.shBusy = true → lastCycle u = { u with
        shReg := u.shReg <<< (u.shLeft.toNat - 1), shLeft := 1#5, shPhase := u.params.cpb - 1 } :=
      fun u hu => if_pos hu
    rw [hlast s hb, hlast (s.withWire q r) hb]
    refine ⟨⟨q, r <<< (s.shLeft.toNat - 1), rfl⟩, h.queue, fun _ i hi => ?_⟩
    have hge : s.shLeft.toNat ≠ 0 := by have hne := hpos hb; bv_omega
    change 31 ≤ i at hi
    exact getLsbD_shiftLeft_of_agree (n := s.shLeft.toNat - 1) (h.shReg hb) (by omega)

theorem wordDone_sameOnWire (hpos : s.shBusy = true → s.shLeft ≠ 0#5) (h : SameOnWire s s') :
    SameOnWire (wordDone s) (wordDone s') := by
  have hlast := lastCycle_sameOnWire hpos h
  refine serStep_sameOnWire (fun hb => ?_) hlast hlast
  unfold lastCycle at hb ⊢
  split
  · exact (by decide : (1#5 : BitVec 5) ≠ 0#5)
  next hidle => rw [if_neg hidle] at hb; exact absurd hb hidle

theorem holdExpires_sameOnWire (h : SameOnWire s (s.withWire q r)) :
    SameOnWire (holdExpires s) (holdExpires (s.withWire q r)) := by
  rw [holdExpires_withWire]
  obtain ⟨-, -, -, hs⟩ | ⟨-, -, -, hs⟩ | ⟨-, hs⟩ := holdExpires_cases s <;> rw [hs] <;>
    exact h.of_transport rfl rfl rfl rfl

/-! ## The whole step -/

/-- Where one outcome is a next state, the other is one that differs in such bits alone. -/
def FollowsOnWire (o o' : Host.Outcome State Fault Refusal) : Prop :=
  ∀ t, o = .next t → ∃ t', o' = .next t' ∧ SameOnWire t t'

theorem FollowsOnWire.next (h : SameOnWire s s') : FollowsOnWire (.next s) (.next s') := by
  rintro t ⟨⟩
  exact ⟨s', rfl, h⟩

theorem FollowsOnWire.andThen {o o' : Host.Outcome State Fault Refusal}
    {f f' : State → Host.Outcome State Fault Refusal} (h : FollowsOnWire o o')
    (hf : ∀ u u', SameOnWire u u' → FollowsOnWire (f u) (f' u')) :
    FollowsOnWire (andThen o f) (andThen o' f') := by
  intro t ht
  obtain ⟨u, hu, hfu⟩ := andThen_eq_next.mp ht
  obtain ⟨u', hu', hsame⟩ := h u hu
  obtain ⟨t', ht', hsame'⟩ := hf u u' hsame t hfu
  exact ⟨t', andThen_eq_next.mpr ⟨u', hu', ht'⟩, hsame'⟩

theorem runWord_sameOnWire (x : TraceWord) (h : SameOnWire s s') :
    FollowsOnWire (runWord x s) (runWord x s') := by
  cases hd : decode x with
  | ok i =>
    rw [runWord_ok hd, runWord_ok hd]
    exact fun _ => exec_sameOnWire h
  | error e =>
    rw [runWord_error hd, runWord_error hd]
    intro t ht
    obtain ⟨c, rfl, rfl⟩ := rejectWord_eq_next.mp ht
    obtain ⟨q, r, rfl⟩ := h.exists_withWire
    exact ⟨_, rfl, h.of_transport rfl rfl rfl rfl⟩

theorem portStep_sameOnWire (p : PinIn) (h : SameOnWire s s') :
    FollowsOnWire (portStep p s) (portStep p s') := by
  cases hsel : p.sel with
  | false =>
    rw [portStep_idle hsel, portStep_idle hsel]
    obtain ⟨q, r, rfl⟩ := h.exists_withWire
    exact .next (h.of_transport rfl rfl rfl rfl)
  | true =>
    rw [portStep_sel hsel, portStep_sel hsel]
    exact runWord_sameOnWire _ h

/-- A clock edge of the block; a reset leaves no trace of such bits. -/
theorem clockEdge_sameOnWire (p : PinIn) (hpos : s.shBusy = true → s.shLeft ≠ 0#5) (h : SameOnWire s s') :
    FollowsOnWire (clockEdge p s) (clockEdge p s') := by
  unfold clockEdge
  split
  · obtain ⟨q, r, rfl⟩ := h.exists_withWire
    exact .next (.refl _)
  · exact (portStep_sameOnWire p h).andThen fun _ _ hu => .next (hardwareEvents_sameOnWire hpos h hu)

/-- The host reads the same answer. -/
theorem hostNext_sameOnWire (rst : Bool) (h : SameOnWire s s') :
    SameOnWire { s with host := hostNext rst s.reply s.host } { s' with host := hostNext rst s'.reply s'.host } := by
  obtain ⟨q, r, rfl⟩ := h.exists_withWire
  exact h.with_trace_host _ _

/-- What the host prepares is the same, and no transport. -/
theorem hostPrepare_sameOnWire (hpos : s.shBusy = true → s.shLeft ≠ 0#5)
    (h : SameOnWire s (s.withWire q r)) :
    (∃ d, hostPrepare s = .error d) ∨ ∃ u, hostPrepare s = .ok u ∧
      hostPrepare (s.withWire q r) = .ok (u.withWire q r) ∧ SameOnWire u (u.withWire q r) ∧
      (u.shBusy = true → u.shLeft ≠ 0#5) := by
  cases hs : hostPrepare s with
  | error d => exact .inl ⟨d, rfl⟩
  | ok u =>
    refine .inr ⟨u, rfl, by rw [hostPrepare_withWire, hs]; rfl, ?_⟩
    obtain ⟨prog, rfl⟩ := hostPrepare_ok hs
    exact ⟨h.of_transport rfl rfl rfl rfl, hpos⟩

theorem edgeStep_sameOnWire (p : PinIn) (hpos : s.shBusy = true → s.shLeft ≠ 0#5) (h : SameOnWire s s') :
    FollowsOnWire (edgeStep p s) (edgeStep p s') := by
  obtain ⟨q, r, rfl⟩ := h.exists_withWire
  unfold edgeStep
  obtain ⟨d, hs⟩ | ⟨u, hs, hs', hu, hpos'⟩ := hostPrepare_sameOnWire hpos h
  · rw [hs]
    rintro t ⟨⟩
  · rw [hs, hs']
    exact (clockEdge_sameOnWire _ hpos' hu).andThen fun _ _ ht => .next (hostNext_sameOnWire _ ht)

theorem tracedStep_sameOnWire (p : PinIn) (hpos : s.shBusy = true → s.shLeft ≠ 0#5) (h : SameOnWire s s') :
    FollowsOnWire (tracedStep p s) (tracedStep p s') := by
  obtain ⟨q, r, rfl⟩ := h.exists_withWire
  unfold tracedStep
  obtain ⟨d, hs⟩ | ⟨u, hs, hs', hu, hpos'⟩ := hostPrepare_sameOnWire hpos h
  · rw [hs]
    rintro t ⟨⟩
  · rw [hs, hs']
    dsimp only
    rw [traceDue_withWire]
    refine (clockEdge_sameOnWire _ hpos' hu).andThen fun t t' ht => .next ?_
    cases p.rst with
    | true => exact hostNext_sameOnWire true ht
    | false =>
      have hevents := handleEvents_sameOnWire (p := hostPins u.host ((traceDue u).pins p))
        (traceDue u).events hu ht
      simp only [Bool.false_eq_true, if_false, handleEvents_host]
      rw [← reply_sameOnWire ht, ← host_sameOnWire ht]
      exact hevents.with_trace_host _ _

/-- A step of any kind. -/
theorem step_sameOnWire (hpos : s.shBusy = true → s.shLeft ≠ 0#5) (h : SameOnWire s s') :
    FollowsOnWire (step s) (step s') := by
  obtain ⟨q, r, rfl⟩ := h.exists_withWire
  have hpop : SameOnWire s.popStim (s.popStim.withWire q r) := h.of_transport rfl rfl rfl rfl
  unfold step
  rw [show (s.withWire q r).nextStimulus = s.nextStimulus from rfl,
    show (s.withWire q r).popStim = s.popStim.withWire q r from rfl]
  cases s.nextStimulus with
  | edge p => exact edgeStep_sameOnWire p hpos hpop
  | traced p => exact tracedStep_sameOnWire p hpos hpop
  | op x => exact runWord_sameOnWire x hpop
  | elapse us => exact .next (hpop.of_transport rfl rfl rfl rfl)
  | wordDone => exact .next (wordDone_sameOnWire hpos hpop)
  | holdExpires => exact .next (holdExpires_sameOnWire hpop)

/-- The line shows the top bit of the shift register alone, which is still to be sent. -/
theorem dout_sameOnWire (hpos : s.shBusy = true → s.shLeft ≠ 0#5) (h : SameOnWire s s') : dout s = dout s' := by
  obtain ⟨q, r, rfl⟩ := h.exists_withWire
  cases hb : s.shBusy with
  | false => rw [dout_idle hb, dout_idle (s := s.withWire q r) hb]
  | true =>
    have hne := hpos hb
    have hbit := h.shReg hb 31 (by bv_omega)
    rw [dout_busy hb, dout_busy (s := s.withWire q r) hb, hbit]
    rfl

end

/-- Settles O36: `SameOnWire` is a simulation (`step_sameOnWire`) entered by pushes that agree in bits 31:8
(`push_sameOnWire`); it fixes the line, whose bit is still to be sent, and the answer. -/
theorem lowByteIsNeverSeen : Obligations.LowByteIsNeverSeen := by
  constructor
  · intro s s' t h hsame ht
    obtain ⟨t', ht', hsame'⟩ := step_sameOnWire h.transport.busy.mp hsame t ht
    have hinv := everyStepKeepsTheInvariant s t h ht
    exact ⟨t', ht', hsame', dout_sameOnWire hinv.transport.busy.mp hsame', reply_sameOnWire hsame'⟩
  · intro s t w v hw ht
    obtain ⟨t', ht', hsame⟩ := push_sameOnWire (.refl s) hw ht
    exact ⟨t', ht', hsame, reply_sameOnWire hsame⟩

end Sys2Proof.Machine
end

section
/-! The operations of LTX (41_led_transport R100, R104), and what the decoder makes of the offsets of LTX and BLK. -/

namespace Sys2Proof

/-! ## The offsets (30_encoding R68, 20_memory R44) -/

section
variable (we : Bool) (d : Word)

theorem decodeAccess_txData : decodeAccess we 0x08#5 d =
    if we then .ok (.txPush d) else .error (.busError .readWo) := by
  cases we <;> rfl

theorem decodeAccess_txStat : decodeAccess we 0x0C#5 d =
    if we then .error (.busError .writeRo) else .ok .txStat := by
  cases we <;> rfl

theorem decodeAccess_blinkCtrl : decodeAccess we 0x10#5 d =
    if we then .ok (if d.getLsbD 0 then .blinkStart else .blinkNop) else .ok .blinkStat := by
  cases we
  · rfl
  · exact (apply_ite Except.ok (d.getLsbD 0 = true) _ _).symm

end

end Sys2Proof

namespace Sys2Proof.Machine

/-! ## TX_PUSH and TX_STAT -/

/-- Settles O17: the two branches of TX_PUSH by FULL, and the decoder at offset 0x08. -/
theorem pushAppendsOrStalls : Obligations.PushAppendsOrStalls := by
  refine ⟨?_, ?_, ?_⟩
  · intro s w hlen
    exact ⟨s.pushRdata w, if_pos (full_eq_true_iff.mpr hlen)⟩
  · intro s w hlen
    exact ⟨s.pushRdata w, if_neg (mt full_eq_true_iff.mp hlen)⟩
  · intro d
    rw [decode_pack, decodeAccess_txData]
    rfl

section
variable (s : State)

theorem txStatWord_full : s.txStatWord.getLsbD 0 = s.full := by
  simp only [State.txStatWord, BitVec.getLsbD_append, BitVec.getLsbD_ofBool]
  simp

theorem txStatWord_zeros : s.txStatWord.extractLsb' 3 5 = 0#5 ∧ s.txStatWord.extractLsb' 16 16 = 0#16 := by
  constructor <;> ext i hi <;> simp only [State.txStatWord, BitVec.getElem_extractLsb', BitVec.getLsbD_append]
  · simp; omega
  · simp; omega

theorem txStatWord_level : s.txStatWord.extractLsb' 8 8 = BitVec.ofNat 8 s.txq.length := by
  ext i hi
  simp only [State.txStatWord, BitVec.getElem_extractLsb', BitVec.getLsbD_append]
  simp [hi]

end

theorem txqDepth_le {p : Params} (h : p.wellFormed = true) : p.txqDepth ≤ 255 := by
  simp only [Params.wellFormed, Params.depthOk, Bool.and_eq_true, decide_eq_true_eq] at h
  obtain ⟨⟨⟨⟨-, -, hle⟩, -⟩, -⟩, -⟩ := h
  exact hle

/-- Settles O18: TX_STAT answers `txStatWord` and does nothing else; its fields one by one, of which LEVEL holds the
length since TXQ_DEPTH is at most 255. -/
theorem txStatReadsTheQueue : Obligations.TxStatReadsTheQueue := by
  constructor
  · intro s h
    have hlen : s.txq.length < 2 ^ 8 := by
      have hdepth := h.transport.depth
      have hmax := txqDepth_le h.params
      omega
    obtain ⟨hlow, hhigh⟩ := txStatWord_zeros s
    refine ⟨s.txStatWord, rfl, ?_, ?_, txStatWord_busy s, hlow, ?_, hhigh⟩
    · rw [txStatWord_full, full_eq_true_iff]
    · rw [txStatWord_empty, empty_eq_true_iff]
    · rw [txStatWord_level, BitVec.toNat_ofNat, Nat.mod_eq_of_lt hlen]
  · intro d
    rw [decode_pack, decodeAccess_txStat]
    rfl

end Sys2Proof.Machine
end

section
/-! LTX and BLK on their own (41_led_transport R114, 42_blink R138): the same transaction at a clock edge of two blocks
that agree in one of the units, in the words of the unit's registers and of its answers. -/

namespace Sys2Proof.Machine

/-! ## The same transaction -/

section
variable {p q : PinIn} {s t : State}

theorem sel_of_xact (hx : p.xact = q.xact) : p.sel = q.sel := by
  have hsome : ∀ r : PinIn, r.xact.isSome = r.sel := fun r => by
    unfold PinIn.xact; cases r.sel <;> rfl
  rw [← hsome p, hx, hsome q]

theorem fields_of_xact (hx : p.xact = q.xact) (hsel : p.sel = true) :
    p.we = q.we ∧ p.addr = q.addr ∧ p.wdata = q.wdata := by
  have hsel' : q.sel = true := sel_of_xact hx ▸ hsel
  have hpack : packXact p.we p.addr p.wdata = packXact q.we q.addr q.wdata := by
    simpa [PinIn.xact, hsel, hsel'] using hx
  exact ⟨by simpa using congrArg xactWe hpack, by simpa using congrArg xactAddr hpack,
    by simpa using congrArg xactWdata hpack⟩

theorem pushedWords_of_xact (hx : p.xact = q.xact) (hfull : s.full = t.full) :
    pushedWords p s = pushedWords q t := by
  cases hsel : p.sel with
  | false => simp [pushedWords, hsel, ← sel_of_xact hx]
  | true =>
    obtain ⟨hwe, haddr, hdata⟩ := fields_of_xact hx hsel
    simp only [pushedWords, sel_of_xact hx, hwe, haddr, hdata, hfull]

theorem startsBlink_of_xact (hx : p.xact = q.xact) (hb : s.blinkBusy = t.blinkBusy) :
    startsBlink p s = startsBlink q t := by
  cases hsel : p.sel with
  | false => simp [startsBlink, hsel, ← sel_of_xact hx]
  | true =>
    obtain ⟨hwe, haddr, hdata⟩ := fields_of_xact hx hsel
    simp only [startsBlink, sel_of_xact hx, hwe, haddr, hdata, hb]

/-! ## A clock edge of one unit (R114) -/

theorem clockEdge_answers (p : PinIn) (s : State) : ∃ t, clockEdge p s = .next t := by
  cases hr : p.rst with
  | true => exact ⟨_, clockEdge_reset p s hr⟩
  | false =>
    obtain ⟨t, ht, -⟩ := clockEdge_run p s hr
    exact ⟨t, ht⟩

theorem clockEdge_cases (h : clockEdge p s = .next t) :
    (p.rst = true ∧ t = applyReset s) ∨
      (p.rst = false ∧ EdgeEffect p Events.empty s t ∧ ∃ u, portStep p s = .next u ∧ t.reply = u.reply) := by
  cases hr : p.rst with
  | true =>
    rw [clockEdge_reset p s hr] at h
    cases h
    exact .inl ⟨rfl, rfl⟩
  | false =>
    obtain ⟨u, hu, he⟩ := portStep_answers p s
    simp only [clockEdge, hr, hu, andThen_next, Bool.false_eq_true, if_false] at h
    cases h
    exact .inr ⟨rfl, hardwareEvents_effect he, u, hu, hardwareEvents_reply ..⟩

/-- `t` with the parameters and LTX of `s`. -/
def State.ltxIn (s t : State) : State :=
  { t with
    params := s.params, txq := s.txq, shBusy := s.shBusy, shReg := s.shReg, shLeft := s.shLeft,
    shPhase := s.shPhase }

/-- `t` with the parameters, the prescaler and BLK of `s`. -/
def State.blkIn (s t : State) : State :=
  { t with
    params := s.params, usDiv := s.usDiv, blinkBusy := s.blinkBusy, statusOut := s.statusOut,
    blinkCnt := s.blinkCnt, blinkRem := s.blinkRem }

theorem serStep_ltxIn (s t : State) : serStep (s.ltxIn t) (s.ltxIn t) = (serStep s s).ltxIn t := by
  rw [serStep, serStep, show (s.ltxIn t).txq = s.txq from rfl]
  cases s.txq <;> simp only [apply_ite (State.ltxIn · t)] <;> rfl

theorem blinkStep_blkIn (s t : State) : blinkStep (s.blkIn t) (s.blkIn t) = (blinkStep s s).blkIn t := by
  simp only [blinkStep, blinkTick, apply_ite (State.blkIn · t)]
  rfl

variable {s' t' u v : State} {e e' : Events}

theorem EdgeEffect.ltxIn (hx : p.xact = q.xact) (hs : EdgeEffect p e s s')
    (ht : EdgeEffect q e' (s.ltxIn t) t') : t' = s'.ltxIn t' := by
  have hser := serStep_ltxIn s t
  have hparams : s'.params = t'.params := hs.params.trans ht.params.symm
  have htxq : s'.txq = t'.txq := by
    rw [hs.txq, ht.txq, pushedWords_of_xact (s := s) (t := s.ltxIn t) hx rfl]; rfl
  have hbusy : s'.shBusy = t'.shBusy := by rw [hs.shBusy, ht.shBusy, hser]; rfl
  have hreg : s'.shReg = t'.shReg := by rw [hs.shReg, ht.shReg, hser]; rfl
  have hleft : s'.shLeft = t'.shLeft := by rw [hs.shLeft, ht.shLeft, hser]; rfl
  have hphase : s'.shPhase = t'.shPhase := by rw [hs.shPhase, ht.shPhase, hser]; rfl
  rw [State.ltxIn, hparams, htxq, hbusy, hreg, hleft, hphase]

theorem EdgeEffect.blkIn (hx : p.xact = q.xact) (hs : EdgeEffect p e s s')
    (ht : EdgeEffect q e' (s.blkIn t) t') : t' = s'.blkIn t' := by
  have hblink := blinkStep_blkIn s t
  have hstart := startsBlink_of_xact (s := s) (t := s.blkIn t) hx rfl
  have hparams : s'.params = t'.params := hs.params.trans ht.params.symm
  have hdiv : s'.usDiv = t'.usDiv := hs.usDiv.trans ht.usDiv.symm
  have hbusy : s'.blinkBusy = t'.blinkBusy := by rw [hs.busy, ht.busy, hblink, hstart]; rfl
  have hout : s'.statusOut = t'.statusOut := by rw [hs.out, ht.out, hblink, hstart]; rfl
  have hcnt : s'.blinkCnt = t'.blinkCnt := by rw [hs.cnt, ht.cnt, hblink, hstart]; rfl
  have hrem : s'.blinkRem = t'.blinkRem := by rw [hs.rem, ht.rem, hblink, hstart]; rfl
  rw [State.blkIn, hparams, hdiv, hbusy, hout, hcnt, hrem]

/-! ## The answers -/

theorem exec_txPush_reply {w : Word} (h : exec (.txPush w) s = .next t) :
    t.reply = { ready := !s.full, err := false, rdata := s.pushRdata w } := by
  cases hf : s.full with
  | true => cases h.symm.trans (if_pos hf); rfl
  | false => cases h.symm.trans (if_neg (Bool.eq_false_iff.mp hf)); rfl

theorem exec_blinkStart_reply (h : exec .blinkStart s = .next t) :
    t.reply = { ready := true, err := false, rdata := s.blinkRdata .blinkStart } := by
  cases hb : s.blinkBusy with
  | true => cases h.symm.trans (if_pos hb); rfl
  | false => cases h.symm.trans (if_neg (Bool.eq_false_iff.mp hb)); rfl

/-- The same transaction is answered alike where the operation it decodes to is. -/
theorem portStep_reply_of_exec (hx : p.xact = q.xact)
    (hexec : ∀ i, decodeAccess p.we p.addr p.wdata = .ok i →
      ∀ u v, exec i s = .next u → exec i t = .next v → u.reply = v.reply)
    (hu : portStep p s = .next u) (hv : portStep q t = .next v) : u.reply = v.reply := by
  cases hsel : p.sel with
  | false =>
    rw [portStep_idle hsel] at hu
    rw [portStep_idle (sel_of_xact hx ▸ hsel)] at hv
    cases hu
    cases hv
    rfl
  | true =>
    obtain ⟨hwe, haddr, hdata⟩ := fields_of_xact hx hsel
    rw [portStep_sel hsel] at hu
    rw [portStep_sel (sel_of_xact hx ▸ hsel), ← hwe, ← haddr, ← hdata] at hv
    cases hd : decodeAccess p.we p.addr p.wdata with
    | ok i =>
      rw [runWord_ok ((decode_pack _ _ _).trans hd)] at hu hv
      exact hexec i hd u v hu hv
    | error c =>
      rw [runWord_error ((decode_pack _ _ _).trans hd), rejectWord_eq_next] at hu hv
      obtain ⟨-, -, rfl⟩ := hu
      obtain ⟨-, -, rfl⟩ := hv
      rfl

theorem portStep_reply_ltxIn (hx : p.xact = q.xact) (ha : p.addr = 0x08#5 ∨ p.addr = 0x0C#5)
    (hu : portStep p s = .next u) (hv : portStep q (s.ltxIn t) = .next v) : u.reply = v.reply := by
  refine portStep_reply_of_exec hx (fun i hd a b hea heb => ?_) hu hv
  obtain ha | ha := ha
  · rw [ha, decodeAccess_txData] at hd
    split at hd <;> cases hd
    exact (exec_txPush_reply hea).trans (exec_txPush_reply heb).symm
  · rw [ha, decodeAccess_txStat] at hd
    split at hd <;> cases hd
    cases hea
    cases heb
    rfl

theorem portStep_reply_blkIn (hx : p.xact = q.xact) (ha : p.addr = 0x10#5)
    (hu : portStep p s = .next u) (hv : portStep q (s.blkIn t) = .next v) : u.reply = v.reply := by
  refine portStep_reply_of_exec hx (fun i hd a b hea heb => ?_) hu hv
  rw [ha, decodeAccess_blinkCtrl] at hd
  split at hd
  · split at hd <;> cases hd
    · exact (exec_blinkStart_reply hea).trans (exec_blinkStart_reply heb).symm
    · cases hea
      cases heb
      rfl
  · cases hd
    cases hea
    cases heb
    rfl

/-! ## Independence -/

/-- LTX and its answers after a clock edge, whatever the other units hold. -/
theorem clockEdge_ltxIn (hx : p.xact = q.xact) (hr : p.rst = q.rst) (hs : clockEdge p s = .next s')
    (ht : clockEdge q (s.ltxIn t) = .next t') :
    t' = s'.ltxIn t' ∧ (p.addr = 0x08#5 ∨ p.addr = 0x0C#5 → s'.reply = t'.reply) := by
  obtain ⟨hp, rfl⟩ | ⟨hp, hes, u, hu, hsu⟩ := clockEdge_cases hs
  · rw [clockEdge_reset q _ (hr ▸ hp)] at ht
    cases ht
    exact ⟨rfl, fun _ => rfl⟩
  · obtain ⟨hq, -⟩ | ⟨-, het, v, hv, htv⟩ := clockEdge_cases ht
    · rw [← hr, hp] at hq
      cases hq
    · exact ⟨hes.ltxIn hx het, fun ha => by rw [hsu, htv, portStep_reply_ltxIn hx ha hu hv]⟩

/-- BLK and its answers after a clock edge, whatever the other units hold. -/
theorem clockEdge_blkIn (hx : p.xact = q.xact) (hr : p.rst = q.rst) (hs : clockEdge p s = .next s')
    (ht : clockEdge q (s.blkIn t) = .next t') :
    t' = s'.blkIn t' ∧ (p.addr = 0x10#5 → s'.reply = t'.reply) := by
  obtain ⟨hp, rfl⟩ | ⟨hp, hes, u, hu, hsu⟩ := clockEdge_cases hs
  · rw [clockEdge_reset q _ (hr ▸ hp)] at ht
    cases ht
    exact ⟨rfl, fun _ => rfl⟩
  · obtain ⟨hq, -⟩ | ⟨-, het, v, hv, htv⟩ := clockEdge_cases ht
    · rw [← hr, hp] at hq
      cases hq
    · exact ⟨hes.blkIn hx het, fun ha => by rw [hsu, htv, portStep_reply_blkIn hx ha hu hv]⟩

end

/-- Settles O55: a block that agrees in a unit is the other block with that unit in it, and a clock edge keeps it so
and answers the unit's offsets alike (`clockEdge_ltxIn`, `clockEdge_blkIn`). -/
theorem transportAndBlinkAreIndependent : Obligations.TransportAndBlinkAreIndependent := by
  intro p q s t hr hx hparams
  obtain ⟨s', hs⟩ := clockEdge_answers p s
  obtain ⟨t', ht⟩ := clockEdge_answers q t
  refine ⟨s', t', hs, ht, ?_, ?_⟩
  · intro htxq hbusy hreg hleft hphase
    have hagree : t = s.ltxIn t := by rw [State.ltxIn, hparams, htxq, hbusy, hreg, hleft, hphase]
    rw [hagree] at ht
    obtain ⟨hkept, hreply⟩ := clockEdge_ltxIn hx hr hs ht
    rw [hkept]
    exact ⟨rfl, rfl, rfl, rfl, rfl, rfl, hreply⟩
  · intro hdiv hbusy hout hcnt hrem
    have hagree : t = s.blkIn t := by rw [State.blkIn, hparams, hdiv, hbusy, hout, hcnt, hrem]
    rw [hagree] at ht
    obtain ⟨hkept, hreply⟩ := clockEdge_blkIn hx hr hs ht
    rw [hkept]
    exact ⟨rfl, rfl, rfl, rfl, hreply⟩

end Sys2Proof.Machine
end

section
/-! The reference receiver of 93_implementation_defined GK5 (PRESUMED, log entry 12): cell by cell. -/

namespace Sys2Proof.Machine

/-- The cycles of the cell of a bit at the default timing. -/
def cellLevels (bit : Bool) : List Bool := (List.range 10).map fun j => decide (j < if bit then 6 else 3)

/-- The cycles of the first `k` cells of a word. -/
def wordLevels (w : Word) (k : Nat) : List Bool :=
  (List.range (10 * k)).map fun n => decide (n % 10 < if w.getLsbD (31 - n / 10) then 6 else 3)

theorem wordLevels_succ (w : Word) (k : Nat) :
    wordLevels w (k + 1) = wordLevels w k ++ cellLevels (w.getLsbD (31 - k)) := by
  rw [wordLevels, wordLevels, cellLevels, Nat.mul_add, List.range_add, List.map_append, List.map_map]
  congr 1
  refine List.map_congr_left fun j hj => ?_
  have hlt : j < 10 := List.mem_range.mp hj
  simp only [Function.comp_apply, show (10 * k + j) % 10 = j by omega, show (10 * k + j) / 10 = k by omega]

theorem Receiver.run_append (p : Params) (a b : List Bool) (r : Receiver) :
    r.run p (a ++ b) = (r.run p a).run p b := List.foldl_append

/-- One cell reads as its bit, and its low time is too short to latch. -/
theorem run_cellLevels (bit : Bool) {r : Receiver} (hr : r.high = 0) :
    (r.run Config.testParams (cellLevels bit)).bits = r.bits ++ [bit] ∧
      (r.run Config.testParams (cellLevels bit)).leds = r.leds ∧
      (r.run Config.testParams (cellLevels bit)).high = 0 := by
  have hlatch : Config.testParams.latchUs * Config.testParams.ticksPerUs = 2240 := rfl
  cases bit <;> simp [cellLevels, List.range_succ, Receiver.run, Receiver.sample, hlatch, hr]

/-- So the cells read as the bits from the top down. -/
theorem run_wordLevels (w : Word) {r : Receiver} (hr : r.high = 0) (k : Nat) :
    (r.run Config.testParams (wordLevels w k)).bits =
        r.bits ++ (List.range k).map (fun i => w.getLsbD (31 - i)) ∧
      (r.run Config.testParams (wordLevels w k)).leds = r.leds ∧
      (r.run Config.testParams (wordLevels w k)).high = 0 := by
  induction k with
  | zero => simp [wordLevels, Receiver.run, hr]
  | succ k ih =>
    obtain ⟨hbits, hleds, hhigh⟩ := ih
    obtain ⟨hbits', hleds', hhigh'⟩ := run_cellLevels (w.getLsbD (31 - k)) hhigh
    rw [wordLevels_succ, Receiver.run_append]
    exact ⟨by rw [hbits', hbits, List.range_succ, List.map_append, List.append_assoc]; rfl,
      hleds'.trans hleds, hhigh'⟩

/-- Settles O38: the 240 cycles are the 24 cells of the word's top bits (`run_wordLevels`). -/
theorem referenceReceiverReadsAWord : Obligations.ReferenceReceiverReadsAWord :=
  fun w _ hr => run_wordLevels w hr 24

end Sys2Proof.Machine
end

section
/-! The registers of BLK (42_blink R131 to R135): what a step of any kind does to them, and what a microsecond tick
of a running invocation does to the ticks it has left. -/

namespace Sys2Proof.Machine

/-- The four registers of BLK hold in `t` what they hold in `s`. -/
def BlkAs (s t : State) : Prop :=
  t.blinkBusy = s.blinkBusy ∧ t.statusOut = s.statusOut ∧ t.blinkCnt = s.blinkCnt ∧ t.blinkRem = s.blinkRem

/-- The registers of BLK are those of an invocation just begun (42_blink R131). -/
def BlkStarted (t : State) : Prop :=
  t.blinkBusy = true ∧ t.statusOut = true ∧ t.blinkCnt = 1#4 ∧ t.blinkRem = 100000#17

section
variable {s t : State}

theorem BlkAs.ticksLeft (h : BlkAs s t) : blinkTicksLeft t = blinkTicksLeft s := by
  obtain ⟨hbusy, -, hcnt, hrem⟩ := h
  simp only [blinkTicksLeft, hbusy, hcnt, hrem]

theorem blinkTicksLeft_eq (s : State) : blinkTicksLeft s =
    if s.blinkBusy then (10 - s.blinkCnt.toNat) * 100000 + s.blinkRem.toNat else 0 := rfl

theorem blinkTicksLeft_started (h : BlkStarted t) : blinkTicksLeft t = 1000000 := by
  obtain ⟨hbusy, -, hcnt, hrem⟩ := h
  rw [blinkTicksLeft_eq, hbusy, hcnt, hrem]
  rfl

/-- A running invocation has a tick left, an idle BLK has none. -/
theorem blinkTicksLeft_eq_zero_iff (h : BlinkInv s) : s.blinkBusy = false ↔ blinkTicksLeft s = 0 := by
  rw [blinkTicksLeft_eq]
  cases hb : s.blinkBusy with
  | false => simp
  | true =>
    have hpos : 1 ≤ s.blinkRem.toNat := h.remPos hb
    simp only [if_true, reduceCtorEq, false_iff]
    omega

/-! ## BLINK_START (R131) -/

theorem exec_blinkStart_idle (hb : s.blinkBusy = false) : exec .blinkStart s = .next { s with
    blinkBusy := true, statusOut := true, blinkCnt := 1#4, blinkRem := 100000#17
    reply := { ready := true, err := false, rdata := s.blinkRdata .blinkStart } } :=
  if_neg (Bool.eq_false_iff.mp hb)

theorem exec_blinkStart_busy (hb : s.blinkBusy = true) : exec .blinkStart s = .next { s with
    reply := { ready := true, err := false, rdata := s.blinkRdata .blinkStart } } :=
  if_pos hb

/-! ## BLINK_STEP (R134) -/

/-- The three things a tick can do: end the invocation, begin the next hold, take one from this hold. -/
theorem blinkTick_cases (s : State) :
    (s.blinkRem = 1#17 ∧ s.blinkCnt = 10#4 ∧
      blinkTick s s = { s with blinkBusy := false, blinkRem := 0#17 }) ∨
    (s.blinkRem = 1#17 ∧ s.blinkCnt ≠ 10#4 ∧
      blinkTick s s = { s with
        statusOut := !s.statusOut, blinkCnt := s.blinkCnt + 1#4, blinkRem := 100000#17 }) ∨
    (s.blinkRem ≠ 1#17 ∧ blinkTick s s = { s with blinkRem := s.blinkRem - 1#17 }) := by
  by_cases hrem : s.blinkRem = 1#17
  · by_cases hcnt : s.blinkCnt = 10#4
    · exact .inl ⟨hrem, hcnt, (if_pos hrem).trans (if_pos hcnt)⟩
    · exact .inr (.inl ⟨hrem, hcnt, (if_pos hrem).trans (if_neg hcnt)⟩)
  · exact .inr (.inr ⟨hrem, if_neg hrem⟩)

/-- Whichever of them it is, it is one tick less to go. -/
theorem blinkTicksLeft_blinkTick (h : BlinkInv s) (hb : s.blinkBusy = true) :
    blinkTicksLeft (blinkTick s s) + 1 = blinkTicksLeft s := by
  have hcnt : s.blinkCnt ≤ 10#4 := h.cntMax
  obtain ⟨hrem, hend, ht⟩ | ⟨hrem, hne, ht⟩ | ⟨hne, ht⟩ := blinkTick_cases s <;>
    simp only [ht, blinkTicksLeft_eq, hb, if_true]
  · rw [hrem, hend]
    rfl
  · have hnext : (s.blinkCnt + 1#4).toNat = s.blinkCnt.toNat + 1 := by bv_omega
    have hlt : s.blinkCnt.toNat < 10 := by bv_omega
    simp only [hnext, hrem, BitVec.toNat_ofNat]
    omega
  · have hpos := h.remPos hb
    have hdec : (s.blinkRem - 1#17).toNat + 1 = s.blinkRem.toNat := by bv_omega
    omega

/-- The invocation ends after its tenth hold. -/
theorem blinkCnt_of_blinkTick_ends (hb : s.blinkBusy = true) (hend : (blinkTick s s).blinkBusy = false) :
    (blinkTick s s).blinkCnt = 10#4 := by
  obtain ⟨-, hcnt, ht⟩ | ⟨-, -, ht⟩ | ⟨-, ht⟩ := blinkTick_cases s <;> rw [ht] at hend ⊢
  · exact hcnt
  · exact absurd (hb.symm.trans hend) (by decide)
  · exact absurd (hb.symm.trans hend) (by decide)

/-- The level changes by a tick that begins the next hold. -/
theorem blinkTick_level (s : State) :
    ((blinkTick s s).statusOut ≠ s.statusOut → s.blinkRem = 1#17 ∧
      (blinkTick s s).blinkCnt = s.blinkCnt + 1#4 ∧ (blinkTick s s).blinkRem = 100000#17) ∧
    ((blinkTick s s).statusOut = s.statusOut → (blinkTick s s).blinkCnt = s.blinkCnt) := by
  obtain ⟨-, -, ht⟩ | ⟨hrem, -, ht⟩ | ⟨-, ht⟩ := blinkTick_cases s <;> rw [ht]
  · exact ⟨fun h => absurd rfl h, fun _ => rfl⟩
  · exact ⟨fun _ => ⟨hrem, rfl, rfl⟩, by simp⟩
  · exact ⟨fun h => absurd rfl h, fun _ => rfl⟩

theorem blinkStep_eq (s : State) :
    blinkStep s s = if s.blinkBusy = true ∧ s.usDiv = s.params.ticksPerUs - 1 then blinkTick s s else s := by
  simp only [blinkStep, Bool.and_eq_true, isTick_iff, and_comm]

/-! ## A clock edge -/

variable {p : PinIn} {e : Events}

theorem startsBlink_busy (p : PinIn) (hb : s.blinkBusy = true) : startsBlink p s = false := by
  simp [startsBlink, hb]

theorem EdgeEffect.blkStarted (he : EdgeEffect p e s t) (hstart : startsBlink p s = true) : BlkStarted t :=
  ⟨by simp [he.busy, hstart], by simp [he.out, hstart], by simp [he.cnt, hstart],
   by simp [he.rem, hstart, Config.blinkHoldUs]⟩

theorem EdgeEffect.blkStep (he : EdgeEffect p e s t) (hstart : startsBlink p s = false) :
    BlkAs (blinkStep s s) t :=
  ⟨by simp [he.busy, hstart], by simp [he.out, hstart], by simp [he.cnt, hstart], by simp [he.rem, hstart]⟩

/-- While an invocation runs, a microsecond tick steps it and any other clock edge leaves it. -/
theorem EdgeEffect.blkRuns (he : EdgeEffect p e s t) (hb : s.blinkBusy = true) :
    (s.usDiv = s.params.ticksPerUs - 1 ∧ BlkAs (blinkTick s s) t) ∨
      (s.usDiv ≠ s.params.ticksPerUs - 1 ∧ BlkAs s t) := by
  have hstep := he.blkStep (startsBlink_busy p hb)
  rw [blinkStep_eq] at hstep
  by_cases htick : s.usDiv = s.params.ticksPerUs - 1
  · exact .inl ⟨htick, by rwa [if_pos ⟨hb, htick⟩] at hstep⟩
  · exact .inr ⟨htick, by rwa [if_neg fun h => htick h.2] at hstep⟩

end

end Sys2Proof.Machine
end

section
/-! An invocation to its end (42_blink R134, R136): every clock edge brings the edge of its last tick nearer by one. -/

namespace Sys2Proof.Machine

/-- The clock edges to the last tick of the running invocation: those of the ticks it has left, less those of the
present microsecond that are over. -/
def edgesToBlinkEnd (s : State) : Nat := blinkTicksLeft s * s.params.ticksPerUs - s.usDiv

section
variable {s t : State} {p : PinIn} {e : Events}

/-- The present microsecond is over with its last clock edge, every other tick takes a whole microsecond. -/
theorem edgesToBlinkEnd_of_busy (h : Inv s) (hb : s.blinkBusy = true) : edgesToBlinkEnd s =
    (blinkTicksLeft s - 1) * s.params.ticksPerUs + (s.params.ticksPerUs - s.usDiv) := by
  have hpos : blinkTicksLeft s ≠ 0 := fun h0 => by simp [(blinkTicksLeft_eq_zero_iff h.blink).mpr h0] at hb
  have hdiv : s.usDiv < s.params.ticksPerUs := h.timebase
  obtain ⟨n, hn⟩ := Nat.exists_eq_succ_of_ne_zero hpos
  rw [edgesToBlinkEnd, hn, Nat.succ_mul, Nat.succ_sub_one]
  omega

/-- An invocation runs exactly as long as there are clock edges to go. -/
theorem edgesToBlinkEnd_eq_zero_iff (h : Inv s) : s.blinkBusy = false ↔ edgesToBlinkEnd s = 0 := by
  cases hb : s.blinkBusy with
  | false => simp [edgesToBlinkEnd, (blinkTicksLeft_eq_zero_iff h.blink).mp hb]
  | true =>
    have hdiv : s.usDiv < s.params.ticksPerUs := h.timebase
    rw [edgesToBlinkEnd_of_busy h hb]
    simp only [reduceCtorEq, false_iff]
    omega

theorem edgesToBlinkEnd_edge (h : Inv s) (he : EdgeEffect p e s t) (hb : s.blinkBusy = true) :
    edgesToBlinkEnd t + 1 = edgesToBlinkEnd s := by
  have hdiv : s.usDiv < s.params.ticksPerUs := h.timebase
  have hpos : edgesToBlinkEnd s ≠ 0 := mt (edgesToBlinkEnd_eq_zero_iff h).mpr (by simp [hb])
  have htime := timebase_edge he
  rw [edgesToBlinkEnd] at hpos
  rw [edgesToBlinkEnd, edgesToBlinkEnd, he.params]
  obtain ⟨htick, hblk⟩ | ⟨hne, hblk⟩ := he.blkRuns hb
  · rw [if_pos htick] at htime
    rw [htime.1, hblk.ticksLeft, ← blinkTicksLeft_blinkTick h.blink hb, Nat.succ_mul]
    omega
  · rw [if_neg hne] at htime
    rw [htime.1, hblk.ticksLeft]
    omega

/-- Ten level changes have been made when a clock edge ends the invocation. -/
theorem blinkCnt_of_edge_ends (he : EdgeEffect p e s t) (hb : s.blinkBusy = true) (hend : t.blinkBusy = false) :
    t.blinkCnt = 10#4 := by
  obtain ⟨-, hbusy, -, hcnt, -⟩ | ⟨-, hbusy, -⟩ := he.blkRuns hb
  · rw [hcnt]
    exact blinkCnt_of_blinkTick_ends hb (hbusy.symm.trans hend)
  · exact absurd (hb.symm.trans (hbusy.symm.trans hend)) (by decide)

end

/-- After `k` of the `n` clock edges of a running invocation: `n - k` of them are to go, and at the end of the
invocation the ten level changes have been made. -/
structure BlinkCountsDown (n k : Nat) (t : State) : Prop where
  inv   : Inv t
  edges : edgesToBlinkEnd t + k = n
  ended : t.blinkBusy = false → t.blinkCnt = 10#4

section
variable {s t u : State} {p : PinIn} {e : Events} {n k : Nat}

theorem BlinkCountsDown.busy (h : BlinkCountsDown n k t) (hk : k < n) : t.blinkBusy = true := by
  have hedges := h.edges
  by_contra hb
  have hzero := (edgesToBlinkEnd_eq_zero_iff h.inv).mp (Bool.eq_false_iff.mpr hb)
  omega

theorem BlinkCountsDown.edge (h : BlinkCountsDown n k t) (hk : k < n) (he : EdgeEffect p e t u) :
    BlinkCountsDown n (k + 1) u where
  inv := inv_edge h.inv he
  edges := by
    have hnearer := edgesToBlinkEnd_edge h.inv he (h.busy hk)
    have hedges := h.edges
    omega
  ended := blinkCnt_of_edge_ends he (h.busy hk)

/-- Over the first `m` clock edges of a running invocation, up to its last. -/
theorem runSteps_blinkCountsDown {m : Nat} (h : Inv s) (hd : DigitsOk s) (hb : s.blinkBusy = true)
    (hm : m ≤ edgesToBlinkEnd s) (hrun : RunsFor (edgesToBlinkEnd s) s) :
    ∃ t, runSteps m s = .next t ∧ BlinkCountsDown (edgesToBlinkEnd s) m t := by
  have hstart : BlinkCountsDown (edgesToBlinkEnd s) 0 s :=
    ⟨h, rfl, fun hf => absurd (hb.symm.trans hf) (by decide)⟩
  obtain ⟨t, ht, hdown, -⟩ := runSteps_edges (P := BlinkCountsDown (edgesToBlinkEnd s)) hd
    (runsFor_mono hrun hm) hstart fun k _ _ _ hk hat _ _ he _ => hat.edge (by omega) he
  exact ⟨t, ht, hdown⟩

end

/-- Settles O41: a start leaves ten whole holds; the edges to the end count down one by one
(`runSteps_blinkCountsDown`), and the invocation runs exactly while there are any. -/
theorem invocationEndsAtItsLastTick : Obligations.InvocationEndsAtItsLastTick := by
  constructor
  · intro s t hidle hexec
    rw [exec_blinkStart_idle hidle] at hexec
    cases hexec
    exact blinkTicksLeft_started ⟨rfl, rfl, rfl, rfl⟩
  · intro s h hd hb n hrun
    have hn : n = edgesToBlinkEnd s := (edgesToBlinkEnd_of_busy h hb).symm
    rw [hn] at hrun ⊢
    constructor
    · intro m hm
      obtain ⟨u, hu, hdown⟩ := runSteps_blinkCountsDown h hd hb hm.le hrun
      exact ⟨u, hu, hdown.busy hm⟩
    · obtain ⟨t, ht, hdown⟩ := runSteps_blinkCountsDown h hd hb le_rfl hrun
      have hidle : t.blinkBusy = false :=
        (edgesToBlinkEnd_eq_zero_iff hdown.inv).mpr (Nat.add_eq_right.mp hdown.edges)
      exact ⟨t, ht, hidle, hdown.ended hidle, hdown.inv.blink.idleOut hidle⟩

end Sys2Proof.Machine
end

section
/-! BLK at a clock edge (42_blink R134, R135): a tick of a running invocation, and a start at the same clock edge. -/

namespace Sys2Proof.Machine

section
variable {s s' t u : State} {p p' : PinIn} {e e' : Events}

theorem startsBlink_idle (hb : s.blinkBusy = false) (hsel : p.sel = true) (hwe : p.we = true)
    (haddr : p.addr = 0x10#5) (hbit : p.wdata.getLsbD 0 = true) : startsBlink p s = true := by
  simp [startsBlink, hb, hsel, hwe, haddr, hbit]

/-- A clock edge that starts nothing does the same to BLK in any two states with the same block. -/
theorem EdgeEffect.blk_eq (hs : s'.block = s.block) (ht : EdgeEffect p e s t) (hu : EdgeEffect p' e' s' u)
    (hp : startsBlink p s = false) (hp' : startsBlink p' s = false) : BlkAs u t := by
  obtain ⟨hbusy, hout, hcnt, hrem⟩ := ht.blkStep hp
  obtain ⟨hbusy', hout', hcnt', hrem'⟩ := (hu.of_block hs.symm).blkStep hp'
  exact ⟨hbusy.trans hbusy'.symm, hout.trans hout'.symm, hcnt.trans hcnt'.symm, hrem.trans hrem'.symm⟩

end

/-- Settles O39: an idle BLK is started, whatever the tick (`EdgeEffect.blkStarted`); of a busy one the port has no
part in what the edge does (`EdgeEffect.blk_eq`). -/
theorem startAndStepNeverMix : Obligations.StartAndStepNeverMix := by
  intro s s' p hd hd' hblock hp hp' hr hsel hwe haddr hbit
  obtain ⟨t, ht, he⟩ := step_ahead hd hp hr
  obtain ⟨u, hu, he'⟩ := step_ahead hd' hp' hr
  refine ⟨t, u, ht, hu, ?_, ?_⟩
  · intro hidle
    exact he.blkStarted (startsBlink_idle hidle hsel hwe haddr hbit)
  · intro hbusy
    exact he.blk_eq hblock he' (startsBlink_busy p hbusy) (startsBlink_busy _ hbusy)

/-- Settles O40: a clock edge of a running invocation is a tick, which takes one from the ticks left
(`blinkTicksLeft_blinkTick`, `blinkTick_level`), or changes nothing (`EdgeEffect.blkRuns`). -/
theorem blinkStepCountsTicks : Obligations.BlinkStepCountsTicks := by
  intro s h hd hrun hb
  obtain ⟨q, hq, hr⟩ := hrun.head
  obtain ⟨p, t, -, -, -, ht, he, -, -⟩ := step_edge hd hq hr
  have hblink := (inv_edge h he).blink
  refine ⟨t, ht, ?_, blinkTicksLeft_eq_zero_iff hblink,
    fun hidle => ⟨hblink.idleOut hidle, blinkCnt_of_edge_ends he hb hidle⟩, ?_⟩
  · obtain ⟨htick, hblk⟩ | ⟨hne, hblk⟩ := he.blkRuns hb
    · rw [if_pos htick, hblk.ticksLeft, ← blinkTicksLeft_blinkTick h.blink hb, Nat.add_sub_cancel]
    · rw [if_neg hne, hblk.ticksLeft, Nat.sub_zero]
  · obtain ⟨-, -, hout, hcnt, hrem⟩ | ⟨-, -, hout, hcnt, -⟩ := he.blkRuns hb
    · obtain ⟨hchange, hkeep⟩ := blinkTick_level s
      rw [hout, hcnt, hrem]
      exact ⟨fun hne => (hchange hne).2, hkeep⟩
    · exact ⟨fun hne => absurd hout hne, fun _ => hcnt⟩

end Sys2Proof.Machine
end

section
/-! BLK at every kind of step (42_blink R131, R134, R138): what can change it at all. -/

namespace Sys2Proof.Machine

section
variable {s t : State}

theorem resetAhead_of_clockPins {p : PinIn} (hp : s.nextStimulus.clockPins = some p) (hr : p.rst = true) :
    resetAhead s = true := by
  simp only [resetAhead, hp, hr]

theorem isRunEdge_of_clockPins {x : Stimulus} {p : PinIn} (hp : x.clockPins = some p) (hr : p.rst = false) :
    x.isRunEdge = true := by
  simp only [Stimulus.isRunEdge, hp, hr, Bool.not_false]

/-- An expiring hold is a tick of the running invocation. -/
theorem holdExpires_blk (s : State) :
    (s.blinkBusy = true ∧ BlkAs (blinkTick s s) (holdExpires s)) ∨ holdExpires s = s := by
  unfold holdExpires
  split
  next hlast => exact .inl ⟨hlast.1, rfl, rfl, rfl, rfl⟩
  next => exact .inr rfl

theorem blinkTick_popStim (s : State) : blinkTick s.popStim s.popStim = (blinkTick s s).popStim := by
  simp only [blinkTick, apply_ite State.popStim]
  rfl

theorem elapse_idle (us : Nat) (hb : s.blinkBusy = false) : BlkAs s (elapse us s) :=
  ⟨rfl, rfl, rfl, by simp [elapse, hb]⟩

theorem wordDone_blk (s : State) : BlkAs s (wordDone s) := by
  obtain ⟨q, b, r, l, n, h⟩ := wordDone_frame s
  rw [h]
  exact ⟨rfl, rfl, rfl, rfl⟩

/-- A clock edge without reset starts an idle BLK, steps a running invocation at a tick, or leaves BLK. -/
theorem EdgeEffect.blk_cases {p p' : PinIn} {e : Events} (he : EdgeEffect p' e s t)
    (hp : s.nextStimulus.clockPins = some p) (hp' : pinsAhead s = some p') (hr : p'.rst = false) :
    (instrAhead s = some .blinkStart ∧ s.blinkBusy = false ∧ BlkStarted t) ∨
      (s.blinkBusy = true ∧ s.usDiv = s.params.ticksPerUs - 1 ∧ BlkAs (blinkTick s s) t) ∨ BlkAs s t := by
  cases hstart : startsBlink p' s with
  | true =>
    have hidle := hstart
    rw [startsBlink_clock hp hp' hr, Bool.and_eq_true, beq_iff_eq, Bool.not_eq_true'] at hidle
    exact .inl ⟨hidle.1, hidle.2, he.blkStarted hstart⟩
  | false =>
    have hstep := he.blkStep hstart
    rw [blinkStep_eq] at hstep
    split at hstep
    next htick => exact .inr (.inl ⟨htick.1, htick.2, hstep⟩)
    next => exact .inr (.inr hstep)

/-- All that one step of any kind can do to BLK: reset it, start it when it is idle, step a running invocation at a
tick, bring a running hold nearer to its end without touching the rest, or leave it. -/
theorem step_blk_cases (h : step s = .next t) :
    resetAhead s = true ∨
    (instrAhead s = some .blinkStart ∧ s.blinkBusy = false ∧ BlkStarted t) ∨
    (s.blinkBusy = true ∧ BlkAs (blinkTick s s) t ∧
      (s.nextStimulus.isRunEdge = true ∧ s.usDiv = s.params.ticksPerUs - 1 ∨
        s.nextStimulus = .holdExpires)) ∨
    (s.blinkBusy = true ∧ (∃ us, s.nextStimulus = .elapse us) ∧ t.blinkBusy = s.blinkBusy ∧
      t.statusOut = s.statusOut ∧ t.blinkCnt = s.blinkCnt) ∨
    BlkAs s t := by
  obtain ⟨p, hp, hr, -⟩ | ⟨p, p', hp, hr, hp', hr', -, he, -⟩ | ⟨w, i, hn, hd, he⟩ | ⟨w, c, -, -, rfl⟩ |
    ⟨us, hn, rfl⟩ | ⟨-, rfl⟩ | ⟨hn, rfl⟩ := step_effect h
  · exact .inl (resetAhead_of_clockPins hp hr)
  · obtain hstart | ⟨hb, htick, hblk⟩ | hblk := he.blk_cases hp hp' hr'
    · exact .inr (.inl hstart)
    · exact .inr (.inr (.inl ⟨hb, hblk, .inl ⟨isRunEdge_of_clockPins hp hr, htick⟩⟩))
    · exact .inr (.inr (.inr (.inr hblk)))
  · obtain ⟨rfl, hidle, hstarted⟩ | hblk := exec_blink_cases he
    · exact .inr (.inl ⟨instrAhead_op hn hd, hidle, hstarted⟩)
    · exact .inr (.inr (.inr (.inr hblk)))
  · exact .inr (.inr (.inr (.inr ⟨rfl, rfl, rfl, rfl⟩)))
  · cases hb : s.blinkBusy with
    | true => exact .inr (.inr (.inr (.inl ⟨rfl, ⟨us, hn⟩, hb, rfl, rfl⟩)))
    | false => exact .inr (.inr (.inr (.inr (elapse_idle (s := s.popStim) us hb))))
  · exact .inr (.inr (.inr (.inr (wordDone_blk s.popStim))))
  · obtain ⟨hb, hblk⟩ | hs := holdExpires_blk s.popStim
    · rw [blinkTick_popStim] at hblk
      exact .inr (.inr (.inl ⟨hb, hblk, .inr hn⟩))
    · rw [hs]
      exact .inr (.inr (.inr (.inr ⟨rfl, rfl, rfl, rfl⟩)))

end

/-- Settles O42: of what a step can do to BLK (`step_blk_cases`) only a reset, a start and a tick touch the level, and
the tick that changes it is the last of its hold (`blinkTick_level`). -/
theorem statusOutChangesOnlyByBlk : Obligations.StatusOutChangesOnlyByBlk := by
  intro s t _ h hne
  obtain hreset | ⟨hi, hidle, hbusy, hout, hcnt, -⟩ | ⟨hb, ⟨-, hout, hcnt, -⟩, hcause⟩ |
    ⟨-, -, -, hout, -⟩ | ⟨-, hout, -⟩ := step_blk_cases h
  · exact .inr (.inr hreset)
  · exact .inl ⟨hi, hidle, hbusy, hout, hcnt⟩
  · obtain ⟨hlast, hnext, -⟩ := (blinkTick_level s).1 (hout ▸ hne)
    exact .inr (.inl ⟨hb, hlast, hcnt.trans hnext, hcause⟩)
  · exact absurd hout hne
  · exact absurd hout hne

/-- Settles O52: of what a step can do to BLK (`step_blk_cases`) a start needs BLINK_START and an idle BLK, the rest a
running invocation and a tick or a step of the operation level. -/
theorem blkRestsWithoutStartAndTick : Obligations.BlkRestsWithoutStartAndTick := by
  intro s t h hreset hrest
  obtain hr | ⟨hi, hidle, -⟩ | ⟨hb, -, hcause⟩ | ⟨hb, ⟨us, hn⟩, -⟩ | hblk := step_blk_cases h
  · simp [hreset] at hr
  · obtain ⟨-, hne⟩ | ⟨hb, -⟩ := hrest
    · exact absurd hi hne
    · simp [hidle] at hb
  · obtain ⟨hidle, -⟩ | ⟨-, hrun, hne⟩ := hrest
    · simp [hb] at hidle
    · obtain ⟨-, htick⟩ | hn := hcause
      · exact absurd htick hne
      · simp [hn, Stimulus.isRunEdge, Stimulus.clockPins] at hrun
  · obtain ⟨hidle, -⟩ | ⟨-, hrun, -⟩ := hrest
    · simp [hb] at hidle
    · simp [hn, Stimulus.isRunEdge, Stimulus.clockPins] at hrun
  · exact hblk

end Sys2Proof.Machine
end

section
/-! The operations of BLK (42_blink R131 to R133, 10_state R34). -/

namespace Sys2Proof.Machine

/-- Settles O20: the two branches of BLINK_START by `blink_busy`, and the decoder at offset 0x10. -/
theorem blinkCommands : Obligations.BlinkCommands := by
  refine ⟨?_, ?_, ?_, ?_⟩
  · intro s hidle
    exact ⟨s.blinkRdata .blinkStart, exec_blinkStart_idle hidle⟩
  · intro s hbusy
    exact ⟨s.blinkRdata .blinkStart, exec_blinkStart_busy hbusy⟩
  · intro s
    exact ⟨s.blinkRdata .blinkNop, rfl⟩
  · intro d
    rw [decode_pack, decodeAccess_blinkCtrl]
    rfl

section
variable (s : State)

theorem blinkStatWord_out : s.blinkStatWord.getLsbD 1 = s.statusOut := by
  simp only [State.blinkStatWord, BitVec.getLsbD_append, BitVec.getLsbD_ofBool]
  simp

theorem blinkStatWord_zeros :
    s.blinkStatWord.extractLsb' 2 2 = 0#2 ∧ s.blinkStatWord.extractLsb' 8 24 = 0#24 := by
  constructor <;> ext i hi <;> simp only [State.blinkStatWord, BitVec.getElem_extractLsb', BitVec.getLsbD_append]
  · simp; omega
  · simp; omega

theorem blinkStatWord_cnt : s.blinkStatWord.extractLsb' 4 4 = s.blinkCnt := by
  ext i hi
  simp only [State.blinkStatWord, BitVec.getElem_extractLsb', BitVec.getLsbD_append]
  simp [hi]; omega

end

/-- Settles O21: BLINK_STAT answers `blinkStatWord` and does nothing else; its fields one by one. -/
theorem blinkStatReadsTheCounter : Obligations.BlinkStatReadsTheCounter := by
  intro s
  obtain ⟨hlow, hhigh⟩ := blinkStatWord_zeros s
  exact ⟨s.blinkStatWord, rfl, blinkStatWord_busy s, blinkStatWord_out s, hlow, blinkStatWord_cnt s, hhigh⟩

end Sys2Proof.Machine
end

section
/-! PACK and RENDER (43_render_and_host R150 to R154). -/

namespace Sys2Proof.Machine

/-! ## PACK -/

section
variable (c : Color)

/-- The concatenation of R150 as its shifts: bit `i` of both, for each of the four bytes it can lie in. -/
theorem pack_eq_or : pack c =
    (c.g.setWidth 32 <<< 24) ||| (c.r.setWidth 32 <<< 16) ||| (c.b.setWidth 32 <<< 8) := by
  apply BitVec.eq_of_getLsbD_eq
  intro i hi
  simp only [pack, BitVec.getLsbD_append, BitVec.getLsbD_or, BitVec.getLsbD_shiftLeft, BitVec.getLsbD_setWidth,
    Nat.sub_sub]
  obtain hbyte | hbyte | hbyte | hbyte : i < 8 ∨ 8 ≤ i ∧ i < 16 ∨ 16 ≤ i ∧ i < 24 ∨ 24 ≤ i := by omega
  all_goals grind

theorem pixG_pack : pixG (pack c) = c.g := by
  rw [pixG, pack, BitVec.extractLsb'_append_eq_of_le (by decide), BitVec.extractLsb'_append_eq_of_le (by decide)]
  exact BitVec.extractLsb'_append_eq_left

theorem pixR_pack : pixR (pack c) = c.r := by
  rw [pixR, pack, BitVec.extractLsb'_append_eq_of_le (by decide), BitVec.extractLsb'_append_eq_of_le (by decide)]
  exact BitVec.extractLsb'_append_eq_right

theorem pixB_pack : pixB (pack c) = c.b := by
  rw [pixB, pack, BitVec.extractLsb'_append_eq_of_le (by decide)]
  exact BitVec.extractLsb'_append_eq_right

theorem pixU_pack : pixU (pack c) = 0#8 := BitVec.extractLsb'_append_eq_right

end

/-- Settles O43: the shifts by `pack_eq_or`, and each field reads its own byte. -/
theorem packLayout : Obligations.PackLayout := fun c =>
  ⟨pack_eq_or c, pixG_pack c, pixR_pack c, pixB_pack c, pixU_pack c⟩

/-! ## RENDER -/

section
variable {d : Int} (p : Params) (color : Color) (g : Glyph)

theorem render_digit (hlo : 0 ≤ d) (hhi : d ≤ 9) :
    render p d color = .ok (frameOf (p.glyphs.getD d.toNat 0#25) color) := if_pos ⟨hlo, hhi⟩

theorem render_invalid (hd : d < 0 ∨ 9 < d) : render p d color = .error d := if_neg (by omega)

theorem length_frameOf : (frameOf g color).length = 25 := by
  simp [frameOf, Config.glyphBits]

theorem getElem?_frameOf {i : Nat} (hi : i < 25) :
    (frameOf g color)[i]? = some (if g.getLsbD i then pack color else 0x00000000#32) := by
  simp [frameOf, Config.glyphBits, offWord, List.getElem?_range hi]

/-- A position holds the foreground word exactly where the glyph is set, since the off word is another. -/
theorem count_frameOf (h : pack color ≠ 0x00000000#32) :
    (frameOf g color).count (pack color) = (List.range 25).countP fun i => g.getLsbD i := by
  rw [frameOf, List.count_eq_countP, List.countP_map]
  refine List.countP_congr fun i _ => ?_
  cases hi : g.getLsbD i <;> simp [hi, offWord, h.symm]

end

/-- Settles O44: RENDER of a digit is `frameOf` its glyph; its length, its words and their count one by one. -/
theorem renderFollowsTheGlyph : Obligations.RenderFollowsTheGlyph := fun p _ color hlo hhi =>
  ⟨_, render_digit p color hlo hhi, length_frameOf color _, fun _ hi => getElem?_frameOf color _ hi,
    count_frameOf color _⟩

end Sys2Proof.Machine
end

section
/-! The host's RENDER and its startup (43_render_and_host R153, R158, 70_reset_and_hazards R191, R195; log entries 9
and 11). -/

namespace Sys2Proof.Machine

section
variable {s s' : State} {d : Int} {f : List Word} {rest : List HostOp}

/-- A bad digit at the head of the program prepares no cycle (R153). -/
theorem hostPrepare_invalid (hprog : s.host.program = .sendGlyph d :: rest) (hd : d < 0 ∨ 9 < d) :
    hostPrepare s = .error d := by
  simp only [hostPrepare, hprog, render_invalid _ _ hd]

/-- SEND_FRAME RENDER at the head becomes the pushes of its Frame (R152). -/
theorem hostPrepare_sendGlyph (hprog : s.host.program = .sendGlyph d :: rest)
    (hf : render s.params d s.params.fgColor = .ok f) :
    hostPrepare s = .ok { s with host := { s.host with program := f.map (HostOp.wr 0x08#5) ++ rest } } := by
  simp only [hostPrepare, hprog, hf, sendFrame]

theorem prepared_sendGlyph (hprog : s.host.program = .sendGlyph d :: rest)
    (hf : render s.params d s.params.fgColor = .ok f) :
    (prepared s).host.program = f.map (HostOp.wr 0x08#5) ++ rest := by
  rw [prepared_eq (hostPrepare_sendGlyph (s := s.popStim) hprog hf)]

theorem hostPrepare_reference (h : hostPrepare s = .ok s') : s'.host.reference = s.host.reference := by
  obtain ⟨q, rfl⟩ := hostPrepare_ok h
  rfl

theorem hostReset_reference {h : HostState} (hr : h.reference = true) : hostReset h = HostState.startup :=
  if_pos hr

end

/-- Settles O45: RENDER gives the error, and the preparation of the step passes it on (`step_clock_error`). -/
theorem invalidDigitIsRaised : Obligations.InvalidDigitIsRaised := fun _ hd =>
  ⟨fun p color => render_invalid p color hd, fun s _ _ hp hprog =>
    step_clock_error hp (hostPrepare_invalid (s := s.popStim) hprog hd)⟩

/-- Settles O53: a reset edge resets the host (`step_clock_reset`); at the startup the RENDER becomes the pushes of
its Frame before the cycle, so that the first of them is on the port in it. -/
theorem referenceHostStartsAfterReset : Obligations.ReferenceHostStartsAfterReset := by
  constructor
  · intro s p hp hr hd
    obtain ⟨s', hs⟩ := hostPrepare_of_digitsOk (s := s.popStim) hd
    refine ⟨_, step_clock_reset hp hs hr, hostReset_digit s'.host, fun href => ?_⟩
    have hstart : hostReset s'.host = HostState.startup :=
      hostReset_reference ((hostPrepare_reference hs).trans href)
    rw [hstart]
    exact ⟨rfl, rfl⟩
  · intro s f hprog hf
    have hahead := prepared_sendGlyph hprog hf
    refine ⟨hahead, ?_⟩
    rintro p w fs hp rfl
    rw [pinsAhead_transaction hp hahead rfl, present_pack]

end Sys2Proof.Machine
end

section
/-! The main loop (43_render_and_host R155 to R157, R159; log entries 4, 9 and 15): what the host does with each
answer, and that nothing but a clock edge moves it. -/

namespace Sys2Proof.Machine

section
variable {h : HostState} {rest : List HostOp} (r : Reply)

/-- A read or a write is over when it completes. -/
theorem hostAdvance_access {a : BitVec 5} {d : Word} (hp : h.program = .wr a d :: rest ∨ h.program = .rd a :: rest) :
    hostAdvance r h = if r.ready = true then { h with program := rest } else h := by
  obtain hp | hp := hp <;> simp only [hostAdvance, hp]

theorem hostAdvance_pollBlink_eq (hp : h.program = .pollBlink :: rest) :
    hostAdvance r h = if r.rdata.getLsbD 0 = true then h else { h with program := rest } := by
  simp only [hostAdvance, hp]

theorem hostAdvance_pollTx_eq (hp : h.program = .pollTx :: rest) : hostAdvance r h =
    if r.rdata.getLsbD 1 = true ∧ r.rdata.getLsbD 2 = false then { h with program := rest } else h := by
  simp only [hostAdvance, hp, Bool.and_eq_true, Bool.not_eq_true']

theorem hostAdvance_wait_eq {n : Nat} (hp : h.program = .wait n :: rest) :
    hostAdvance r h = { h with program := if n ≤ 1 then rest else .wait (n - 1) :: rest } := by
  simp only [hostAdvance, hp]
  split <;> rfl

theorem hostAdvance_drainInc (hp : h.program = .drainInc :: rest) :
    hostAdvance r h = { h with tookInc := r.rdata.getLsbD 0, program := rest } := by
  simp only [hostAdvance, hp]

/-- The update of the loop after `b = TAKE DEC`, the render it asks for, and the next iteration. -/
theorem hostAdvance_drainDec (hp : h.program = .drainDec :: rest) :
    hostAdvance r h = { h with
      digit := updateDigit h.tookInc (r.rdata.getLsbD 0) h.digit
      program :=
        (if h.tookInc || r.rdata.getLsbD 0 then
          [.sendGlyph (Int.ofNat (updateDigit h.tookInc (r.rdata.getLsbD 0) h.digit).val)] else []) ++
          mainIteration ++ rest } := by
  simp only [hostAdvance, hp]

/-- Only the update of the loop moves the digit. -/
theorem hostAdvance_digit_eq (hne : h.program.head? ≠ some .drainDec) : (hostAdvance r h).digit = h.digit := by
  cases hp : h.program with
  | nil => rw [hostAdvance_idle hp]
  | cons op rest =>
    cases op with
    | rd a => rw [hostAdvance_access r (d := 0#32) (.inr hp)]; split <;> rfl
    | wr a d => rw [hostAdvance_access r (.inl hp)]; split <;> rfl
    | pollBlink => rw [hostAdvance_pollBlink_eq r hp]; split <;> rfl
    | pollTx => rw [hostAdvance_pollTx_eq r hp]; split <;> rfl
    | wait n => rw [hostAdvance_wait_eq r hp]
    | sendGlyph d => simp only [hostAdvance, hp]
    | drainInc => rw [hostAdvance_drainInc r hp]
    | drainDec => simp [hp] at hne

end

section
variable {s t : State}

/-- A step that is no clock edge leaves the host. -/
theorem step_host_alone (hc : s.nextStimulus.clockPins = none) (h : step s = .next t) : t.host = s.host := by
  obtain ⟨p, hp, -⟩ | ⟨p, -, hp, -⟩ | ⟨w, i, -, -, he⟩ | ⟨w, c, -, -, rfl⟩ | ⟨us, -, rfl⟩ | ⟨-, rfl⟩ | ⟨-, rfl⟩ :=
    step_effect h
  · simp [hc] at hp
  · simp [hc] at hp
  · obtain ⟨-, -, -, -, -, -, -, hhost, -⟩ := exec_frame he
    exact hhost
  · rfl
  · rfl
  · obtain ⟨q, b, r, l, n, h⟩ := wordDone_frame s.popStim
    rw [h]; rfl
  · obtain ⟨-, -, -, h⟩ | ⟨-, -, -, h⟩ | ⟨-, h⟩ := holdExpires_cases s.popStim <;> rw [h] <;> rfl

/-- At a clock edge without reset the host goes on by the answer. -/
theorem step_host_edge {p : PinIn} (hp : s.nextStimulus.clockPins = some p) (hr : p.rst = false)
    (h : step s = .next t) : t.host = hostAdvance t.reply (prepared s).host := by
  cases hs : hostPrepare s.popStim with
  | error d => rw [step_clock_error hp hs] at h; cases h
  | ok s' =>
    obtain ⟨-, u, -, -, -, hu, -, -, hhost⟩ := step_clock_run hp hs hr
    cases hu.symm.trans h
    rw [hhost, prepared_eq hs]

end

/-- Settles O46: `hostAdvance` operation by operation, `hostPrepare` for the render, and the two kinds of step. -/
theorem loopUpdatesAndRenders : Obligations.LoopUpdatesAndRenders := by
  refine ⟨fun d => ⟨rfl, rfl⟩, rfl, by decide, fun h r a d rest => hostAdvance_access r,
    fun h r rest => hostAdvance_pollBlink_eq r, fun h r rest => hostAdvance_pollTx_eq r,
    fun h r n rest => hostAdvance_wait_eq r, fun h r rest => hostAdvance_drainInc r, ?_,
    fun h r hne => ?_, fun s d f rest => hostPrepare_sendGlyph,
    fun s t p hp hr h => ⟨step_host_edge hp hr h, fun op rest v => pinsAhead_transaction hp⟩,
    fun s t => step_host_alone⟩
  · intro h r rest hp
    rw [hostAdvance_drainDec r hp]
    exact ⟨rfl, by simp only [Bool.or_eq_true]; rfl⟩
  · by_contra hhead
    exact hne (hostAdvance_digit_eq r hhead)

end Sys2Proof.Machine
end

section
/-! No input stops the block (93_implementation_defined U12): that a step answers is `step_answers`; here, that no step
brings in a reserved word or an impossible digit. -/

namespace Sys2Proof.Machine

section
variable {s t : State}

/-- Every step consumes its stimulus and adds none (log entry 2). -/
theorem step_stim (h : step s = .next t) : t.stim = s.stim.tail := by
  obtain ⟨p, -, -, rfl⟩ | ⟨p, p', -, -, -, -, -, -, hstim, -⟩ | ⟨w, i, -, -, he⟩ | ⟨w, c, -, -, rfl⟩ |
    ⟨us, -, rfl⟩ | ⟨-, rfl⟩ | ⟨-, rfl⟩ := step_effect h
  · rfl
  · exact hstim
  · obtain ⟨-, -, -, -, -, -, -, -, hstim, -⟩ := exec_frame he
    exact hstim
  · rfl
  · rfl
  · obtain ⟨q, b, r, l, n, h⟩ := wordDone_frame s.popStim
    rw [h]; rfl
  · obtain ⟨-, -, -, h⟩ | ⟨-, -, -, h⟩ | ⟨-, h⟩ := holdExpires_cases s.popStim <;> rw [h] <;> rfl

theorem step_keeps_noReserved (hn : NoReserved s) (h : step s = .next t) : NoReserved t := by
  intro x hx
  rw [step_stim h] at hx
  exact hn x (List.mem_of_mem_tail hx)

/-- The host moves at a clock edge alone, and what it then adds to its program are digits of `CurrentDigit`. -/
theorem step_keeps_digitsOk (hd : DigitsOk s) (h : step s = .next t) : DigitsOk t := by
  cases hc : s.nextStimulus.clockPins with
  | none =>
    unfold DigitsOk
    rw [step_host_alone hc h]
    exact hd
  | some p =>
    cases hr : p.rst with
    | true =>
      obtain ⟨_, ht, hdt⟩ := step_reset hd hc hr
      cases ht.symm.trans h
      exact hdt
    | false =>
      obtain ⟨-, u, -, -, -, hu, -, -, hdu⟩ := step_edge hd hc hr
      cases hu.symm.trans h
      exact hdu

end

/-- Settles O6: a step answers (`step_answers`), and its next state meets the two hypotheses again. -/
theorem noInputStopsTheMachine : Obligations.NoInputStopsTheMachine := by
  intro s hn hd
  obtain ⟨t, ht⟩ := step_answers hn hd
  exact ⟨t, ht, step_keeps_noReserved hn ht, step_keeps_digitsOk hd ht⟩

end Sys2Proof.Machine
end

section
/-! The causes of a BusError (60_exceptions R171): what raises each is a condition on `we` and the two fields of `addr`,
and the decoder answers with the lowest-numbered cause whose condition holds. -/

namespace Sys2Proof

/-- The condition of each cause, on its own (R171). -/
def BusCause.Applies (we : Bool) (a : BitVec 5) : BusCause → Prop
  | .misaligned => a.extractLsb' 0 2 ≠ 0#2
  | .unmapped => a.extractLsb' 2 3 = 5#3 ∨ a.extractLsb' 2 3 = 6#3 ∨ a.extractLsb' 2 3 = 7#3
  | .writeRo => we = true ∧ (a.extractLsb' 2 3 = 0#3 ∨ a.extractLsb' 2 3 = 1#3 ∨ a.extractLsb' 2 3 = 3#3)
  | .readWo => we = false ∧ a.extractLsb' 2 3 = 2#3

/-- The cause is the lowest-numbered of those that apply. -/
def BusCause.IsLowest (we : Bool) (a : BitVec 5) (c : BusCause) : Prop :=
  c.Applies we a ∧ ∀ d : BusCause, d.number < c.number → ¬ d.Applies we a

section
variable {we : Bool} {a : BitVec 5} {b c : BusCause}

theorem BusCause.number_injective : Function.Injective BusCause.number := by
  intro b c h
  cases b <;> cases c <;> cases h <;> rfl

theorem BusCause.IsLowest.unique (hb : b.IsLowest we a) (hc : c.IsLowest we a) : b = c := by
  obtain h | h | h := Nat.lt_trichotomy b.number c.number
  · exact absurd hb.1 (hc.2 b h)
  · exact BusCause.number_injective h
  · exact absurd hc.1 (hb.2 c h)

/-- An address is its register's number and its place in the word. -/
theorem addr_eq_of_aligned {o : BitVec 5} (ha : a.extractLsb' 0 2 = 0#2) (ho : o.extractLsb' 0 2 = 0#2) :
    a = o ↔ a.extractLsb' 2 3 = o.extractLsb' 2 3 := by
  have hsplit : ∀ x : BitVec 5, x.extractLsb' 2 3 ++ x.extractLsb' 0 2 = x := fun x => by
    rw [BitVec.extractLsb'_append_extractLsb'_eq_extractLsb' (start₁ := 0) (start₂ := 2) rfl]
    exact BitVec.extractLsb'_eq_self
  refine ⟨fun h => by rw [h], fun h => ?_⟩
  rw [← hsplit a, ← hsplit o, h, ha, ho]

/-- The offsets that the decoder compares with, as the registers of the conditions. -/
theorem BusCause.applies_iff_of_aligned (ha : a.extractLsb' 0 2 = 0#2) :
    (BusCause.unmapped.Applies we a ↔ a = 0x14#5 ∨ a = 0x18#5 ∨ a = 0x1C#5) ∧
    (BusCause.writeRo.Applies we a ↔ we = true ∧ (a = 0x00#5 ∨ a = 0x04#5 ∨ a = 0x0C#5)) ∧
    (BusCause.readWo.Applies we a ↔ we = false ∧ a = 0x08#5) := by
  simp (disch := decide) only [addr_eq_of_aligned ha]
  exact ⟨Iff.rfl, Iff.rfl, Iff.rfl⟩

/-- The checks of 20_memory R44 in their order are those of the causes, lowest number first. -/
theorem decodeAccess_lowest (we : Bool) (a : BitVec 5) (d : Word) :
    (∃ c : BusCause, c.IsLowest we a ∧ decodeAccess we a d = .error (.busError c)) ∨
      ((∀ c : BusCause, ¬ c.Applies we a) ∧ ∃ i, decodeAccess we a d = .ok i) := by
  unfold decodeAccess
  by_cases hmis : BusCause.misaligned.Applies we a
  · refine .inl ⟨.misaligned, ⟨hmis, fun e he => ?_⟩, if_pos hmis⟩
    cases e <;> exact absurd he (by decide)
  rw [if_neg (c := a.extractLsb' 0 2 ≠ 0#2) hmis]
  obtain ⟨hiffU, hiffR, hiffW⟩ := BusCause.applies_iff_of_aligned (we := we) (not_not.mp hmis)
  by_cases hunm : BusCause.unmapped.Applies we a
  · refine .inl ⟨.unmapped, ⟨hunm, fun e he => ?_⟩, if_pos (hiffU.mp hunm)⟩
    cases e with
    | misaligned => exact hmis
    | _ => exact absurd he (by decide)
  rw [if_neg (mt hiffU.mpr hunm)]
  by_cases hro : BusCause.writeRo.Applies we a
  · refine .inl ⟨.writeRo, ⟨hro, fun e he => ?_⟩, if_pos (hiffR.mp hro)⟩
    cases e with
    | misaligned => exact hmis
    | unmapped => exact hunm
    | _ => exact absurd he (by decide)
  rw [if_neg (mt hiffR.mpr hro)]
  by_cases hwo : BusCause.readWo.Applies we a
  · refine .inl ⟨.readWo, ⟨hwo, fun e he => ?_⟩, if_pos (hiffW.mp hwo)⟩
    cases e with
    | misaligned => exact hmis
    | unmapped => exact hunm
    | writeRo => exact hro
    | readWo => exact absurd he (by decide)
  rw [if_neg (mt hiffW.mpr hwo)]
  refine .inr ⟨fun e => by cases e <;> assumption, ?_⟩
  repeat' split
  all_goals exact ⟨_, rfl⟩

/-- A transaction is refused with the lowest-numbered cause that applies to it. -/
theorem decodeAccess_busError_iff (d : Word) :
    decodeAccess we a d = .error (.busError c) ↔ c.IsLowest we a := by
  obtain ⟨k, hk, hd⟩ | ⟨hnone, i, hd⟩ := decodeAccess_lowest we a d
  · rw [hd, Except.error.injEq, DecodeError.busError.injEq]
    exact ⟨fun h => h ▸ hk, hk.unique⟩
  · rw [hd]
    exact iff_of_false nofun fun ⟨happlies, _⟩ => hnone c happlies

end

/-- Settles O11: `BusCause.Applies` is the condition of the statement, and `decodeAccess_busError_iff` says that the
lowest-numbered cause is the one raised. -/
theorem lowestNumberedBusErrorIsRaised : Obligations.LowestNumberedBusErrorIsRaised := by
  unfold Obligations.LowestNumberedBusErrorIsRaised
  intro applies
  refine ⟨rfl, rfl, rfl, rfl, fun we addr wdata c => ?_⟩
  have happlies : ∀ e : BusCause, applies e we addr ↔ e.Applies we addr := fun e => by cases e <;> rfl
  rw [decode_pack, decodeAccess_busError_iff]
  exact (and_congr (happlies c) (forall_congr' fun e => imp_congr_right fun _ => not_congr (happlies e))).symm

end Sys2Proof
end

section
/-! A refused transaction (60_exceptions R170): it takes no flag, pushes no word and starts no blink, so that the clock
edge is that of an idle port but for the answer. -/

namespace Sys2Proof.Machine

section
variable {s t u : State} {p : PinIn} {i : Instr}

/-! ## A port with no effect -/

/-- The transaction of the cycle takes no flag, pushes no word and starts no invocation. -/
structure NoPortEffect (p : PinIn) (s : State) : Prop where
  takes  : ∀ c, p.takes c = false
  pushes : pushedWords p s = []
  starts : startsBlink p s = false

theorem noPortEffect_idle (s : State) (hsel : p.sel = false) : NoPortEffect p s where
  takes c := by simp [PinIn.takes, PinIn.xact, hsel]
  pushes := by simp [pushedWords, hsel]
  starts := by simp [startsBlink, hsel]

theorem noPortEffect_busError {k : BusCause} (s : State)
    (hd : decode (.xact (packXact p.we p.addr p.wdata)) = .error (.busError k)) : NoPortEffect p s where
  takes c := by
    unfold PinIn.takes PinIn.xact
    cases p.sel
    · rfl
    · simp [hd]
  pushes := by
    rw [decode_pack] at hd
    obtain ⟨-, hwrite⟩ := decodeAccess_busError _ _ _ hd
    exact if_neg fun ⟨_, hwe, ha, _⟩ => hwrite ⟨hwe, .inl ha⟩
  starts := by
    rw [decode_pack] at hd
    obtain ⟨-, hwrite⟩ := decodeAccess_busError _ _ _ hd
    rw [Bool.eq_false_iff]
    intro hstart
    simp only [startsBlink, Bool.and_eq_true, beq_iff_eq] at hstart
    obtain ⟨⟨⟨⟨-, hwe⟩, ha⟩, -⟩, -⟩ := hstart
    exact hwrite ⟨hwe, .inr ha⟩

/-- Two clock edges on one block whose ports have no effect end in one block: without a take there is no race. -/
theorem EdgeEffect.block_of_noPortEffect {q : PinIn} {e : Events} (ht : EdgeEffect p e s t)
    (hu : EdgeEffect q e s u) (hp : NoPortEffect p s) (hq : NoPortEffect q s)
    (hb : ∀ c, p.btn c = q.btn c) : t.block = u.block := by
  refine ht.block_unique hu hb (fun c => ?_) (fun c => ?_) ?_ ?_
  · rw [hp.takes, hq.takes]
  · simp [racing, hp.takes]
  · rw [hp.pushes, hq.pushes]
  · rw [hp.starts, hq.starts]

/-! ## Outside the block -/

/-- Nothing is drawn without a take (R86). -/
theorem sampleStep_draws {c : Ch} (pre s : State) (h : p.takes c = false) :
    (sampleStep c p pre s).draws = s.draws := by
  unfold sampleStep handoff
  simp only [racing, h, Bool.and_false, Bool.false_and, Bool.false_eq_true, if_false]
  split <;> simp

theorem hardwareEvents_draws (pre s : State) (h : ∀ c, p.takes c = false) :
    (hardwareEvents p pre s).draws = s.draws := by
  simp [hardwareEvents, sampleStep_draws _ _ (h _)]

/-- The state apart from the block and the answer. -/
theorem State.eq_of_block (hb : u.block = t.block) (hhost : t.host = u.host) (htrace : t.trace = u.trace)
    (hstim : t.stim = u.stim) (hdraws : t.draws = u.draws) : t = { u with reply := t.reply } := by
  have h := State.block_eq hb
  rwa [hhost, htrace, hstim, hdraws] at h

/-! ## The answer -/

/-- A transaction is no edge event. -/
theorem ne_edgeOf_of_decode {v : BitVec 40} (hd : decode (.xact v) = .ok i) (c : Ch) (lvl : Bool) :
    i ≠ edgeOf c lvl := by
  obtain ⟨-, rfl⟩ | ⟨-, rfl⟩ | ⟨-, rfl⟩ | ⟨-, rfl⟩ | ⟨-, -, rfl⟩ | ⟨-, -, rfl⟩ | ⟨-, rfl⟩ :=
    decode_xact_iff.mp hd <;> cases c <;> nofun

/-- A transaction's operation answers without `err`; an EDGE run alone leaves the last answer (log entry 3). -/
theorem exec_reply_err (hedge : ∀ c lvl, i ≠ edgeOf c lvl) (h : exec i s = .next t) : t.reply.err = false := by
  obtain ⟨c, -, rfl⟩ | ⟨w, -, -, rfl⟩ | ⟨w, -, -, rfl⟩ | ⟨-, rfl⟩ | ⟨-, -, rfl⟩ | ⟨-, rfl⟩ | ⟨-, rfl⟩ |
    ⟨c, lvl, hi, -⟩ := exec_cases h
  case inr.inr.inr.inr.inr.inr.inr =>
    obtain ⟨rfl, -⟩ | ⟨rfl, -⟩ := hi
    · exact absurd rfl (hedge .inc lvl)
    · exact absurd rfl (hedge .dec lvl)
  all_goals rfl

end

/-- On the pins: a clock edge with the refused transaction and one with an idle port, in states that differ in that
stimulus alone. -/
theorem step_busError_pins {s s' : State} {p : PinIn} {k : BusCause} (hpop : s'.popStim = s.popStim)
    (hn : s.nextStimulus = .edge p) (hn' : s'.nextStimulus = .edge { p with sel := false })
    (hr : p.rst = false) (hh : s.host.program = []) (hsel : p.sel = true)
    (hd : decode (.xact (packXact p.we p.addr p.wdata)) = .error (.busError k)) :
    ∃ t u, step s = .next t ∧ step s' = .next u ∧
      t.reply = { ready := true, err := true, rdata := 0#32 } ∧ t = { u with reply := t.reply } := by
  have hh' : s'.host.program = [] := (congrArg (·.host.program) hpop).trans hh
  obtain ⟨v, hv, -, ht, he⟩ := step_edge_pins hh hn hr
  obtain ⟨w, hw, -, hu, he'⟩ := step_edge_pins hh' hn' hr
  rw [portStep_sel hsel, runWord_error hd] at hv
  rw [portStep_idle rfl] at hw
  cases hv
  cases hw
  rw [hpop] at hu he'
  have hp := noPortEffect_busError s hd
  have hq := noPortEffect_idle (p := { p with sel := false }) s rfl
  have hstart : s.block = s'.block := (congrArg State.block hpop).symm
  have hends := he.block_of_noPortEffect (he'.of_block hstart) hp hq (fun c => by cases c <;> rfl)
  refine ⟨_, _, ht, hu, he.refused k hsel hd, State.eq_of_block hends.symm ?_ ?_ ?_ ?_⟩
  · simp [raiseBusError]
  · simp [raiseBusError]
  · simp [raiseBusError]
  · rw [hardwareEvents_draws _ _ hp.takes, hardwareEvents_draws _ _ hq.takes]
    rfl

/-- Settles O14: a refused transaction has no more effect than an idle port, on the pins (`step_busError_pins`)
and whoever drives the port (`EdgeEffect.block_of_noPortEffect`); the operations of transactions answer without `err`
(`exec_reply_err`). -/
theorem busErrorChangesNothing : Obligations.BusErrorChangesNothing := by
  refine ⟨?_, ?_, ?_, ?_⟩
  · intro s p rest k hstim hr hh hsel hd
    exact step_busError_pins (by rw [State.popStim, State.popStim, hstim]; rfl)
      (by rw [State.nextStimulus, hstim]) rfl hr hh hsel hd
  · intro s s' p k hdig hdig' hblock hp hp' hevents hr hsel hd
    obtain ⟨t, ht, he⟩ := step_ahead hdig hp hr
    obtain ⟨u, hu, he'⟩ := step_ahead hdig' hp' hr
    rw [hevents] at he'
    exact ⟨t, u, ht, hu, he.refused k hsel hd, he.block_of_noPortEffect (he'.of_block hblock.symm)
      (noPortEffect_busError s hd) (noPortEffect_idle s rfl) (fun c => by cases c <;> rfl)⟩
  · intro s w k hn hd
    rw [step_op hn, runWord_error hd]
    rfl
  · intro s we addr wdata i hd
    obtain ⟨t, ht⟩ := exec_answers i s
    exact ⟨t, ht, exec_reply_err (ne_edgeOf_of_decode hd) ht⟩

end Sys2Proof.Machine
end

section
/-! Reset (70_reset_and_hazards R190, R191; 10_state R39): what the four readable registers read after it, and a reset
edge. -/

namespace Sys2Proof.Machine

section
variable (p : Params)

/-- TX_STAT after reset: EMPTY alone is set, since TXQ_DEPTH is positive. -/
theorem txStatWord_resetWith (h : p.wellFormed = true) : (State.resetWith p).txStatWord = 0x00000002#32 := by
  have hfull : (State.resetWith p).full = false :=
    beq_eq_false_iff_ne.mpr (txqDepth_pos h).ne
  rw [State.txStatWord, hfull]
  change 0#16 ++ 0#8 ++ 0#5 ++ BitVec.ofBool false ++ BitVec.ofBool true ++ BitVec.ofBool false = 2#32
  decide

theorem blinkStatWord_resetWith : (State.resetWith p).blinkStatWord = 0x00000000#32 := by
  change 0#24 ++ 0#4 ++ 0#2 ++ BitVec.ofBool false ++ BitVec.ofBool false = 0#32
  decide

/-- Both channels are reset alike. -/
theorem resetWith_ch (c : Ch) : (State.resetWith p).ch c = Channel.reset p := by cases c <;> rfl

theorem take_reply_resetWith (c : Ch) : (take c (State.resetWith p)).reply.rdata = 0x00000000#32 := by
  rw [take_reply, resetWith_ch]
  rfl

end

/-- Settles O1: the elements are those of `State.resetWith`, and the reads of the four registers follow from them. -/
theorem resetGivesEveryElementItsValue : Obligations.ResetGivesEveryElementItsValue := by
  intro p h s
  have hch : ∀ c, s.ch c = Channel.reset p := resetWith_ch p
  refine ⟨rfl, rfl, fun c => by rw [hch c]; exact ⟨rfl, rfl, rfl, rfl⟩, rfl, rfl, rfl, rfl, rfl, rfl, rfl, rfl, rfl,
    rfl, rfl, ?_, ?_, ?_, ?_⟩
  · exact ⟨_, rfl, take_reply_resetWith p .inc⟩
  · exact ⟨_, rfl, take_reply_resetWith p .dec⟩
  · exact ⟨_, rfl, txStatWord_resetWith p h⟩
  · exact ⟨_, rfl, blinkStatWord_resetWith p⟩

/-- Settles O2: whatever the host does, the block after the edge is `applyReset` of the block before it
(`step_reset`). -/
theorem resetWinsOverEverything : Obligations.ResetWinsOverEverything := by
  intro s p hp hr hd
  obtain ⟨h, ht, -⟩ := step_reset hd hp hr
  exact ⟨_, ht, rfl, rfl, fun c => applyReset_ch c s.popStim, rfl, rfl, rfl, rfl, rfl, rfl, rfl, rfl, rfl, rfl, rfl,
    rfl, rfl, rfl⟩

end Sys2Proof.Machine
end

section
/-! The startup dead window (70_reset_and_hazards R199): while `last_ts` has its reset value and TIME is at most
200000 no edge passes the test of R81, whoever brings it; one microsecond later the first does. -/

namespace Sys2Proof.Machine

section
variable {s t : State} {c : Ch}

/-- No press of the channel has been accepted since reset: flag and timestamp have their reset values. -/
structure Channel.NoPress (k : Channel) : Prop where
  lastTs : k.lastTs = 0#64
  pend   : k.pend = false

theorem edgeAccepted_startup {k : Channel} (h : k.NoPress) {now : Stamp} (hnow : now.toNat ≤ 200000) (lvl : Bool) :
    edgeAccepted k now lvl = false := by
  rw [← Bool.not_eq_true, edgeAccepted_iff, h.lastTs, BitVec.sub_zero]
  omega

theorem acceptedAt_startup (h : (s.ch c).NoPress) (htime : s.time.toNat ≤ 200000) (lvl : Bool) (ev : Option Bool) :
    acceptedAt c lvl ev s = false := by
  simp only [acceptedAt, edgeTaken, edgeAccepted_startup h htime, Bool.and_false, Bool.false_or]
  cases ev <;> rfl

/-- A clock edge; with no accepted edge `HANDOFF = racy` draws nothing. -/
theorem noPress_edge {p : PinIn} {e : Events} (h : (s.ch c).NoPress) (htime : s.time.toNat ≤ 200000)
    (he : EdgeEffect p e s t) : (t.ch c).NoPress := by
  have hacc := acceptedAt_startup h htime (p.btn c) (e.ch c)
  have hpend := he.pend c (by simp [racing, hacc])
  have hts := he.lastTs c
  rw [hacc, h.pend] at hpend
  rw [hacc, h.lastTs] at hts
  exact ⟨hts, hpend⟩

/-- An operation run alone. -/
theorem noPress_exec {i : Instr} (h : (s.ch c).NoPress) (htime : s.time.toNat ≤ 200000) (he : exec i s = .next t) :
    (t.ch c).NoPress := by
  obtain ⟨-, rfl⟩ | ⟨lvl, -, rfl⟩ | hc := exec_ch_cases he c
  · rw [take_ch_self]
    exact ⟨h.lastTs, rfl⟩
  · rw [edgeHandle_ch_self, edgeAccepted_startup h htime, if_neg Bool.false_ne_true]
    exact h
  · rwa [hc]

/-- Every kind of step, a reset edge included. -/
theorem noPress_step (h : (s.ch c).NoPress) (htime : s.time.toNat ≤ 200000) (hs : step s = .next t) :
    (t.ch c).NoPress := by
  have hpop : (s.popStim.ch c).NoPress := by rwa [State.popStim_ch]
  obtain ⟨p, -, -, rfl⟩ | ⟨p, p', -, -, -, -, -, he, -⟩ | ⟨w, i, -, -, he⟩ | ⟨w, k, -, -, rfl⟩ |
    ⟨us, -, rfl⟩ | ⟨-, rfl⟩ | ⟨-, rfl⟩ := step_effect hs
  · cases c <;> exact ⟨rfl, rfl⟩
  · exact noPress_edge h htime he
  · exact noPress_exec hpop htime he
  · rwa [raiseBusError, State.answer_ch]
  · rwa [elapse_ch]
  · rwa [wordDone_ch]
  · rwa [holdExpires_ch]

/-- The earliest accepted edge. -/
theorem exec_edgeOf_firstAccepted (hts : (s.ch c).lastTs = 0#64) (htime : s.time = 200001#64) :
    exec (edgeOf c false) s = .next (s.setCh c { s.ch c with pend := true, lastTs := 200001#64 }) := by
  rw [exec_edgeOf, edgeHandle_eq, htime, hts, if_pos (by decide)]

end

/-- Settles O32: the window by the kinds of step (`noPress_step`), the first microsecond after it by
`exec_edgeOf_firstAccepted`. -/
theorem startupDeadWindow : Obligations.StartupDeadWindow := by
  refine ⟨?_, ?_, ?_⟩
  · intro s t c hts hpend htime hs
    obtain ⟨hts', hpend'⟩ := noPress_step ⟨hts, hpend⟩ htime hs
    exact ⟨hts', hpend'⟩
  · exact fun s hts htime => exec_edgeOf_firstAccepted (c := .inc) hts htime
  · exact fun s hts htime => exec_edgeOf_firstAccepted (c := .dec) hts htime

end Sys2Proof.Machine
end

section
/-! The operation level (70_reset_and_hazards R211, log entry 7): passing time, the end of a word and the expiry of a
hold, case by case. -/

namespace Sys2Proof.Machine

section
variable {s : State}

/-! ## Time passes -/

/-- A running hold is counted down to its last tick and not past it. -/
theorem elapse_blinkRem_toNat (us : Nat) (hb : s.blinkBusy = true) : (elapse us s).blinkRem.toNat =
    if us < s.blinkRem.toNat then s.blinkRem.toNat - us else 1 := by
  simp only [elapse, hb, if_true]
  split
  next hus => bv_omega
  next => rfl

theorem elapse_blinkRem_idle (us : Nat) (hb : s.blinkBusy = false) : (elapse us s).blinkRem = s.blinkRem := by
  simp [elapse, hb]

/-! ## A word ends -/

section
variable {w : Word} {q : List Word}

@[simp] theorem lastCycle_txq (s : State) : (lastCycle s).txq = s.txq := by
  unfold lastCycle; split <;> rfl

theorem lastCycle_idle (hb : s.shBusy = false) : lastCycle s = s := if_neg (by simp [hb])

theorem lastCycle_busy (hb : s.shBusy = true) : lastCycle s =
    { s with shReg := s.shReg <<< (s.shLeft.toNat - 1), shLeft := 1#5, shPhase := s.params.cpb - 1 } := if_pos hb

theorem atWordEnd_lastCycle (hb : s.shBusy = true) : atWordEnd (lastCycle s) := by
  rw [lastCycle_busy hb]
  exact ⟨hb, rfl, rfl⟩

/-- Nothing of the old word is left once the next is loaded. -/
theorem serLoad_lastCycle (w : Word) (s : State) : serLoad w (lastCycle s) = serLoad w s := by
  unfold lastCycle; split <;> rfl

/-- The next word follows the word that ends, and an idle serialiser begins the word that waits. -/
theorem wordDone_next (hq : s.txq = w :: q) : wordDone s = serLoad w s := by
  have hfree : (lastCycle s).shBusy = false ∨ atWordEnd (lastCycle s) := by
    cases hb : s.shBusy with
    | false => exact .inl (by rw [lastCycle_idle hb, hb])
    | true => exact .inr (atWordEnd_lastCycle hb)
  rw [wordDone, serStep_load _ hfree ((lastCycle_txq s).trans hq), serLoad_lastCycle]

theorem wordDone_last (hq : s.txq = []) (hb : s.shBusy = true) : wordDone s =
    { s with shBusy := false, shReg := s.shReg <<< (s.shLeft.toNat - 1), shLeft := 0#5, shPhase := 0 } := by
  rw [wordDone, serStep_wordEnd _ (atWordEnd_lastCycle hb) ((lastCycle_txq s).trans hq), lastCycle_busy hb]

theorem wordDone_rest (hq : s.txq = []) (hb : s.shBusy = false) : wordDone s = s := by
  rw [wordDone, lastCycle_idle hb, serStep_rest _ hb hq]

end

theorem wordDone_txq (s : State) : (wordDone s).txq = s.txq.tail := by
  cases hq : s.txq with
  | cons w q => rw [wordDone_next hq, serLoad, hq]
  | nil =>
    cases hb : s.shBusy with
    | true => rw [wordDone_last hq hb]; exact hq
    | false => rw [wordDone_rest hq hb]; exact hq

/-- The queue loses its head if there is one, and of the rest only the serialiser changes. -/
theorem wordDone_eq (s : State) : wordDone s =
    { s with
      txq := s.txq.tail, shBusy := (wordDone s).shBusy, shReg := (wordDone s).shReg
      shLeft := (wordDone s).shLeft, shPhase := (wordDone s).shPhase } := by
  obtain ⟨q, b, r, l, n, h⟩ := wordDone_frame s
  rw [← wordDone_txq, h]

/-! ## A hold expires -/

theorem holdExpires_last (hb : s.blinkBusy = true) (hr : s.blinkRem = 1#17)
    (hc : s.blinkCnt = Config.blinkToggles) :
    holdExpires s = { s with time := s.time + 1#64, blinkBusy := false, blinkRem := 0#17 } := by
  rw [holdExpires, if_pos ⟨hb, hr⟩, blinkTick, if_pos hr, if_pos hc]

theorem holdExpires_next (hb : s.blinkBusy = true) (hr : s.blinkRem = 1#17)
    (hc : s.blinkCnt ≠ Config.blinkToggles) :
    holdExpires s = { s with
      time := s.time + 1#64, statusOut := !s.statusOut, blinkCnt := s.blinkCnt + 1#4
      blinkRem := Config.blinkHoldUs } := by
  rw [holdExpires, if_pos ⟨hb, hr⟩, blinkTick, if_pos hr, if_neg hc]

/-- No hold is at its last tick. -/
theorem holdExpires_waits (h : s.blinkBusy = false ∨ s.blinkRem ≠ 1#17) : holdExpires s = s := by
  refine if_neg fun ⟨hb, hr⟩ => ?_
  obtain hidle | hne := h
  · exact Bool.false_ne_true (hidle.symm.trans hb)
  · exact hne hr

/-! ## The steps -/

theorem step_elapse {us : Nat} (hn : s.nextStimulus = .elapse us) : step s = .next (elapse us s.popStim) := by
  simp only [step, hn]

theorem step_wordDone (hn : s.nextStimulus = .wordDone) : step s = .next (wordDone s.popStim) := by
  simp only [step, hn]

theorem step_holdExpires (hn : s.nextStimulus = .holdExpires) : step s = .next (holdExpires s.popStim) := by
  simp only [step, hn]

end

/-- Settles O50: the three kinds of step, by the cases of `elapse`, `wordDone` and `holdExpires`. -/
theorem operationLevelSteps : Obligations.OperationLevelSteps := by
  refine ⟨?_, ?_, ?_⟩
  · intro s us hn
    exact ⟨_, step_elapse hn, rfl, rfl, elapse_blinkRem_idle (s := s.popStim) us,
      elapse_blinkRem_toNat (s := s.popStim) us⟩
  · intro s hn
    refine ⟨_, step_wordDone hn, wordDone_eq s.popStim, ?_, ?_, wordDone_rest (s := s.popStim)⟩
    · intro w q hq
      rw [wordDone_next (s := s.popStim) hq]
      exact ⟨rfl, rfl, rfl, rfl⟩
    · intro hq hb
      rw [wordDone_last (s := s.popStim) hq hb]
      exact ⟨rfl, rfl, rfl, rfl⟩
  · intro s hn
    exact ⟨_, step_holdExpires hn, holdExpires_last (s := s.popStim), holdExpires_next (s := s.popStim),
      holdExpires_waits (s := s.popStim)⟩

end Sys2Proof.Machine
end
